-- ==== Sys2Proof/Word.lean ====
section
/-! DEFINITION. The words of the machine: bytes, packed halves, register words and binary32 patterns. -/

namespace Sys2Proof

/-- One byte of the DMA space, or one 8-bit channel value (20_memory.md R60; 00_scope.md R15). -/
abbrev Byte := BitVec 8

/-- One packed 16-bit pixel (30_encoding.md R89, R90). -/
abbrev Half := BitVec 16

/-- One 32-bit register value or command word (10_state.md R21; 30_encoding.md R80). -/
abbrev Word := BitVec 32

/-- One IEEE 754 binary32 value, held as its 32-bit pattern (00_scope.md R9). -/
abbrev F32 := BitVec 32

end Sys2Proof
end

