-- ==== Sys2Proof/Machine/Codec.lean ====
section
/-! DEFINITION. PixelCodec: pixel words, the two packed formats and the expansion (42_codec.md). -/

namespace Sys2Proof.Machine

/-- One RGBA8888 pixel (30_encoding.md R88). -/
structure Pixel where
  r : Byte
  g : Byte
  b : Byte
  a : Byte
  deriving DecidableEq, Repr

/-- The pixel of a pixel word (30_encoding.md R88). -/
def pixelOf (w : Word) : Pixel :=
  { r := w.extractLsb' 0 8, g := w.extractLsb' 8 8, b := w.extractLsb' 16 8, a := w.extractLsb' 24 8 }

/-- `pixelWord(r, g, b, a) = {a, b, g, r}` (30_encoding.md R88). -/
def pixelWord (p : Pixel) : Word := p.a ++ p.b ++ p.g ++ p.r

/-- `pack565`: the top 5, 6 and 5 bits (42_codec.md R140). -/
def pack565 (p : Pixel) : Half := p.r.extractLsb' 3 5 ++ p.g.extractLsb' 2 6 ++ p.b.extractLsb' 3 5

/-- A field of `bits` bits expanded to 8 bits: (f * 255 + max div 2) div max, with max = 2^bits - 1
(42_codec.md R142, R146). -/
def expandField (bits f : Nat) : Byte :=
  BitVec.ofNat 8 ((f * 255 + (2 ^ bits - 1) / 2) / (2 ^ bits - 1))

/-- `unpack565` (42_codec.md R142). -/
def unpack565 (p : Half) : Pixel :=
  { r := expandField 5 (p.extractLsb' 11 5).toNat
    g := expandField 6 (p.extractLsb' 5 6).toNat
    b := expandField 5 (p.extractLsb' 0 5).toNat
    a := 255#8 }

/-- `pack4444`: the top 4 bits of each channel (42_codec.md R144). -/
def pack4444 (p : Pixel) : Half :=
  p.r.extractLsb' 4 4 ++ p.g.extractLsb' 4 4 ++ p.b.extractLsb' 4 4 ++ p.a.extractLsb' 4 4

/-- `unpack4444` (42_codec.md R146). -/
def unpack4444 (p : Half) : Pixel :=
  { r := expandField 4 (p.extractLsb' 12 4).toNat
    g := expandField 4 (p.extractLsb' 8 4).toNat
    b := expandField 4 (p.extractLsb' 4 4).toNat
    a := expandField 4 (p.extractLsb' 0 4).toNat }

/-- `expand(r, g, b)`: alpha 255 (42_codec.md R148). -/
def expandPixel (r g b : Byte) : Pixel := { r := r, g := g, b := b, a := 255#8 }

/-- A packed word in a register: bits [31:16] zero (30_encoding.md R89, R90). -/
def packedWord (k : Half) : Word := k.setWidth 32

end Sys2Proof.Machine
end

