-- ==== Sys2Proof/Config.lean ====
section
/-! DEFINITION. What is fixed for this hardware outside any test's reach, and the free values: the constants with
no body, one for each value that the spec leaves open while the engine goes on. The valued parameters of
00_scope.md R8 that a test could show wrong stand in Machine/Params.lean. -/

namespace Sys2Proof

/-- The tie rule of rounding to an integer (00_scope.md R10). -/
inductive TieRule where
  /-- Halfway cases go to the integer of larger magnitude. -/
  | away
  /-- Halfway cases go to the even integer. -/
  | even
  deriving DecidableEq, Repr

/-- FREE VALUE: which of the pixels not yet completed a FRAME's pixel step takes
(20_memory.md R71; 43_pipeline.md R166). Log 5. -/
opaque Config.freePick : Nat → Nat

/-- FREE VALUE: whether an output byte is the new one (true) or the old one (false), where the spec allows either
(20_memory.md R74; 60_exceptions.md R210; 70_reset_and_hazards.md R232). Logs 6 and 8. -/
opaque Config.freeBit : Nat → Bool

/-- FREE VALUE: an output byte of a FRAME whose buffers the host wrote while it ran (20_memory.md R74). Log 7. -/
opaque Config.freeByte : Nat → Byte

/-- FREE VALUE: the result of a binary32 operation with an operand that is not finite, or of a division by zero.
The spec states none, and the engine never computes one (91_not_in_source.md N5). Log 12. -/
opaque Config.nonFiniteResult : F32 → F32 → F32

/-- FREE VALUE: the integer to which a pattern that is not finite is rounded; 00_scope.md R10 defines rounding for
finite values only. Log 12. -/
opaque Config.nonFiniteRound : F32 → Int

end Sys2Proof
end

