-- ==== Sys2Proof/Machine/Params.lean ====
section
/-! DEFINITION. The parameters of 00_scope.md R8 that have a value, and the constant tables of 10_state.md. -/

namespace Sys2Proof.Machine

/-- P_ROUND_TIE (00_scope.md R10). Log 4. -/
def pRoundTie : TieRule := .away

/-- P_FLIP4444: the flip channel of the RGBA4444 path, 1 = G (10_state.md R29). Log 4. -/
def pFlip4444 : BitVec 2 := 1#2

/-- P_FLIP565: the flip channel of the RGB565 path, 2 = B (10_state.md R30). -/
def pFlip565 : BitVec 2 := 2#2

/-- P_ALPHA_DITHER: alpha is dithered in the RGBA4444 path (10_state.md R28). Log 4. -/
def pAlphaDither : Bool := true

/-- P_ID: the value of the ID register (10_state.md R24). -/
def pId : Word := 0x44540007#32

/-- P_COORD_BITS: coordinate operands are below 2^20 (30_encoding.md R91). -/
def pCoordBits : Nat := 20

/-- P_ADDR_BITS: DMA addresses are below 2^32 (20_memory.md R60). -/
def pAddrBits : Nat := 32

/-- The number of bytes of the DMA space (20_memory.md R60). -/
def dmaSize : Nat := 2 ^ pAddrBits

/-- The size of the register window in bytes (10_state.md R21). -/
def windowSize : Nat := 4096

/-- P_BAYER4 (10_state.md R46). Log 4. -/
def bayer4 : List Nat :=
  [ 0, 8, 2, 10,
    12, 4, 14, 6,
    3, 11, 1, 9,
    15, 7, 13, 5 ]

/-- P_BAYER8 (10_state.md R47). Log 4. -/
def bayer8 : List Nat :=
  [ 0, 32, 8, 40, 2, 34, 10, 42,
    48, 16, 56, 24, 50, 18, 58, 26,
    12, 44, 4, 36, 14, 46, 6, 38,
    60, 28, 52, 20, 62, 30, 54, 22 ] ++
  [ 3, 35, 11, 43, 1, 33, 9, 41,
    51, 19, 59, 27, 49, 17, 57, 25,
    15, 47, 7, 39, 13, 45, 5, 37,
    63, 31, 55, 23, 61, 29, 53, 21 ]

/-- C0, the binary32 of 0.06711056 (10_state.md R48). -/
def noiseC0 : F32 := 0x3D897143#32

/-- C1, the binary32 of 0.00583715 (10_state.md R48). -/
def noiseC1 : F32 := 0x3BBF4590#32

/-- C2, the binary32 of 52.9829189 (10_state.md R48). -/
def noiseC2 : F32 := 0x4253EE82#32

end Sys2Proof.Machine
end

