-- ==== Sys2Proof/Machine/Operands.lean ====
section
/-! DEFINITION. The operand formats and their valid ranges (30_encoding.md R91 to R93). -/

namespace Sys2Proof.Machine

/-- A coordinate operand is valid below 2^20 (30_encoding.md R91). -/
def coordValid (w : Word) : Bool := decide (w.toNat < 2 ^ pCoordBits)

/-- A channel-value operand is valid up to 255 (30_encoding.md R92). -/
def channelValid (w : Word) : Bool := decide (w.toNat ≤ 255)

/-- A 16-bit word operand has bits [31:16] zero (30_encoding.md R92). -/
def word16Valid (w : Word) : Bool := w.extractLsb' 16 16 == 0#16

/-- An RGB888 operand has bits [31:24] zero (30_encoding.md R92). -/
def rgb888Valid (w : Word) : Bool := w.extractLsb' 24 8 == 0#8

/-- A noise operand encodes a value in [0, 1), -0.0 among them (30_encoding.md R93). -/
def noiseValid (b : F32) : Bool := decide (b.toNat ≤ 0x3F7FFFFF) || b == 0x80000000#32

/-- A threshold operand encodes a value in [-0.5, 0.5) (30_encoding.md R93). -/
def thresholdValid (b : F32) : Bool :=
  decide (b.toNat ≤ 0x3EFFFFFF) || (decide (0x80000000 ≤ b.toNat) && decide (b.toNat ≤ 0xBF000000))

end Sys2Proof.Machine
end

