-- ==== Sys2Proof/Syntax.lean ====
section
/-! DEFINITION. The commands of the engine: one constructor for each row of spec/opcode_table.json
(30_encoding.md R86). -/

namespace Sys2Proof

/-- The matrix size n of NSEL and of CTRL.BAYER_N (30_encoding.md R85; 10_state.md R27). -/
inductive MatrixSize where
  /-- The field is 0: n = 4. -/
  | n4
  /-- The field is 1: n = 8. -/
  | n8
  deriving DecidableEq, Repr

/-- A command of the engine, with the fields of its word (30_encoding.md R81, R86). -/
inductive Instr where
  /-- OPC 0x00, 43_pipeline.md R170. -/
  | nop
  /-- OPC 0x01, 40_lookup.md R101. -/
  | noise
  /-- OPC 0x02 with NSEL, 40_lookup.md R103. -/
  | bayer (nsel : MatrixSize)
  /-- OPC 0x03 with FLIP and the STEP code, 41_quantizer.md R122. -/
  | qnoise (flip : Bool) (step : BitVec 2)
  /-- OPC 0x04 with NSEL, 41_quantizer.md R124. -/
  | qord (nsel : MatrixSize)
  /-- OPC 0x10, 42_codec.md R141. -/
  | pack565
  /-- OPC 0x11, 42_codec.md R143. -/
  | unpack565
  /-- OPC 0x12, 42_codec.md R145. -/
  | pack4444
  /-- OPC 0x13, 42_codec.md R147. -/
  | unpack4444
  /-- OPC 0x14, 42_codec.md R149. -/
  | expand
  /-- OPC 0x20, 43_pipeline.md R163. -/
  | dpix4444
  /-- OPC 0x21, 43_pipeline.md R164. -/
  | dpix565
  /-- OPC 0x30, 43_pipeline.md R165 to R169. -/
  | frame
  deriving DecidableEq, Repr

end Sys2Proof
end

