-- ==== Sys2Proof/WellFormed.lean ====
section
/-! DEFINITION. Which commands a command word can hold: the one field value that 30_encoding.md reserves. -/

namespace Sys2Proof

/-- STEP = 3 of a QNOISE is reserved (30_encoding.md R84); every other field takes any value. -/
def Instr.wellFormed : Instr → Bool
  | .qnoise _ step => step != 3#2
  | .nop | .noise | .bayer _ | .qord _ | .pack565 | .unpack565 | .pack4444 | .unpack4444 | .expand
  | .dpix4444 | .dpix565 | .frame => true

end Sys2Proof
end

