-- ==== Sys2Proof/Decode.lean ====
section
/-! DEFINITION. The decoder of command words, the encoder, and the assembler's spellings (30_encoding.md). -/

namespace Sys2Proof

/-- Why a command word is rejected (30_encoding.md R87). -/
inductive DecodeError where
  /-- OPC is none of the 13 opcodes (60_exceptions.md R202). -/
  | illegalOpcode
  /-- A reserved or unused field is not zero, or STEP = 3 (60_exceptions.md R203). -/
  | reservedField
  deriving DecidableEq, Repr

/-- What the decoder answers for a command word. -/
inductive Decoded where
  | instr (i : Instr)
  | reject (e : DecodeError)
  deriving DecidableEq, Repr

/-- OPC, bits [7:0] (30_encoding.md R81). -/
def opcField (w : Word) : BitVec 8 := w.extractLsb' 0 8

/-- FLIP, bit [8] (30_encoding.md R83). -/
def flipField (w : Word) : Bool := w.getLsbD 8

/-- STEP, bits [10:9] (30_encoding.md R84). -/
def stepField (w : Word) : BitVec 2 := w.extractLsb' 9 2

/-- NSEL, bit [11] (30_encoding.md R85). -/
def nselField (w : Word) : Bool := w.getLsbD 11

/-- RSVD, bits [31:12] (30_encoding.md R81). -/
def rsvdField (w : Word) : BitVec 20 := w.extractLsb' 12 20

/-- The matrix size a field bit selects (30_encoding.md R85; 10_state.md R27). -/
def MatrixSize.ofBit (b : Bool) : MatrixSize := if b then .n8 else .n4

/-- The field bit of a matrix size (30_encoding.md R85; 10_state.md R27). -/
def MatrixSize.bit : MatrixSize → Bool
  | .n4 => false
  | .n8 => true

/-- The command that a legal opcode selects, its fields read from the word (30_encoding.md R86). -/
def instrOfOpc (w : Word) : Option Instr :=
  match (opcField w).toNat with
  | 0x00 => some .nop
  | 0x01 => some .noise
  | 0x02 => some (.bayer (.ofBit (nselField w)))
  | 0x03 => some (.qnoise (flipField w) (stepField w))
  | 0x04 => some (.qord (.ofBit (nselField w)))
  | 0x10 => some .pack565
  | 0x11 => some .unpack565
  | 0x12 => some .pack4444
  | 0x13 => some .unpack4444
  | 0x14 => some .expand
  | 0x20 => some .dpix4444
  | 0x21 => some .dpix565
  | 0x30 => some .frame
  | _ => none

/-- Whether a command uses FLIP and STEP: QNOISE only (30_encoding.md R82). -/
def Instr.usesFlipStep : Instr → Bool
  | .qnoise _ _ => true
  | .nop | .noise | .bayer _ | .qord _ | .pack565 | .unpack565 | .pack4444 | .unpack4444 | .expand
  | .dpix4444 | .dpix565 | .frame => false

/-- Whether a command uses NSEL: BAYER and QORD only (30_encoding.md R82). -/
def Instr.usesNsel : Instr → Bool
  | .bayer _ | .qord _ => true
  | .nop | .noise | .qnoise _ _ | .pack565 | .unpack565 | .pack4444 | .unpack4444 | .expand
  | .dpix4444 | .dpix565 | .frame => false

/-- The decoder of 30_encoding.md R87, its checks in that order. -/
def decode (w : Word) : Decoded :=
  match instrOfOpc w with
  | none => .reject .illegalOpcode
  | some i =>
    if rsvdField w != 0#20 then .reject .reservedField
    else if !i.usesFlipStep && w.extractLsb' 8 3 != 0#3 then .reject .reservedField
    else if i.usesFlipStep && stepField w == 3#2 then .reject .reservedField
    else if !i.usesNsel && nselField w then .reject .reservedField
    else .instr i

/-- The opcode of a command (30_encoding.md R86). -/
def Instr.opcode : Instr → BitVec 8
  | .nop => 0x00#8
  | .noise => 0x01#8
  | .bayer _ => 0x02#8
  | .qnoise _ _ => 0x03#8
  | .qord _ => 0x04#8
  | .pack565 => 0x10#8
  | .unpack565 => 0x11#8
  | .pack4444 => 0x12#8
  | .unpack4444 => 0x13#8
  | .expand => 0x14#8
  | .dpix4444 => 0x20#8
  | .dpix565 => 0x21#8
  | .frame => 0x30#8

/-- A command word from its fields, the most significant first (30_encoding.md R81). -/
def commandWord (nsel : Bool) (step : BitVec 2) (flip : Bool) (opc : BitVec 8) : Word :=
  0#20 ++ BitVec.ofBool nsel ++ step ++ BitVec.ofBool flip ++ opc

/-- The encoder: the word of a command, its unused fields zero (30_encoding.md R81, R82). -/
def encode (i : Instr) : Word :=
  match i with
  | .bayer n | .qord n => commandWord n.bit 0#2 false i.opcode
  | .qnoise flip step => commandWord false step flip i.opcode
  | .nop | .noise | .pack565 | .unpack565 | .pack4444 | .unpack4444 | .expand | .dpix4444 | .dpix565
  | .frame => commandWord false 0#2 false i.opcode

/-- The command the decoder reads from an instruction of `nbits` bits `w`, in the numbering of
spec/opcode_table.json; none where it rejects, or where the bits do not fit the one 32-bit word of a command
(30_encoding.md R80). -/
def decodeTableWord (nbits w : Nat) : Option Instr :=
  if 2 ^ 32 ≤ w % 2 ^ nbits then none
  else
    match decode (BitVec.ofNat 32 (w % 2 ^ nbits)) with
    | .instr i => some i
    | .reject _ => none

/-- The assembler's spellings, each with its command (30_encoding.md R95). -/
def asmTable : List (String × Instr) :=
  [ ("nop", .nop), ("noise", .noise), ("bayer.n4", .bayer .n4), ("bayer.n8", .bayer .n8),
    ("qnoise.s16", .qnoise false 0#2), ("qnoise.s8", .qnoise false 1#2), ("qnoise.s4", .qnoise false 2#2),
    ("qnoise.s16.flip", .qnoise true 0#2), ("qnoise.s8.flip", .qnoise true 1#2),
    ("qnoise.s4.flip", .qnoise true 2#2), ("qord.n4", .qord .n4), ("qord.n8", .qord .n8) ] ++
  [ ("pack565", .pack565), ("unpack565", .unpack565), ("pack4444", .pack4444), ("unpack4444", .unpack4444),
    ("expand", .expand), ("dpix4444", .dpix4444), ("dpix565", .dpix565), ("frame", .frame) ]

/-- The word of an assembler line, or none: a suffix that the command does not take is an assembly error and gives
no word (30_encoding.md R95; 93_implementation_defined.md U24). -/
def assemble (line : String) : Option Word :=
  (asmTable.find? (fun row => row.1 == line)).map (fun row => encode row.2)

end Sys2Proof
end

