-- ==== Sys2Proof/Machine/State.lean ====
section
/-! DEFINITION. The machine's state as plain data, the reasons a step can stop, and the state after reset. -/

namespace Sys2Proof.Machine

/-- The dither strategy of CTRL.MODE (10_state.md R26). -/
inductive Mode where
  /-- MODE = 0: NoiseDither. -/
  | noise
  /-- MODE = 1: OrderedDither. -/
  | ordered
  deriving DecidableEq, Repr

/-- The fields of CTRL that the host can write (10_state.md R25). The read-only fields are constants
(Machine/Params.lean), and the reserved bits store nothing. -/
structure Ctrl where
  /-- CTRL.MODE, bit 0 (10_state.md R26). -/
  mode : Mode
  /-- CTRL.BAYER_N, bit 1 (10_state.md R27). -/
  bayerN : MatrixSize
  /-- CTRL.DONE_IE, bit 8 (10_state.md R31). -/
  doneIE : Bool
  /-- CTRL.ERR_IE, bit 9 (10_state.md R32). -/
  errIE : Bool
  deriving DecidableEq, Repr

/-- The errors of 60_exceptions.md R201 but NONE. -/
inductive ErrorCode where
  | illegalOpcode
  | reservedField
  | operandRange
  | unsupportedChannelCount
  | badDimension
  | addressRange
  | misaligned
  | bufferOverlap
  | busFault
  | busyReject
  deriving DecidableEq, Repr

/-- The command latch: the command word and the copies taken at acceptance (10_state.md R44). -/
structure Latch where
  word : Word
  ctrl : Ctrl
  arg0 : Word
  arg1 : Word
  arg2 : Word
  frSrc : Word
  frDst : Word
  frPk : Word
  frDim : Word
  frCh : Byte
  deriving DecidableEq, Repr

/-- The DMA memory: (address, byte) pairs, addresses strictly rising, no entry equal to what an unlisted address
reads as (20_memory.md R60). -/
abbrev Memory := List Host.Cell

/-- The progress of a validated FRAME (10_state.md R45). -/
structure Progress where
  /-- The completed pixel indices, strictly rising. -/
  done : List Nat
  /-- Memory as it was when the command was validated: the "old value" of 20_memory.md R74. -/
  before : Memory
  deriving DecidableEq, Repr

/-- A command that was accepted and has not ended. -/
structure Running where
  latch : Latch
  /-- The host wrote a byte of this FRAME's buffers since acceptance (20_memory.md R74). -/
  disturbed : Bool
  /-- Present once a FRAME is validated. -/
  progress : Option Progress
  deriving DecidableEq, Repr

/-- The phase of the engine (10_state.md R44); STATUS.BUSY shows it. -/
inductive Phase where
  | idle
  | busy (r : Running)
  deriving DecidableEq, Repr

/-- A DMA access kind (20_memory.md R70). -/
inductive BusKind where
  | read
  | write
  deriving DecidableEq, Repr

/-- A range of DMA addresses whose accesses of one kind are answered with a bus error (20_memory.md R70). -/
structure BusHole where
  kind : BusKind
  base : Nat
  size : Nat
  deriving DecidableEq, Repr

/-- A range of addresses. -/
structure Region where
  base : Nat
  size : Nat
  deriving DecidableEq, Repr

/-- The OPEN parameters of the platform (00_scope.md R8), as plain data that no step changes. Log 3. -/
structure Platform where
  /-- P_REG_BASE: the host address of the register window (10_state.md R21). -/
  regBase : Nat
  /-- P_BUS: the accesses answered with a bus error (20_memory.md R70). -/
  busHoles : List BusHole
  /-- Memory with read side effects, at which no buffer may point (20_memory.md R67). -/
  devices : List Region
  deriving DecidableEq, Repr

/-- One access of the host. -/
inductive HostAction where
  /-- A read of `width` bytes at a host address (10_state.md R22). -/
  | regRead (addr : Nat) (width : Nat)
  /-- A write of `width` bytes at a host address (10_state.md R22). -/
  | regWrite (addr : Nat) (width : Nat) (value : Word)
  /-- A read that reaches the byte at a DMA address (20_memory.md R60, R73, R74). Log 17. -/
  | memRead (addr : Nat)
  /-- A store that reaches the byte at a DMA address, at the moment the engine can see it (20_memory.md R60, R72).
  Log 17. -/
  | memWrite (addr : Nat) (value : Byte)
  deriving DecidableEq, Repr

/-- What happens next: one item of the interleaving of the agents (30_encoding.md R97). Log 2. -/
inductive Event where
  /-- The engine takes one engine step. -/
  | engine
  /-- The host makes one access. -/
  | host (a : HostAction)
  /-- The host reads STATUS until BUSY reads 0 (30_encoding.md R96, `wait`). -/
  | wait
  /-- The reset input is asserted (70_reset_and_hazards.md R230). -/
  | reset
  deriving DecidableEq, Repr

/-- The state of the machine: every register of 10_state.md, its hidden state, the DMA memory, and the model's own
fields (platform, agenda, hostData, freeCount). -/
structure State where
  /-- CTRL (10_state.md R25). -/
  ctrl : Ctrl
  /-- STATUS.DONE (10_state.md R34). -/
  done : Bool
  /-- STATUS.ERR and STATUS.ERRCODE, set and cleared together (10_state.md R35). -/
  error : Option ErrorCode
  /-- ARG0 (10_state.md R38). -/
  arg0 : Word
  /-- ARG1 (10_state.md R38). -/
  arg1 : Word
  /-- ARG2 (10_state.md R38). -/
  arg2 : Word
  /-- RES0 (10_state.md R39). -/
  res0 : Word
  /-- RES1 (10_state.md R39). -/
  res1 : Word
  /-- RES2 (10_state.md R39). -/
  res2 : Word
  /-- FR_SRC (10_state.md R40). -/
  frSrc : Word
  /-- FR_DST (10_state.md R40). -/
  frDst : Word
  /-- FR_PK (10_state.md R40). -/
  frPk : Word
  /-- FR_DIM (10_state.md R41). -/
  frDim : Word
  /-- FR_CH bits [7:0] (10_state.md R42). -/
  frCh : Byte
  /-- Phase, command latch and FRAME progress (10_state.md R44, R45). -/
  phase : Phase
  /-- The DMA memory (20_memory.md R60). -/
  mem : Memory
  /-- The model's own: the platform's parameters. Log 3. -/
  platform : Platform
  /-- The model's own: the events to come, in order. Log 2. -/
  agenda : List Event
  /-- The model's own: the value the host's last read returned. Log 13. -/
  hostData : Word
  /-- The model's own: the number of free values taken so far. Log 13. -/
  freeCount : Nat
  deriving DecidableEq, Repr

/-- Why the machine stops with a fault. -/
inductive Fault where
  /-- Raised by a host memory access at an address outside the 2^32 bytes of the DMA space: no such byte exists
  (20_memory.md R60). Safe: the model stops. -/
  | outsideDmaSpace
  deriving DecidableEq, Repr

/-- Why the model gives a step no meaning. -/
inductive Refusal where
  /-- Raised by an arm of exec with no meaning yet; no arm of this model raises it. Safe. -/
  | notModelled (mnemonic : String)
  /-- Raised by a host register access that is not a naturally aligned 32-bit one: it "has no meaning in this spec:
  a model refuses it" (10_state.md R22). Safe. -/
  | registerAccess
  /-- Raised by the validation step of a FRAME with a buffer in memory that has read side effects: "a model refuses
  such a FRAME" (20_memory.md R67). Safe. -/
  | deviceBuffer
  deriving DecidableEq, Repr

/-- The machine right after reset (70_reset_and_hazards.md R231), with no memory byte listed (log 1) and the
model's own fields at the values of logs 2, 3 and 13. -/
def State.reset : State where
  ctrl := { mode := .noise, bayerN := .n4, doneIE := false, errIE := false }
  done := false
  error := none
  arg0 := 0#32
  arg1 := 0#32
  arg2 := 0#32
  res0 := 0#32
  res1 := 0#32
  res2 := 0#32
  frSrc := 0#32
  frDst := 0#32
  frPk := 0#32
  frDim := 0#32
  frCh := 0#8
  phase := .idle
  mem := []
  platform := { regBase := 0, busHoles := [], devices := [] }
  agenda := []
  hostData := 0#32
  freeCount := 0

end Sys2Proof.Machine
end

