-- ==== Sys2Proof/Machine/Flags.lean ====
section
/-! DEFINITION. The views and flags of CTRL and STATUS, the error record and the interrupt output
(10_state.md sections 4, 5 and 9; 60_exceptions.md). -/

namespace Sys2Proof.Machine

/-- The number of an error (60_exceptions.md R201). -/
def ErrorCode.code : ErrorCode → BitVec 4
  | .illegalOpcode => 1#4
  | .reservedField => 2#4
  | .operandRange => 3#4
  | .unsupportedChannelCount => 4#4
  | .badDimension => 5#4
  | .addressRange => 6#4
  | .misaligned => 7#4
  | .bufferOverlap => 8#4
  | .busFault => 9#4
  | .busyReject => 10#4

/-- The bit of CTRL.MODE (10_state.md R26). -/
def Mode.bit : Mode → Bool
  | .noise => false
  | .ordered => true

/-- The strategy that a bit of CTRL.MODE selects (10_state.md R26). -/
def Mode.ofBit (b : Bool) : Mode := if b then .ordered else .noise

/-- The 32-bit value of CTRL: the stored fields, the read-only fields, and zeros (10_state.md R25). -/
def Ctrl.word (c : Ctrl) : Word :=
  0#22 ++ BitVec.ofBool c.errIE ++ BitVec.ofBool c.doneIE ++ pFlip565 ++ pFlip4444 ++ 0#1 ++
    BitVec.ofBool pAlphaDither ++ BitVec.ofBool c.bayerN.bit ++ BitVec.ofBool c.mode.bit

/-- What a host write of a word leaves in CTRL: MODE, BAYER_N, DONE_IE and ERR_IE only (10_state.md R25). -/
def Ctrl.ofWord (w : Word) : Ctrl where
  mode := Mode.ofBit (w.getLsbD 0)
  bayerN := MatrixSize.ofBit (w.getLsbD 1)
  doneIE := w.getLsbD 8
  errIE := w.getLsbD 9

/-- STATUS.BUSY (10_state.md R33, R44). -/
def State.busy (s : State) : Bool :=
  match s.phase with
  | .idle => false
  | .busy _ => true

/-- STATUS.ERRCODE (10_state.md R35). -/
def State.errCode (s : State) : BitVec 4 :=
  match s.error with
  | none => 0#4
  | some e => e.code

/-- The 32-bit value of STATUS (10_state.md R36). -/
def State.status (s : State) : Word :=
  0#20 ++ s.errCode ++ 0#5 ++ BitVec.ofBool s.error.isSome ++ BitVec.ofBool s.done ++ BitVec.ofBool s.busy

/-- The interrupt output (10_state.md R43). -/
def State.irq (s : State) : Bool := (s.done && s.ctrl.doneIE) || (s.error.isSome && s.ctrl.errIE)

/-- Recording an error: the first since the last clear is kept (10_state.md R35). -/
def State.recordError (s : State) (e : ErrorCode) : State :=
  { s with error := some (s.error.getD e) }

/-- A host write of STATUS: bit 1 clears DONE, bit 2 clears ERR and ERRCODE (10_state.md R34 to R36). This is the
only way back from an error (60_exceptions.md R214). -/
def State.writeStatus (s : State) (w : Word) : State :=
  { s with
    done := s.done && !w.getLsbD 1
    error := if w.getLsbD 2 then none else s.error }

end Sys2Proof.Machine
end

