-- ==== Sys2Proof/Machine/Ops.lean ====
section
/-! DEFINITION. The shared operations: memory, bus, acceptance of a command, its end with results or with an error,
and the template of the single-step commands. -/

namespace Sys2Proof.Machine

/-! ### Memory -/

/-- What a byte that the memory does not list reads as. Log 1. -/
def Memory.unlisted (_addr : Nat) : Byte := 0#8

/-- One byte of memory (20_memory.md R60). -/
def Memory.read : Memory → Nat → Byte
  | [], a => Memory.unlisted a
  | (b, v) :: rest, a => if a = b then v else Memory.read rest a

/-- A write of one byte, which keeps the canonical form (20_memory.md R67: it changes only that byte). -/
def Memory.write : Memory → Nat → Byte → Memory
  | [], a, v => if v = Memory.unlisted a then [] else [(a, v)]
  | (b, u) :: rest, a, v =>
    if a < b then if v = Memory.unlisted a then (b, u) :: rest else (a, v) :: (b, u) :: rest
    else if a = b then if v = Memory.unlisted a then rest else (a, v) :: rest
    else (b, u) :: Memory.write rest a v

/-- Writes of a list of bytes, in order. -/
def Memory.writeCells (m : Memory) (cells : List Host.Cell) : Memory :=
  cells.foldl (fun acc c => Memory.write acc c.1 c.2) m

/-- The canonical form: addresses strictly rising, and no entry equal to what an unlisted address reads as. -/
abbrev Memory.wf (m : Memory) : Prop :=
  m.Pairwise (fun c d => c.1 < d.1) ∧ ∀ c ∈ m, c.2 ≠ Memory.unlisted c.1

/-- Every listed address lies in the DMA space (20_memory.md R60). -/
abbrev Memory.inSpace (m : Memory) : Prop := ∀ c ∈ m, c.1 < dmaSize

/-- Each byte of a list written or left as it was, as the free value of its place in the list decides
(60_exceptions.md R210; 70_reset_and_hazards.md R232). Log 6. -/
def Memory.writeSome (m : Memory) (count : Nat) : List Host.Cell → Memory
  | [] => m
  | c :: rest =>
    Memory.writeSome (if Config.freeBit count then Memory.write m c.1 c.2 else m) (count + 1) rest

/-- A free value written at each address of a list (20_memory.md R74). Log 7. -/
def Memory.writeFree (m : Memory) (count : Nat) : List Nat → Memory
  | [] => m
  | a :: rest => Memory.writeFree (Memory.write m a (Config.freeByte count)) (count + 1) rest

/-- The platform performs a DMA byte access: no bus hole covers it (20_memory.md R70). Log 3. -/
def Platform.busOk (p : Platform) (kind : BusKind) (a : Nat) : Bool :=
  !p.busHoles.any (fun h => h.kind == kind && decide (h.base ≤ a) && decide (a < h.base + h.size))

/-! ### The life of a command -/

/-- The latch that acceptance captures (10_state.md R37, R44). -/
def State.capture (s : State) (w : Word) : Latch where
  word := w
  ctrl := s.ctrl
  arg0 := s.arg0
  arg1 := s.arg1
  arg2 := s.arg2
  frSrc := s.frSrc
  frDst := s.frDst
  frPk := s.frPk
  frDim := s.frDim
  frCh := s.frCh

/-- Acceptance of a command word: the latch captured, BUSY set, DONE cleared (10_state.md R37). -/
def State.accept (s : State) (w : Word) : State :=
  { s with phase := .busy { latch := s.capture w, disturbed := false, progress := none }, done := false }

/-- The result registers that a command writes. -/
structure Results where
  res0 : Option Word
  res1 : Option Word
  res2 : Option Word
  deriving DecidableEq, Repr

/-- No result register. -/
def Results.none : Results := { res0 := .none, res1 := .none, res2 := .none }

/-- RES0 only. -/
def Results.one (a : Word) : Results := { res0 := some a, res1 := .none, res2 := .none }

/-- RES0 and RES1. -/
def Results.two (a b : Word) : Results := { res0 := some a, res1 := some b, res2 := .none }

/-- RES0, RES1 and RES2. -/
def Results.three (a b c : Word) : Results := { res0 := some a, res1 := some b, res2 := some c }

/-- The successful end of a command: the named result registers written together, BUSY 0, DONE 1
(30_encoding.md R98). -/
def State.endOk (s : State) (r : Results) : State :=
  { s with
    res0 := r.res0.getD s.res0
    res1 := r.res1.getD s.res1
    res2 := r.res2.getD s.res2
    phase := .idle
    done := true }

/-- The end of a command with an error, the one exception entry of the engine: the error recorded, BUSY 0, DONE as
acceptance left it, the latch and any progress discarded (60_exceptions.md R200). -/
def State.endError (s : State) (e : ErrorCode) : State :=
  { s.recordError e with phase := .idle }

/-- The error that a rejected command word ends with (30_encoding.md R87). -/
def decodeErrorCode : DecodeError → ErrorCode
  | .illegalOpcode => .illegalOpcode
  | .reservedField => .reservedField

/-- What the engine finds when it is its turn. -/
inductive Fetched where
  /-- It is IDLE: nothing to do (60_exceptions.md R222). -/
  | idle
  /-- The latched word is rejected (30_encoding.md R87). -/
  | reject (e : DecodeError)
  /-- The latched word is a command. -/
  | instr (i : Instr)
  deriving DecidableEq, Repr

/-- The command of the latch, decoded (30_encoding.md R97). -/
def State.fetch (s : State) : Fetched :=
  match s.phase with
  | .idle => .idle
  | .busy r =>
    match decode r.latch.word with
    | .reject e => .reject e
    | .instr i => .instr i

/-- The one engine step of every command but FRAME: from the latch, either an error or the results
(30_encoding.md R97, R99). An IDLE engine has no command to run and changes nothing (60_exceptions.md R222;
log 11). -/
def runCommand (s : State) (f : Latch → Except ErrorCode Results) : Host.Outcome State Fault Refusal :=
  match s.phase with
  | .idle => .next s
  | .busy r =>
    match f r.latch with
    | .error e => .next (s.endError e)
    | .ok res => .next (s.endOk res)

/-- A check of an operand: OPERAND_RANGE unless it holds (60_exceptions.md R204). -/
def checked (valid : Bool) (res : Results) : Except ErrorCode Results :=
  if valid then .ok res else .error .operandRange

end Sys2Proof.Machine
end

