-- ==== Sys2Proof/Machine/CodecCommands.lean ====
section
/-! DEFINITION. The commands PACK565, UNPACK565, PACK4444, UNPACK4444 and EXPAND (42_codec.md). -/

namespace Sys2Proof.Machine

/-- The 16-bit word of a 16-bit word operand (30_encoding.md R92). -/
def halfOf (w : Word) : Half := w.extractLsb' 0 16

/-- PACK565 (42_codec.md R141). -/
def execPack565 (s : State) : Host.Outcome State Fault Refusal :=
  runCommand s fun l => .ok (Results.one (packedWord (pack565 (pixelOf l.arg0))))

/-- UNPACK565 (42_codec.md R143). -/
def execUnpack565 (s : State) : Host.Outcome State Fault Refusal :=
  runCommand s fun l =>
    checked (word16Valid l.arg0) (Results.one (pixelWord (unpack565 (halfOf l.arg0))))

/-- PACK4444 (42_codec.md R145). -/
def execPack4444 (s : State) : Host.Outcome State Fault Refusal :=
  runCommand s fun l => .ok (Results.one (packedWord (pack4444 (pixelOf l.arg0))))

/-- UNPACK4444 (42_codec.md R147). -/
def execUnpack4444 (s : State) : Host.Outcome State Fault Refusal :=
  runCommand s fun l =>
    checked (word16Valid l.arg0) (Results.one (pixelWord (unpack4444 (halfOf l.arg0))))

/-- EXPAND (42_codec.md R149). -/
def execExpand (s : State) : Host.Outcome State Fault Refusal :=
  runCommand s fun l =>
    checked (rgb888Valid l.arg0)
      (Results.one (pixelWord
        (expandPixel (pixelOf l.arg0).r (pixelOf l.arg0).g (pixelOf l.arg0).b)))

end Sys2Proof.Machine
end

