-- ==== Sys2Proof/Machine/Float.lean ====
section
/-! DEFINITION. Binary32 arithmetic (00_scope.md R9), rounding to an integer (R10) and the primitives of R13.

A finite pattern is the integer `F32.scaled` in units of 2^-149, the least positive binary32; every operation
computes its exact result in such units and rounds it once. -/

namespace Sys2Proof.Machine

/-- The sign bit. -/
def F32.sign (f : F32) : Bool := f.getLsbD 31

/-- The exponent field, bits [30:23]. -/
def F32.expField (f : F32) : Nat := (f.extractLsb' 23 8).toNat

/-- The fraction field, bits [22:0]. -/
def F32.fracField (f : F32) : Nat := (f.extractLsb' 0 23).toNat

/-- The pattern is a number: neither an infinity nor a NaN. -/
def F32.isFinite (f : F32) : Bool := F32.expField f != 255

/-- The magnitude of a finite pattern in units of 2^-149 (IEEE 754 binary32: subnormal when the exponent field is
0, a leading one otherwise). -/
def F32.magnitude (f : F32) : Nat :=
  if F32.expField f = 0 then F32.fracField f
  else (2 ^ 23 + F32.fracField f) * 2 ^ (F32.expField f - 1)

/-- The value of a finite pattern in units of 2^-149. -/
def F32.scaled (f : F32) : Int :=
  if F32.sign f then - (F32.magnitude f : Int) else (F32.magnitude f : Int)

/-- The number 1 in units of 2^-149. -/
def F32.unit : Nat := 2 ^ 149

/-- The quotient num / den rounded to the nearest integer, ties to even; den is positive. -/
def roundEven (num den : Nat) : Nat :=
  let q := num / den
  let r := num % den
  if 2 * r < den then q
  else if den < 2 * r then q + 1
  else q + q % 2

/-- The pattern of a sign and a magnitude field (exponent and fraction, bits [30:0]); a magnitude past the largest
finite one is infinity (IEEE 754 overflow under round to nearest). -/
def F32.pack (neg : Bool) (mag : Nat) : F32 :=
  BitVec.ofBool neg ++ BitVec.ofNat 31 (min mag 0x7F800000)

/-- The binary32 nearest to ±(num / den) units of 2^-149, ties to even (00_scope.md R9). With e the exponent that
leaves 24 significant bits, the magnitude field is e * 2^23 plus the rounded significand: a carry out of the
significand moves the exponent by one. -/
def F32.ofRatio (neg : Bool) (num den : Nat) : F32 :=
  let e := Nat.log2 (num / den) - 23
  F32.pack neg (e * 2 ^ 23 + roundEven num (den * 2 ^ e))

/-- The sign of a zero sum: negative only when both operands are negative (IEEE 754, round to nearest). -/
def F32.zeroSum (a b : F32) : F32 := F32.pack (F32.sign a && F32.sign b) 0

/-- `fadd` (00_scope.md R9). Log 12 for operands that are not finite. -/
def fadd (a b : F32) : F32 :=
  if F32.isFinite a && F32.isFinite b then
    let s := F32.scaled a + F32.scaled b
    if s = 0 then F32.zeroSum a b else F32.ofRatio (decide (s < 0)) s.natAbs 1
  else Config.nonFiniteResult a b

/-- Negation: the sign bit flipped. -/
def fneg (a : F32) : F32 := a ^^^ 0x80000000#32

/-- `fsub` (00_scope.md R9). -/
def fsub (a b : F32) : F32 := fadd a (fneg b)

/-- `fmul` (00_scope.md R9). -/
def fmul (a b : F32) : F32 :=
  if F32.isFinite a && F32.isFinite b then
    F32.ofRatio (F32.sign a != F32.sign b) (F32.magnitude a * F32.magnitude b) F32.unit
  else Config.nonFiniteResult a b

/-- `fdiv` (00_scope.md R9). -/
def fdiv (a b : F32) : F32 :=
  if F32.isFinite a && F32.isFinite b && F32.magnitude b != 0 then
    F32.ofRatio (F32.sign a != F32.sign b) (F32.magnitude a * F32.unit) (F32.magnitude b)
  else Config.nonFiniteResult a b

/-- `f32(i)`: the binary32 of a natural number (00_scope.md R13; exact below 2^24). -/
def f32 (i : Nat) : F32 := F32.ofRatio false (i * F32.unit) 1

/-- The constant 0.5. -/
def f32Half : F32 := 0x3F000000#32

/-- `trunc(v)`: the integer part of v, rounded toward zero (00_scope.md R13). -/
def ftrunc (v : F32) : F32 :=
  if F32.isFinite v then
    F32.ofRatio (F32.sign v) (F32.magnitude v / F32.unit * F32.unit) 1
  else Config.nonFiniteResult v v

/-- `frac(v) = v - trunc(v)` (00_scope.md R13). -/
def ffrac (v : F32) : F32 := fsub v (ftrunc v)

/-- `clamp` on binary32 values (00_scope.md R13). -/
def fclamp (v lo hi : F32) : F32 :=
  if F32.isFinite v then
    if F32.scaled v < F32.scaled lo then lo
    else if F32.scaled hi < F32.scaled v then hi
    else v
  else Config.nonFiniteResult lo hi

/-- `roundTie(u)` (00_scope.md R10). -/
def roundTie (tie : TieRule) (u : F32) : Int :=
  if F32.isFinite u then
    let f := F32.scaled u / (F32.unit : Int)
    let d := F32.scaled u - f * (F32.unit : Int)
    if (F32.unit : Int) < 2 * d then f + 1
    else if 2 * d < (F32.unit : Int) then f
    else
      match tie with
      | .away => if 0 < F32.scaled u then f + 1 else f
      | .even => if f % 2 = 0 then f else f + 1
  else Config.nonFiniteRound u

/-- `clamp` on integers (00_scope.md R11, R13). -/
def iclamp (v lo hi : Int) : Int := if v < lo then lo else if hi < v then hi else v

/-- An integer clamped to 0..255, as a channel value (00_scope.md R11: it saturates and never wraps). -/
def saturate (v : Int) : Byte := BitVec.ofInt 8 (iclamp v 0 255)

/-- `sext_32(b)` of an integer (00_scope.md R12). -/
def sext32 (b : Int) : Word := BitVec.ofInt 32 b

end Sys2Proof.Machine
end

