-- ==== Sys2Proof/Machine/Lookup.lean ====
section
/-! DEFINITION. NoiseField and BayerMap (40_lookup.md). -/

namespace Sys2Proof.Machine

/-- The number n of a matrix size (30_encoding.md R85). -/
def matrixN : MatrixSize → Nat
  | .n4 => 4
  | .n8 => 8

/-- The table of a matrix size (40_lookup.md R102). -/
def bayerTable : MatrixSize → List Nat
  | .n4 => bayer4
  | .n8 => bayer8

/-- The argument of NoiseField's first `frac`: x*C0 + y*C1, each product rounded (40_lookup.md R100). -/
def noiseSum (x y : Nat) : F32 := fadd (fmul (f32 x) noiseC0) (fmul (f32 y) noiseC1)

/-- The interleaved gradient noise of (x, y), for 0 ≤ x, y < 2^20 (40_lookup.md R100). -/
def noiseField (x y : Nat) : F32 := ffrac (fmul noiseC2 (ffrac (noiseSum x y)))

/-- The rank of (x, y) in a matrix (40_lookup.md R102). -/
def bayerRank (m : MatrixSize) (x y : Nat) : Nat :=
  (bayerTable m).getD ((y % matrixN m) * matrixN m + x % matrixN m) 0

/-- The threshold of a rank: k / n² - 0.5 (40_lookup.md R102). -/
def rankThreshold (m : MatrixSize) (k : Nat) : F32 :=
  fsub (fdiv (f32 k) (f32 (matrixN m * matrixN m))) f32Half

/-- The threshold of (x, y) (40_lookup.md R102). -/
def threshold (m : MatrixSize) (x y : Nat) : F32 := rankThreshold m (bayerRank m x y)

end Sys2Proof.Machine
end

