-- ==== Sys2Proof/Machine/Quantizer.lean ====
section
/-! DEFINITION. The quantizer's two variants (41_quantizer.md). -/

namespace Sys2Proof.Machine

/-- The quantization step of a STEP code; 3 is reserved (30_encoding.md R84; 41_quantizer.md R120). -/
def stepOfCode (code : BitVec 2) : Option Nat :=
  match code.toNat with
  | 0 => some 16
  | 1 => some 8
  | 2 => some 4
  | _ => none

/-- The value to be rounded: m * step - step/2, with m the noise or 1 - noise (41_quantizer.md R121). -/
def qnoiseU (noise : F32) (step : Nat) (flip : Bool) : F32 :=
  let m := if flip then fsub (f32 1) noise else noise
  fsub (fmul m (f32 step)) (f32 (step / 2))

/-- The integer bias of the noise-dither variant (41_quantizer.md R121). -/
def qnoiseBias (tie : TieRule) (noise : F32) (step : Nat) (flip : Bool) : Int :=
  roundTie tie (qnoiseU noise step flip)

/-- The noise-dither variant: the channel value plus the bias, saturated (41_quantizer.md R121). -/
def qnoise (tie : TieRule) (v : Byte) (noise : F32) (step : Nat) (flip : Bool) : Byte :=
  saturate ((v.toNat : Int) + qnoiseBias tie noise step flip)

/-- The clamped sum of the ordered-dither variant, before rounding (41_quantizer.md R123). -/
def qordClamped (v : Byte) (t : F32) (m : MatrixSize) : F32 :=
  let sc := fdiv (f32 255) (f32 (matrixN m))
  let d := fmul t sc
  let s := fadd (f32 v.toNat) d
  fclamp s (f32 0) (f32 255)

/-- The ordered-dither variant, as an integer (41_quantizer.md R123). -/
def qordInt (tie : TieRule) (v : Byte) (t : F32) (m : MatrixSize) : Int :=
  roundTie tie (qordClamped v t m)

/-- The ordered-dither variant, as a channel value (41_quantizer.md R123). -/
def qord (tie : TieRule) (v : Byte) (t : F32) (m : MatrixSize) : Byte :=
  BitVec.ofInt 8 (qordInt tie v t m)

end Sys2Proof.Machine
end

