-- ==== Sys2Proof/Machine/Pipeline.lean ====
section
/-! DEFINITION. DitherPipeline: the per-pixel transform of both paths (43_pipeline.md R160 to R162). -/

namespace Sys2Proof.Machine

/-- What the per-pixel transform reads of the latched CTRL value (43_pipeline.md R160). -/
structure DitherCfg where
  mode : Mode
  bayerN : MatrixSize
  alphaDither : Bool
  flip4444 : BitVec 2
  flip565 : BitVec 2
  deriving DecidableEq, Repr

/-- The settings of a CTRL value, its read-only fields at their parameters (10_state.md R28 to R30). -/
def Ctrl.cfg (c : Ctrl) : DitherCfg where
  mode := c.mode
  bayerN := c.bayerN
  alphaDither := pAlphaDither
  flip4444 := pFlip4444
  flip565 := pFlip565

/-- The dither of one channel value: channel `c` with its step, flipped in the noise path when it is the flip channel
(43_pipeline.md R160). The noise sample and the threshold are those of (x, y): one serves every channel of a pixel
(R161). -/
def ditherChannel (tie : TieRule) (cfg : DitherCfg) (x y : Nat) (flip : BitVec 2) (step : Nat) (c : BitVec 2)
    (v : Byte) : Byte :=
  match cfg.mode with
  | .noise => qnoise tie v (noiseField x y) step (c == flip)
  | .ordered => qord tie v (threshold cfg.bayerN x y) cfg.bayerN

/-- `dither4444` (43_pipeline.md R161). -/
def dither4444 (tie : TieRule) (cfg : DitherCfg) (p : Pixel) (x y : Nat) : Pixel where
  r := ditherChannel tie cfg x y cfg.flip4444 16 0#2 p.r
  g := ditherChannel tie cfg x y cfg.flip4444 16 1#2 p.g
  b := ditherChannel tie cfg x y cfg.flip4444 16 2#2 p.b
  a := if cfg.alphaDither then ditherChannel tie cfg x y cfg.flip4444 16 3#2 p.a else p.a

/-- `dither565` (43_pipeline.md R162). -/
def dither565 (tie : TieRule) (cfg : DitherCfg) (p : Pixel) (x y : Nat) : Pixel where
  r := ditherChannel tie cfg x y cfg.flip565 8 0#2 p.r
  g := ditherChannel tie cfg x y cfg.flip565 4 1#2 p.g
  b := ditherChannel tie cfg x y cfg.flip565 8 2#2 p.b
  a := p.a

/-- The results of one pixel: dithered, packed, and unpacked again (43_pipeline.md R163). -/
structure PixelResult where
  dithered : Pixel
  packed : Half
  preview : Pixel
  deriving DecidableEq, Repr

/-- The RGBA4444 path: dither, pack, unpack (43_pipeline.md R163). -/
def path4444 (tie : TieRule) (cfg : DitherCfg) (p : Pixel) (x y : Nat) : PixelResult :=
  let q := dither4444 tie cfg p x y
  { dithered := q, packed := pack4444 q, preview := unpack4444 (pack4444 q) }

/-- The RGB565 path: dither, pack, unpack (43_pipeline.md R164). -/
def path565 (tie : TieRule) (cfg : DitherCfg) (p : Pixel) (x y : Nat) : PixelResult :=
  let q := dither565 tie cfg p x y
  { dithered := q, packed := pack565 q, preview := unpack565 (pack565 q) }

end Sys2Proof.Machine
end

