-- ==== Sys2Proof/Machine/Frame.lean ====
section
/-! DEFINITION. The command FRAME (43_pipeline.md R165 to R169): its validation, its pixel steps, its end, and what
becomes of its output buffers when it is cut short. -/

namespace Sys2Proof.Machine

/-- The path that a channel count picks (43_pipeline.md R168). -/
inductive FramePath where
  /-- 4 channels: RGBA4444. -/
  | rgba4444
  /-- 3 channels: expansion, then RGB565. -/
  | rgb565
  deriving DecidableEq, Repr

/-- A validated frame: the path, W and H, the three buffers and the settings (43_pipeline.md R165). -/
structure Job where
  path : FramePath
  width : Nat
  height : Nat
  src : Nat
  dst : Nat
  pk : Nat
  cfg : DitherCfg
  deriving DecidableEq, Repr

/-- CH, the bytes of one input pixel (20_memory.md R62). -/
def FramePath.channels : FramePath → Nat
  | .rgba4444 => 4
  | .rgb565 => 3

/-- N = W * H, the number of pixels (43_pipeline.md R165). -/
def Job.count (j : Job) : Nat := j.width * j.height

/-- The input buffer (20_memory.md R62). -/
def Job.srcRegion (j : Job) : Region := { base := j.src, size := j.path.channels * j.count }

/-- The preview output buffer (20_memory.md R63). -/
def Job.dstRegion (j : Job) : Region := { base := j.dst, size := 4 * j.count }

/-- The packed output buffer (20_memory.md R64). -/
def Job.pkRegion (j : Job) : Region := { base := j.pk, size := 2 * j.count }

/-- The three buffers of a frame. -/
def Job.regions (j : Job) : List Region := [j.srcRegion, j.dstRegion, j.pkRegion]

/-- An address lies in a region. -/
def Region.has (g : Region) (a : Nat) : Bool := decide (g.base ≤ a) && decide (a < g.base + g.size)

/-- Two regions share at least one byte (60_exceptions.md R209). -/
def Region.meets (g h : Region) : Bool :=
  decide (0 < g.size) && decide (0 < h.size) &&
    decide (g.base < h.base + h.size) && decide (h.base < g.base + g.size)

/-- A region runs past the last DMA address (60_exceptions.md R207). -/
def Region.tooFar (g : Region) : Bool := decide (dmaSize < g.base + g.size)

/-- The path of a channel count; none but 3 and 4 (60_exceptions.md R205). -/
def framePath (ch : Byte) : Option FramePath :=
  if ch = 3#8 then some .rgb565 else if ch = 4#8 then some .rgba4444 else none

/-- The frame that the latched registers describe on a path (10_state.md R40, R41). -/
def frameJobOf (l : Latch) (path : FramePath) : Job where
  path := path
  width := (l.frDim.extractLsb' 0 16).toNat
  height := (l.frDim.extractLsb' 16 16).toNat
  src := l.frSrc.toNat
  dst := l.frDst.toNat
  pk := l.frPk.toNat
  cfg := l.ctrl.cfg

/-- The validation of FRAME: its checks in order, and the frame they pass (43_pipeline.md R165). -/
def frameJob (l : Latch) : Except ErrorCode Job :=
  match framePath l.frCh with
  | none => .error .unsupportedChannelCount
  | some path =>
    let j := frameJobOf l path
    if j.width = 0 || j.height = 0 then .error .badDimension
    else if j.regions.any Region.tooFar then .error .addressRange
    else if l.frPk.getLsbD 0 then .error .misaligned
    else if j.srcRegion.meets j.dstRegion || j.srcRegion.meets j.pkRegion || j.dstRegion.meets j.pkRegion then
      .error .bufferOverlap
    else .ok j

/-- A buffer points at memory with read side effects (20_memory.md R67). Log 10. -/
def Job.touchesDevice (j : Job) (p : Platform) : Bool :=
  j.regions.any (fun g => p.devices.any (fun d => g.meets d))

/-! ### One pixel -/

/-- The address of channel c of input pixel i (20_memory.md R62). -/
def Job.inputAddr (j : Job) (i c : Nat) : Nat := j.src + j.path.channels * i + c

/-- The input pixel i, expanded when it has 3 channels (43_pipeline.md R166). -/
def Job.input (j : Job) (m : Memory) (i : Nat) : Pixel :=
  let ch := fun c => m.read (j.inputAddr i c)
  match j.path with
  | .rgba4444 => { r := ch 0, g := ch 1, b := ch 2, a := ch 3 }
  | .rgb565 => expandPixel (ch 0) (ch 1) (ch 2)

/-- The results of pixel i, at x = i mod W and y = i div W (43_pipeline.md R166). -/
def Job.result (j : Job) (m : Memory) (i : Nat) : PixelResult :=
  match j.path with
  | .rgba4444 => path4444 pRoundTie j.cfg (j.input m i) (i % j.width) (i / j.width)
  | .rgb565 => path565 pRoundTie j.cfg (j.input m i) (i % j.width) (i / j.width)

/-- The six output bytes of pixel i: the packed word, little-endian, and the preview R, G, B, A
(43_pipeline.md R166; 20_memory.md R61, R63, R64). -/
def Job.cells (j : Job) (m : Memory) (i : Nat) : List Host.Cell :=
  let r := j.result m i
  [ (j.pk + 2 * i, r.packed.extractLsb' 0 8), (j.pk + 2 * i + 1, r.packed.extractLsb' 8 8),
    (j.dst + 4 * i, r.preview.r), (j.dst + 4 * i + 1, r.preview.g),
    (j.dst + 4 * i + 2, r.preview.b), (j.dst + 4 * i + 3, r.preview.a) ]

/-- The addresses of the output bytes of pixel i (20_memory.md R63, R64). -/
def Job.outAddrs (j : Job) (i : Nat) : List Nat :=
  [ j.pk + 2 * i, j.pk + 2 * i + 1, j.dst + 4 * i, j.dst + 4 * i + 1, j.dst + 4 * i + 2, j.dst + 4 * i + 3 ]

/-- Every read of pixel i is performed (20_memory.md R70). -/
def Job.readsOk (j : Job) (p : Platform) (i : Nat) : Bool :=
  (List.range j.path.channels).all (fun c => p.busOk .read (j.inputAddr i c))

/-- Every write of pixel i is performed (20_memory.md R70). -/
def Job.writesOk (j : Job) (p : Platform) (i : Nat) : Bool :=
  (j.outAddrs i).all (fun a => p.busOk .write a)

/-! ### The order of the pixels -/

/-- The k-th natural number, from `base` on, that a strictly rising list does not hold. -/
def nthFree (base : Nat) : List Nat → Nat → Nat
  | [], k => base + k
  | x :: xs, k => if k < x - base then base + k else nthFree (x + 1) xs (k - (x - base))

/-- An index added to the strictly rising list of completed pixels. -/
def insertIndex (i : Nat) : List Nat → List Nat
  | [] => [i]
  | x :: xs => if i < x then i :: x :: xs else if i = x then x :: xs else x :: insertIndex i xs

/-- The index that a pixel step takes: any of those not completed, chosen by a free value
(43_pipeline.md R166; 20_memory.md R71). Log 5. -/
def Job.pick (j : Job) (done : List Nat) (count : Nat) : Nat :=
  nthFree 0 done (Config.freePick count % (j.count - done.length))

/-! ### A frame cut short or disturbed -/

/-- The output bytes that may be new although their pixel is not completed: those of pixels whose reads are all
performed, at addresses whose write is performed (60_exceptions.md R210). Log 6. -/
def Job.pendingCells (j : Job) (p : Platform) (m : Memory) (done : List Nat) : List Host.Cell :=
  ((List.range j.count).filter (fun i => !done.contains i && j.readsOk p i)).flatMap
    (fun i => (j.cells m i).filter (fun c => p.busOk .write c.1))

/-- Every output byte becomes a free value (20_memory.md R74). Log 7. -/
def Job.scramble (j : Job) (s : State) : State :=
  let addrs := (List.range j.count).flatMap j.outAddrs
  { s with mem := s.mem.writeFree s.freeCount addrs, freeCount := s.freeCount + addrs.length }

/-- The memory of a FRAME that stops before it is complete, by a bus error or by a reset: each byte of its output
buffers old or new (60_exceptions.md R210; 70_reset_and_hazards.md R232), or any value when the host disturbed the
buffers (20_memory.md R74). Logs 6 and 7. -/
def Job.abandon (j : Job) (disturbed : Bool) (done : List Nat) (s : State) : State :=
  if disturbed then j.scramble s
  else
    let cells := j.pendingCells s.platform s.mem done
    { s with mem := s.mem.writeSome s.freeCount cells, freeCount := s.freeCount + cells.length }

/-! ### The engine steps -/

/-- The validation step: the FRAME's progress starts empty (43_pipeline.md R165). -/
def frameValidate (j : Job) (r : Running) (s : State) : Host.Outcome State Fault Refusal :=
  if j.touchesDevice s.platform then .refused .deviceBuffer
  else .next { s with phase := .busy { r with progress := some { done := [], before := s.mem } } }

/-- The pixel step of index i: all its accesses, or BUS_FAULT (43_pipeline.md R166). -/
def framePixel (j : Job) (r : Running) (p : Progress) (i : Nat) (s : State) : State :=
  if j.readsOk s.platform i && j.writesOk s.platform i then
    { s with
      mem := s.mem.writeCells (j.cells s.mem i)
      phase := .busy { r with progress := some { p with done := insertIndex i p.done } } }
  else (j.abandon r.disturbed p.done s).endError .busFault

/-- The completion step (43_pipeline.md R167; 20_memory.md R74 when the host disturbed the buffers). -/
def frameComplete (j : Job) (r : Running) (s : State) : State :=
  (if r.disturbed then j.scramble s else s).endOk Results.none

/-- FRAME: one engine step, which its progress selects (30_encoding.md R97; 43_pipeline.md R165 to R167). -/
def execFrame (s : State) : Host.Outcome State Fault Refusal :=
  match s.phase with
  | .idle => .next s
  | .busy r =>
    match frameJob r.latch with
    | .error e => .next (s.endError e)
    | .ok j =>
      match r.progress with
      | none => frameValidate j r s
      | some p =>
        if p.done.length < j.count then
          .next (framePixel j r p (j.pick p.done s.freeCount) { s with freeCount := s.freeCount + 1 })
        else .next (frameComplete j r s)

/-- The frame of a running command, when it is a FRAME whose registers pass validation. -/
def Running.frame (r : Running) : Option Job :=
  match decode r.latch.word with
  | .instr .frame =>
    match frameJob r.latch with
    | .ok j => some j
    | .error _ => none
  | _ => none

end Sys2Proof.Machine
end

