-- ==== Sys2Proof/Machine/LookupCommands.lean ====
section
/-! DEFINITION. The commands NOISE and BAYER (40_lookup.md). -/

namespace Sys2Proof.Machine

/-- NOISE (40_lookup.md R101). -/
def execNoise (s : State) : Host.Outcome State Fault Refusal :=
  runCommand s fun l =>
    checked (coordValid l.arg0 && coordValid l.arg1)
      (Results.one (noiseField l.arg0.toNat l.arg1.toNat))

/-- BAYER (40_lookup.md R103). -/
def execBayer (nsel : MatrixSize) (s : State) : Host.Outcome State Fault Refusal :=
  runCommand s fun l =>
    checked (coordValid l.arg0 && coordValid l.arg1)
      (Results.two (threshold nsel l.arg0.toNat l.arg1.toNat)
        (BitVec.ofNat 32 (bayerRank nsel l.arg0.toNat l.arg1.toNat)))

end Sys2Proof.Machine
end

