-- ==== Sys2Proof/Machine/PixelCommands.lean ====
section
/-! DEFINITION. The commands NOP, DPIX4444 and DPIX565 (43_pipeline.md). -/

namespace Sys2Proof.Machine

/-- NOP: it does nothing but complete (43_pipeline.md R170). -/
def execNop (s : State) : Host.Outcome State Fault Refusal :=
  runCommand s fun _ => .ok Results.none

/-- The three results of a single-pixel pipeline command (43_pipeline.md R163, R164). -/
def pixelResults (p : PixelResult) : Results :=
  Results.three (pixelWord p.dithered) (packedWord p.packed) (pixelWord p.preview)

/-- DPIX4444 (43_pipeline.md R163). -/
def execDpix4444 (s : State) : Host.Outcome State Fault Refusal :=
  runCommand s fun l =>
    checked (coordValid l.arg1 && coordValid l.arg2)
      (pixelResults (path4444 pRoundTie l.ctrl.cfg (pixelOf l.arg0) l.arg1.toNat l.arg2.toNat))

/-- DPIX565 (43_pipeline.md R164). -/
def execDpix565 (s : State) : Host.Outcome State Fault Refusal :=
  runCommand s fun l =>
    checked (coordValid l.arg1 && coordValid l.arg2)
      (pixelResults (path565 pRoundTie l.ctrl.cfg (pixelOf l.arg0) l.arg1.toNat l.arg2.toNat))

end Sys2Proof.Machine
end

