-- ==== Sys2Proof/Machine/QuantizerCommands.lean ====
section
/-! DEFINITION. The commands QNOISE and QORD (41_quantizer.md). -/

namespace Sys2Proof.Machine

/-- The channel value of a channel-value operand (30_encoding.md R92). -/
def channelOf (w : Word) : Byte := w.extractLsb' 0 8

/-- QNOISE (41_quantizer.md R122). The reserved STEP code, which decode refuses, ends with RESERVED_FIELD
(30_encoding.md R84; log 11). -/
def execQnoise (flip : Bool) (step : BitVec 2) (s : State) : Host.Outcome State Fault Refusal :=
  runCommand s fun l =>
    match stepOfCode step with
    | none => .error .reservedField
    | some n =>
      checked (channelValid l.arg0 && noiseValid l.arg1)
        (Results.two ((qnoise pRoundTie (channelOf l.arg0) l.arg1 n flip).setWidth 32)
          (sext32 (qnoiseBias pRoundTie l.arg1 n flip)))

/-- QORD (41_quantizer.md R124). -/
def execQord (nsel : MatrixSize) (s : State) : Host.Outcome State Fault Refusal :=
  runCommand s fun l =>
    checked (channelValid l.arg0 && thresholdValid l.arg1)
      (Results.one ((qord pRoundTie (channelOf l.arg0) l.arg1 nsel).setWidth 32))

end Sys2Proof.Machine
end

