-- ==== Sys2Proof/Machine/Dispatch.lean ====
section
/-! DEFINITION. The meaning of every command: one arm per constructor. -/

namespace Sys2Proof.Machine

/-- One engine step of a decoded command (30_encoding.md R97). -/
def exec (i : Instr) (s : State) : Host.Outcome State Fault Refusal :=
  match i with
  | .nop => Sys2Proof.Machine.execNop s
  | .noise => Sys2Proof.Machine.execNoise s
  | .bayer nsel => Sys2Proof.Machine.execBayer nsel s
  | .qnoise flip step => Sys2Proof.Machine.execQnoise flip step s
  | .qord nsel => Sys2Proof.Machine.execQord nsel s
  | .pack565 => Sys2Proof.Machine.execPack565 s
  | .unpack565 => Sys2Proof.Machine.execUnpack565 s
  | .pack4444 => Sys2Proof.Machine.execPack4444 s
  | .unpack4444 => Sys2Proof.Machine.execUnpack4444 s
  | .expand => Sys2Proof.Machine.execExpand s
  | .dpix4444 => Sys2Proof.Machine.execDpix4444 s
  | .dpix565 => Sys2Proof.Machine.execDpix565 s
  | .frame => Sys2Proof.Machine.execFrame s

end Sys2Proof.Machine
end

