-- ==== Sys2Proof/Machine/Host.lean ====
section
/-! DEFINITION. The host's side: the register window, the host's memory accesses, the reset input, whose turn it is,
and host programs (10_state.md; 20_memory.md R72 to R74; 70_reset_and_hazards.md R230 to R232; 30_encoding.md R96). -/

namespace Sys2Proof.Machine

/-! ### The register window -/

/-- The value a read of an offset returns; a read has no side effect (10_state.md R21 to R23). -/
def State.readReg (s : State) (offset : Nat) : Word :=
  match offset with
  | 0x000 => pId
  | 0x004 => s.ctrl.word
  | 0x008 => s.status
  | 0x00C => 0#32
  | 0x010 => s.arg0
  | 0x014 => s.arg1
  | 0x018 => s.arg2
  | 0x020 => s.res0
  | 0x024 => s.res1
  | 0x028 => s.res2
  | 0x030 => s.frSrc
  | 0x034 => s.frDst
  | 0x038 => s.frPk
  | 0x03C => s.frDim
  | 0x040 => s.frCh.setWidth 32
  | _ => 0#32

/-- A host write of CMD: acceptance when IDLE, BUSY_REJECT when BUSY (10_state.md R37; 60_exceptions.md R211). -/
def State.writeCmd (s : State) (w : Word) : State :=
  if s.busy then s.recordError .busyReject else s.accept w

/-- A host write of an offset; read-only registers and reserved offsets ignore it (10_state.md R21 to R42). -/
def State.writeReg (s : State) (offset : Nat) (w : Word) : State :=
  match offset with
  | 0x004 => { s with ctrl := Ctrl.ofWord w }
  | 0x008 => s.writeStatus w
  | 0x00C => s.writeCmd w
  | 0x010 => { s with arg0 := w }
  | 0x014 => { s with arg1 := w }
  | 0x018 => { s with arg2 := w }
  | 0x030 => { s with frSrc := w }
  | 0x034 => { s with frDst := w }
  | 0x038 => { s with frPk := w }
  | 0x03C => { s with frDim := w }
  | 0x040 => { s with frCh := w.extractLsb' 0 8 }
  | _ => s

/-- The host address lies in the window at P_REG_BASE (10_state.md R21). -/
def Platform.inWindow (p : Platform) (addr : Nat) : Bool :=
  decide (p.regBase ≤ addr) && decide (addr < p.regBase + windowSize)

/-- A naturally aligned 32-bit access (10_state.md R22). -/
def accessLegal (offset width : Nat) : Bool := width == 4 && offset % 4 == 0

/-! ### The host's memory accesses during a FRAME -/

/-- The output byte that the command computes at an address of its output buffers ("its final value",
20_memory.md R74), whatever the bus answers to its accesses (log 8). -/
def Job.finalByte (j : Job) (m : Memory) (a : Nat) : Byte :=
  let i := if j.pkRegion.has a then (a - j.pk) / 2 else (a - j.dst) / 4
  Memory.read (Memory.writeCells [] (j.cells m i)) a

/-- The byte that a host read returns while a FRAME runs: of an output byte, its old or its final value, chosen per
read (20_memory.md R74); any value once the host disturbed the buffers. Logs 7 and 8. R74 does not say what "its final
value" is of a byte that a bus error keeps the engine from writing: the computed byte is allowed there too.
DESIGN CHOICE, log 8. -/
def Running.hostByte (r : Running) (j : Job) (m : Memory) (count : Nat) (a : Nat) : Byte :=
  if j.dstRegion.has a || j.pkRegion.has a then
    if r.disturbed then Config.freeByte count
    else if Config.freeBit count then j.finalByte m a
    else
      match r.progress with
      | none => m.read a
      | some p => p.before.read a
  else m.read a

/-- A host read of one byte of the DMA space. -/
def State.hostRead (s : State) (a : Nat) : State :=
  let plain := { s with hostData := (s.mem.read a).setWidth 32 }
  match s.phase with
  | .idle => plain
  | .busy r =>
    match r.frame with
    | none => plain
    | some j =>
      { s with hostData := (r.hostByte j s.mem s.freeCount a).setWidth 32, freeCount := s.freeCount + 1 }

/-- The running command, told that the host wrote a byte (20_memory.md R74). -/
def Running.disturb (r : Running) (a : Nat) : Running :=
  match r.frame with
  | none => r
  | some j => if j.regions.any (fun g => g.has a) then { r with disturbed := true } else r

/-- A host write of one byte of the DMA space (20_memory.md R72, R74). -/
def State.hostWrite (s : State) (a : Nat) (v : Byte) : State :=
  { s with
    mem := s.mem.write a v
    phase :=
      match s.phase with
      | .idle => .idle
      | .busy r => .busy (r.disturb a) }

/-- One access of the host. A register access outside the window is not this block's (log 9). Whether the host sees the
same DMA bytes at the same addresses is the platform's (20_memory.md R60): a memory access names the DMA byte that it
reaches, by its DMA address. DESIGN CHOICE, log 17. -/
def hostStep (a : HostAction) (s : State) : Host.Outcome State Fault Refusal :=
  match a with
  | .regRead addr width =>
    if s.platform.inWindow addr then
      if accessLegal (addr - s.platform.regBase) width then
        .next { s with hostData := s.readReg (addr - s.platform.regBase) }
      else .refused .registerAccess
    else .next s
  | .regWrite addr width value =>
    if s.platform.inWindow addr then
      if accessLegal (addr - s.platform.regBase) width then
        .next (s.writeReg (addr - s.platform.regBase) value)
      else .refused .registerAccess
    else .next s
  | .memRead addr => if addr < dmaSize then .next (s.hostRead addr) else .fault .outsideDmaSpace
  | .memWrite addr value => if addr < dmaSize then .next (s.hostWrite addr value) else .fault .outsideDmaSpace

/-! ### Reset -/

/-- The memory side of a reset: a running FRAME is aborted (70_reset_and_hazards.md R232). -/
def State.abort (s : State) : State :=
  match s.phase with
  | .idle => s
  | .busy r =>
    match r.frame with
    | none => s
    | some j =>
      match r.progress with
      | none => j.abandon r.disturbed [] s
      | some p => j.abandon r.disturbed p.done s

/-- The reset input: every register at the value of R231; memory, the platform and the host's side stay
(70_reset_and_hazards.md R230 to R232). Log 15. -/
def State.resetInput (s : State) : State :=
  { State.reset with
    mem := s.abort.mem
    platform := s.platform
    agenda := s.agenda
    hostData := s.hostData
    freeCount := s.abort.freeCount }

/-! ### Whose turn it is -/

/-- One poll of STATUS by the host (30_encoding.md R96). -/
def State.poll (s : State) : State := { s with hostData := s.status }

/-- What the next step is: an engine step from a state, or an outcome of another agent. -/
inductive Move where
  | engine (s : State)
  | other (o : Host.Outcome State Fault Refusal)

/-- The next move of the interleaving (30_encoding.md R97; 70_reset_and_hazards.md R243). Log 2. -/
def nextMove (s : State) : Move :=
  match s.agenda with
  | [] => .engine s
  | .engine :: rest => .engine { s with agenda := rest }
  | .host a :: rest => .other (hostStep a { s with agenda := rest })
  | .wait :: rest => if s.busy then .engine s.poll else .other (.next { s.poll with agenda := rest })
  | .reset :: rest => .other (.next (State.resetInput { s with agenda := rest }))

/-! ### Host programs -/

/-- The named registers of the window (10_state.md R21). -/
inductive RegName where
  | id | ctrl | status | cmd | arg0 | arg1 | arg2 | res0 | res1 | res2 | frSrc | frDst | frPk | frDim | frCh
  deriving DecidableEq, Repr

/-- The offset of a register (10_state.md R21). -/
def RegName.offset : RegName → Nat
  | .id => 0x000
  | .ctrl => 0x004
  | .status => 0x008
  | .cmd => 0x00C
  | .arg0 => 0x010
  | .arg1 => 0x014
  | .arg2 => 0x018
  | .res0 => 0x020
  | .res1 => 0x024
  | .res2 => 0x028
  | .frSrc => 0x030
  | .frDst => 0x034
  | .frPk => 0x038
  | .frDim => 0x03C
  | .frCh => 0x040

/-- One line of a host program (30_encoding.md R96). -/
inductive HostLine where
  | wr (reg : RegName) (imm : Word)
  | rd (reg : RegName)
  | cmd (i : Instr)
  | wait
  | run (i : Instr)
  | clr
  deriving DecidableEq, Repr

/-- The events of a line, for a window at `base` (30_encoding.md R96). -/
def HostLine.events (base : Nat) : HostLine → List Event
  | .wr reg imm => [.host (.regWrite (base + reg.offset) 4 imm)]
  | .rd reg => [.host (.regRead (base + reg.offset) 4)]
  | .cmd i => [.host (.regWrite (base + RegName.offset .cmd) 4 (encode i))]
  | .wait => [.wait]
  | .run i => [.host (.regWrite (base + RegName.offset .cmd) 4 (encode i)), .wait]
  | .clr => [.host (.regWrite (base + RegName.offset .status) 4 6#32)]

/-- The agenda of a host program (30_encoding.md R96). -/
def programEvents (base : Nat) (lines : List HostLine) : List Event := lines.flatMap (HostLine.events base)

end Sys2Proof.Machine
end

