-- ==== Sys2Proof/Machine/Step.lean ====
section
/-! DEFINITION. One step of the machine. -/

namespace Sys2Proof.Machine

/-- One step: the next move of the interleaving, and, when it is the engine's, one engine step of the latched command
(30_encoding.md R97). An IDLE engine changes nothing (60_exceptions.md R222). -/
def step (s : State) : Host.Outcome State Fault Refusal :=
  match nextMove s with
  | .other o => o
  | .engine t =>
    match t.fetch with
    | .idle => .next t
    | .reject e => .next (t.endError (decodeErrorCode e))
    | .instr i => exec i t

/-- The state in which the word `w` was just accepted (10_state.md R37) and the engine moves next. Log 2. -/
def State.withFetchWord (s : State) (nbits w : Nat) : State :=
  { s.accept (BitVec.ofNat 32 (w % 2 ^ nbits)) with agenda := [] }

end Sys2Proof.Machine
end

