-- ==== Sys2Proof/Safety.lean ====
section
/-! DEFINITION. The terms in which claims speak of good states and good runs. -/

namespace Sys2Proof.Machine

/-- The progress of a FRAME is well formed: distinct completed indices below N, in rising order, and a canonical copy
of memory (10_state.md R45). -/
def Progress.ok (p : Progress) (j : Job) : Bool :=
  decide (p.done.Pairwise (· < ·)) && p.done.all (fun i => decide (i < j.count)) &&
    decide p.before.wf && decide p.before.inSpace

/-- The phase is well formed: DONE is 0 while BUSY (10_state.md R34, R37), and progress belongs to a FRAME that passed
validation and whose buffers are ordinary memory (10_state.md R45; 43_pipeline.md R165; 20_memory.md R67). -/
def State.phaseOk (s : State) : Bool :=
  match s.phase with
  | .idle => true
  | .busy r =>
    !s.done &&
      match r.progress with
      | none => true
      | some p =>
        match r.frame with
        | none => false
        | some j => !j.touchesDevice s.platform && p.ok j

/-- The invariant of the machine: memory in canonical form inside the DMA space, and a well-formed phase. -/
def State.inv (s : State) : Bool := decide s.mem.wf && decide s.mem.inSpace && s.phaseOk

/-- While a FRAME runs undisturbed, memory is exact: each completed pixel's output bytes hold what the command
computes from the input as it was before the command, every other output byte and the whole input are as they were
(43_pipeline.md R166, R167, R169). -/
def State.frameExact (s : State) : Prop :=
  ∀ r p j, s.phase = .busy r → r.progress = some p → r.frame = some j → r.disturbed = false →
    (∀ i ∈ p.done, ∀ c ∈ j.cells p.before i, s.mem.read c.1 = c.2) ∧
    (∀ i, i < j.count → i ∉ p.done → ∀ a ∈ j.outAddrs i, s.mem.read a = p.before.read a) ∧
    (∀ a, j.srcRegion.has a = true → s.mem.read a = p.before.read a)

/-- An event that the spec gives a meaning: aligned 32-bit accesses of the window, and accesses inside the DMA space
(10_state.md R22; 20_memory.md R60). -/
def Event.legal (p : Platform) : Event → Bool
  | .engine | .wait | .reset => true
  | .host (.regRead addr width) => !p.inWindow addr || accessLegal (addr - p.regBase) width
  | .host (.regWrite addr width _) => !p.inWindow addr || accessLegal (addr - p.regBase) width
  | .host (.memRead addr) => decide (addr < dmaSize)
  | .host (.memWrite addr _) => decide (addr < dmaSize)

/-- A state from which the host makes only accesses that the spec gives a meaning, on a platform whose memory has no
read side effects. -/
def State.legal (s : State) : Bool := s.agenda.all (Event.legal s.platform) && s.platform.devices.isEmpty

/-- It is the engine's turn at a state, and it moves from the state `u`: with an empty agenda, at an engine event, which
is used up, or in a wait while the engine is BUSY, after a poll of STATUS (30_encoding.md R96, R97). Log 2. -/
def State.engineMovesFrom (s u : State) : Prop :=
  (s.agenda = [] ∧ u = s) ∨
  (∃ rest, s.agenda = .engine :: rest ∧ u = { s with agenda := rest }) ∨
  (∃ rest, s.agenda = .wait :: rest ∧ s.busy = true ∧ u = { s with hostData := s.status })

/-- Every DMA access of a frame is performed (20_memory.md R70). -/
def Job.busClear (j : Job) (p : Platform) : Bool :=
  (List.range j.count).all (fun i => j.readsOk p i && j.writesOk p i)

/-- The six output bytes of a frame's pixel hold what the command computes from a memory (43_pipeline.md R166). -/
def Job.pixelStored (j : Job) (before after : Memory) (i : Nat) : Prop :=
  ∀ c ∈ j.cells before i, after.read c.1 = c.2

/-- Every output byte of a frame holds a free value of its own, numbered from `n` on: the k-th output byte of pixel i
has the number n + 6 i + k (20_memory.md R74). Log 7. -/
def Job.outputsFree (j : Job) (m : Memory) (n : Nat) : Prop :=
  ∀ i, i < j.count → ∀ k a, (j.outAddrs i)[k]? = some a → m.read a = Config.freeByte (n + (6 * i + k))

end Sys2Proof.Machine
end

