-- ==== Sys2Proof/Certificates/Slice0/Obligations.lean ====
section
/-! DEFINITION. The statements for the provers. -/

section
open Sys2Proof Sys2Proof.Machine

/-! ### Command words -/

/-- The decoder answers a command exactly for the word that the encoder gives it (30_encoding.md R80, R81, R86, R87). -/
def Obligations.DecodeExactlyInvertsEncode : Prop :=
  ∀ (w : Word) (i : Instr), decode w = .instr i ↔ (i.wellFormed = true ∧ encode i = w)

/-- 30_encoding.md R87: the checks of decode in their order, by the bits of the latched word alone. -/
def Obligations.DecodeChecksInOrder : Prop :=
  ∀ (s : State) (r : Running), s.phase = .busy r →
    let w := r.latch.word.toNat
    let legal := [0x00, 0x01, 0x02, 0x03, 0x04, 0x10, 0x11, 0x12, 0x13, 0x14, 0x20, 0x21, 0x30]
    let bad := w / 4096 ≠ 0 ∨ (w % 256 ≠ 3 ∧ w / 256 % 8 ≠ 0) ∨ (w % 256 = 3 ∧ w / 512 % 4 = 3) ∨
      (w % 256 ≠ 2 ∧ w % 256 ≠ 4 ∧ w / 2048 % 2 ≠ 0)
    (w % 256 ∉ legal → s.fetch = .reject .illegalOpcode) ∧
    (w % 256 ∈ legal → bad → s.fetch = .reject .reservedField) ∧
    (w % 256 ∈ legal → ¬ bad → ∃ i, s.fetch = .instr i ∧ i.opcode.toNat = w % 256 ∧
      (∀ flip step, i = .qnoise flip step → flip = decide (w / 256 % 2 = 1) ∧ step.toNat = w / 512 % 4) ∧
      (∀ n, i = .bayer n ∨ i = .qord n → n = if w / 2048 % 2 = 1 then .n8 else .n4))

/-- 30_encoding.md R95: the word of every assembler spelling, and no word for any other. -/
def Obligations.AssemblerSpellings : Prop :=
  (assemble "nop" = some 0x00000000#32 ∧ assemble "noise" = some 0x00000001#32 ∧
    assemble "bayer.n4" = some 0x00000002#32 ∧ assemble "bayer.n8" = some 0x00000802#32 ∧
    assemble "qnoise.s16" = some 0x00000003#32 ∧ assemble "qnoise.s8" = some 0x00000203#32 ∧
    assemble "qnoise.s4" = some 0x00000403#32 ∧ assemble "qnoise.s16.flip" = some 0x00000103#32 ∧
    assemble "qnoise.s8.flip" = some 0x00000303#32 ∧ assemble "qnoise.s4.flip" = some 0x00000503#32) ∧
  (assemble "qord.n4" = some 0x00000004#32 ∧ assemble "qord.n8" = some 0x00000804#32 ∧
    assemble "pack565" = some 0x00000010#32 ∧ assemble "unpack565" = some 0x00000011#32 ∧
    assemble "pack4444" = some 0x00000012#32 ∧ assemble "unpack4444" = some 0x00000013#32 ∧
    assemble "expand" = some 0x00000014#32 ∧ assemble "dpix4444" = some 0x00000020#32 ∧
    assemble "dpix565" = some 0x00000021#32 ∧ assemble "frame" = some 0x00000030#32) ∧
  ∀ line, line ∉ asmTable.map (·.1) → assemble line = none

/-- Words written out from 30_encoding.md R81 and R86 decode to the commands they stand for, one of every family. -/
def Obligations.SampleWordsDecode : Prop :=
  decode 0x00000000#32 = .instr .nop ∧ decode 0x00000001#32 = .instr .noise ∧
  decode 0x00000802#32 = .instr (.bayer .n8) ∧ decode 0x00000503#32 = .instr (.qnoise true 2#2) ∧
  decode 0x00000004#32 = .instr (.qord .n4) ∧ decode 0x00000012#32 = .instr .pack4444 ∧
  decode 0x00000021#32 = .instr .dpix565 ∧ decode 0x00000030#32 = .instr .frame

/-! ### Steps, and the commands that never start -/

/-- When it is the engine's turn and the latch holds a command, the step is that command's engine step
(30_encoding.md R97); an IDLE engine changes nothing (60_exceptions.md R222), so an engine event is only used up, and a
wait ends with a last poll of STATUS (30_encoding.md R96). The order of the turns is the model's agenda (log 2). -/
def Obligations.StepRunsDecodedCommand : Prop :=
  (∀ s u i, s.engineMovesFrom u → s.fetch = .instr i → step s = exec i u) ∧
  (∀ s u, s.engineMovesFrom u → s.phase = .idle → step s = .next u) ∧
  (∀ s rest, s.agenda = .wait :: rest → s.phase = .idle →
    step s = .next { s with agenda := rest, hostData := s.status }) ∧
  (∀ s : State, s.agenda = [] → s.engineMovesFrom s) ∧
  (∀ (s : State) (rest : List Event), s.agenda = .engine :: rest →
    s.engineMovesFrom { s with agenda := rest }) ∧
  (∀ (s : State) (rest : List Event) (r : Running), s.agenda = .wait :: rest → s.phase = .busy r →
    s.engineMovesFrom { s with hostData := s.status })

/-- 60_exceptions.md R202: a command whose OPC is not in the map ends with ILLEGAL_OPCODE, whichever way the engine comes
to its turn (log 2). -/
def Obligations.IllegalOpcodeEndsCommand : Prop :=
  ErrorCode.illegalOpcode.code = 1#4 ∧
  ∀ (s u : State) (r : Running), s.engineMovesFrom u → s.phase = .busy r →
    r.latch.word.toNat % 256 ∉
      [0x00, 0x01, 0x02, 0x03, 0x04, 0x10, 0x11, 0x12, 0x13, 0x14, 0x20, 0x21, 0x30] →
    step s = .next { u with phase := .idle, error := some (s.error.getD .illegalOpcode) }

/-- 60_exceptions.md R203: a legal OPC with a reserved or unused field that is not zero, or STEP = 3, ends with
RESERVED_FIELD, whichever way the engine comes to its turn (log 2). -/
def Obligations.ReservedFieldEndsCommand : Prop :=
  ErrorCode.reservedField.code = 2#4 ∧
  ∀ (s u : State) (r : Running), s.engineMovesFrom u → s.phase = .busy r →
    let w := r.latch.word.toNat
    w % 256 ∈ [0x00, 0x01, 0x02, 0x03, 0x04, 0x10, 0x11, 0x12, 0x13, 0x14, 0x20, 0x21, 0x30] →
    (w / 4096 ≠ 0 ∨ (w % 256 ≠ 3 ∧ w / 256 % 8 ≠ 0) ∨ (w % 256 = 3 ∧ w / 512 % 4 = 3) ∨
      (w % 256 ≠ 2 ∧ w % 256 ≠ 4 ∧ w / 2048 % 2 ≠ 0)) →
    step s = .next { u with phase := .idle, error := some (s.error.getD .reservedField) }

/-! ### The register window

A host access, a wait or a reset that comes next stands at the head of the agenda: that is the model's way to write down
the interleaving that the spec leaves open (30_encoding.md R97; log 2). -/

/-- 10_state.md R37 and 60_exceptions.md R211: a CMD write is accepted when IDLE and rejected when BUSY. -/
def Obligations.CmdWriteAcceptsOrRejects : Prop :=
  ErrorCode.busyReject.code = 10#4 ∧
  ∀ (s : State) (w : Word) (rest : List Event),
    s.agenda = .host (.regWrite (s.platform.regBase + 0x00C) 4 w) :: rest →
    (s.phase = .idle → step s = .next { s with
      agenda := rest
      done := false
      phase := .busy { latch := { word := w, ctrl := s.ctrl, arg0 := s.arg0, arg1 := s.arg1, arg2 := s.arg2,
                                  frSrc := s.frSrc, frDst := s.frDst, frPk := s.frPk, frDim := s.frDim,
                                  frCh := s.frCh }
                       disturbed := false
                       progress := none } }) ∧
    (∀ r, s.phase = .busy r →
      step s = .next { s with agenda := rest, error := some (s.error.getD .busyReject) }) ∧
    s.readReg 0x00C = 0#32

/-- 10_state.md R21, R23, R24, R38 to R42: what a read of each offset of the window returns, and what a write of each
data, read-only or reserved offset changes; nothing else changes. -/
def Obligations.RegisterMapReadsAndWrites : Prop :=
  (∀ (s : State) (off : Nat) (rest : List Event), off % 4 = 0 → off < 4096 →
    s.agenda = .host (.regRead (s.platform.regBase + off) 4) :: rest →
    step s = .next { s with
      agenda := rest
      hostData :=
        if off = 0x000 then 0x44540007#32
        else if off = 0x004 then s.ctrl.word
        else if off = 0x008 then s.status
        else if off = 0x010 then s.arg0
        else if off = 0x014 then s.arg1
        else if off = 0x018 then s.arg2
        else if off = 0x020 then s.res0
        else if off = 0x024 then s.res1
        else if off = 0x028 then s.res2
        else if off = 0x030 then s.frSrc
        else if off = 0x034 then s.frDst
        else if off = 0x038 then s.frPk
        else if off = 0x03C then s.frDim
        else if off = 0x040 then BitVec.ofNat 32 s.frCh.toNat
        else 0#32 }) ∧
  ∀ (s : State) (off : Nat) (w : Word) (rest : List Event), off % 4 = 0 → off < 4096 →
    off ≠ 0x004 → off ≠ 0x008 → off ≠ 0x00C →
    s.agenda = .host (.regWrite (s.platform.regBase + off) 4 w) :: rest →
    step s = .next { s with
      agenda := rest
      arg0 := if off = 0x010 then w else s.arg0
      arg1 := if off = 0x014 then w else s.arg1
      arg2 := if off = 0x018 then w else s.arg2
      frSrc := if off = 0x030 then w else s.frSrc
      frDst := if off = 0x034 then w else s.frDst
      frPk := if off = 0x038 then w else s.frPk
      frDim := if off = 0x03C then w else s.frDim
      frCh := if off = 0x040 then BitVec.ofNat 8 (w.toNat % 256) else s.frCh }

/-- 10_state.md R22: an access of another width, or at an offset that is not a multiple of 4, is refused; an aligned
32-bit read changes nothing but the host's data. -/
def Obligations.RegisterAccessForm : Prop :=
  ∀ (s : State) (off width : Nat) (w : Word) (rest : List Event), off < 4096 →
    (width ≠ 4 ∨ off % 4 ≠ 0 →
      (s.agenda = .host (.regRead (s.platform.regBase + off) width) :: rest → step s = .refused .registerAccess) ∧
      (s.agenda = .host (.regWrite (s.platform.regBase + off) width w) :: rest →
        step s = .refused .registerAccess)) ∧
    (width = 4 → off % 4 = 0 → s.agenda = .host (.regRead (s.platform.regBase + off) width) :: rest →
      step s = .next { s with agenda := rest, hostData := s.readReg off })

/-- 10_state.md R25: a CTRL write changes MODE, BAYER_N, DONE_IE and ERR_IE only, and leaves the running command
alone; CTRL reads 0x94 after reset. -/
def Obligations.CtrlWriteKeepsReadOnlyFields : Prop :=
  State.reset.readReg 0x004 = 0x00000094#32 ∧
  ∀ (s : State) (w : Word) (rest : List Event),
    s.agenda = .host (.regWrite (s.platform.regBase + 0x004) 4 w) :: rest →
    ∃ c : Ctrl, step s = .next { s with agenda := rest, ctrl := c } ∧
      c.mode = (if w.getLsbD 0 then .ordered else .noise) ∧ c.bayerN = (if w.getLsbD 1 then .n8 else .n4) ∧
      c.doneIE = w.getLsbD 8 ∧ c.errIE = w.getLsbD 9 ∧
      State.readReg { s with agenda := rest, ctrl := c } 0x004 = (w &&& 0x00000303#32) ||| 0x00000094#32

/-- 10_state.md R36: the layout of STATUS, and what a host write of it does. -/
def Obligations.StatusWriteOneToClear : Prop :=
  State.reset.readReg 0x008 = 0#32 ∧
  ∀ (s : State) (w : Word) (rest : List Event),
    s.agenda = .host (.regWrite (s.platform.regBase + 0x008) 4 w) :: rest →
    s.status = BitVec.ofNat 32 ((if s.phase = .idle then 0 else 1) + (if s.done = true then 2 else 0) +
      (match s.error with | none => 0 | some e => 4 + 256 * e.code.toNat)) ∧
    ∃ t, step s = .next t ∧
      t = { s with agenda := rest, done := t.done, error := t.error } ∧
      t.status = s.status &&& ~~~ ((w &&& 2#32) ||| (if w.getLsbD 2 then 0x00000F04#32 else 0#32))

/-- 10_state.md R35: the first error is kept; a host write of STATUS with bit 2 = 1 clears it, and nothing else does
but a reset, which clears it with every register (70_reset_and_hazards.md R231). -/
def Obligations.FirstErrorKeptUntilCleared : Prop :=
  State.reset.error = none ∧
  (∀ (s : State) (e : ErrorCode), (s.error = none → (s.endError e).error = some e) ∧
    (∀ e0, s.error = some e0 → (s.endError e).error = some e0)) ∧
  (∀ (s : State) (w : Word) (rest : List Event), w.getLsbD 2 = true →
    s.agenda = .host (.regWrite (s.platform.regBase + 0x008) 4 w) :: rest →
    ∃ t, step s = .next t ∧ t.error = none ∧ t.errCode = 0#4) ∧
  ∀ (s t : State) (e : ErrorCode), s.error = some e → step s = .next t →
    t.error = some e ∨
    (t.error = none ∧ ∃ rest w, w.getLsbD 2 = true ∧
      s.agenda = .host (.regWrite (s.platform.regBase + 0x008) 4 w) :: rest) ∨
    (t.error = none ∧ ∃ rest, s.agenda = .reset :: rest)

/-- 10_state.md R33, R34: BUSY and DONE change only by acceptance, by a command's end, by a host write of STATUS with
bit 1 = 1, and by a reset; DONE becomes 1 only when a command ends and its error record stays as it was. -/
def Obligations.BusyAndDoneFollowTheCommand : Prop :=
  ∀ (s t : State), step s = .next t →
    (s.busy = false → t.busy = true → t.done = false ∧ ∃ rest w,
      s.agenda = .host (.regWrite (s.platform.regBase + 0x00C) 4 w) :: rest) ∧
    (s.done = false → t.done = true → s.busy = true ∧ t.busy = false ∧ t.error = s.error) ∧
    (s.busy = true → t.busy = false → (∃ rest, s.agenda = .reset :: rest) ∨ t.done = true ∨
      ∃ e, t.error = some (s.error.getD e)) ∧
    (s.done = true → t.done = false → (∃ rest, s.agenda = .reset :: rest) ∨ t.busy = true ∨ ∃ rest w,
      w.getLsbD 1 = true ∧ s.agenda = .host (.regWrite (s.platform.regBase + 0x008) 4 w) :: rest)

/-- 10_state.md R43: IRQ from the values that the host reads in STATUS and CTRL; 0 after reset. -/
def Obligations.InterruptFollowsFlags : Prop :=
  State.reset.irq = false ∧
  ∀ s : State, s.irq =
    (((s.readReg 0x008).getLsbD 1 && (s.readReg 0x004).getLsbD 8) ||
     ((s.readReg 0x008).getLsbD 2 && (s.readReg 0x004).getLsbD 9))

/-- 10_state.md R44, 70_reset_and_hazards.md R240: no host register access changes the running command. -/
def Obligations.HostAccessLeavesRunningCommand : Prop :=
  ∀ (s t : State) (r : Running) (a : HostAction) (rest : List Event), s.phase = .busy r →
    s.agenda = .host a :: rest → (∀ x, a ≠ .memRead x) → (∀ x v, a ≠ .memWrite x v) →
    step s = .next t → t.phase = .busy r

/-- 10_state.md R44: a command reads its operands and settings only from the latch: the host's registers, its data and
its agenda do not matter to it. -/
def Obligations.CommandReadsOnlyTheLatch : Prop :=
  ∀ (i : Instr) (s u t : State), s.busy = true → u.phase = s.phase → u.done = s.done → u.error = s.error →
    u.res0 = s.res0 → u.res1 = s.res1 → u.res2 = s.res2 → u.mem = s.mem → u.platform = s.platform →
    u.freeCount = s.freeCount → exec i s = .next t →
    exec i u = .next { t with
      ctrl := u.ctrl, arg0 := u.arg0, arg1 := u.arg1, arg2 := u.arg2, frSrc := u.frSrc, frDst := u.frDst,
      frPk := u.frPk, frDim := u.frDim, frCh := u.frCh, agenda := u.agenda, hostData := u.hostData }

/-- The frame of every engine step: the host's registers, the platform and the host's side never change (10_state.md
R25, R38, R40 to R42), and no command but FRAME touches memory (20_memory.md, opening; 43_pipeline.md R165). -/
def Obligations.EngineStepFrame : Prop :=
  ∀ (i : Instr) (s t : State), exec i s = .next t →
    t.ctrl = s.ctrl ∧ t.arg0 = s.arg0 ∧ t.arg1 = s.arg1 ∧ t.arg2 = s.arg2 ∧ t.frSrc = s.frSrc ∧
    t.frDst = s.frDst ∧ t.frPk = s.frPk ∧ t.frDim = s.frDim ∧ t.frCh = s.frCh ∧ t.platform = s.platform ∧
    t.agenda = s.agenda ∧ t.hostData = s.hostData ∧
    (i ≠ .frame → t.mem = s.mem ∧ t.freeCount = s.freeCount)

/-- 10_state.md R39: result registers change only when a command ends successfully, and FRAME and NOP name none. -/
def Obligations.ResultsChangeOnlyOnSuccess : Prop :=
  ∀ (i : Instr) (s t : State), exec i s = .next t →
    (t.res0 = s.res0 ∧ t.res1 = s.res1 ∧ t.res2 = s.res2) ∨
    (s.busy = true ∧ t.busy = false ∧ t.done = true ∧ t.error = s.error ∧ i ≠ .frame ∧ i ≠ .nop)

/-! ### Arithmetic -/

/-- 00_scope.md R9 for `fadd` where the result is finite: no finite binary32 is nearer to the exact sum than the result,
and of two equally near ones the result is the even one. Sums that overflow are left out (log 12). -/
def Obligations.AdditionIsCorrectlyRounded : Prop :=
  ∀ a b c : F32, F32.isFinite a = true → F32.isFinite b = true → F32.isFinite c = true →
    F32.isFinite (fadd a b) = true →
    let x := F32.scaled a + F32.scaled b
    |F32.scaled (fadd a b) - x| ≤ |F32.scaled c - x| ∧
    (|F32.scaled (fadd a b) - x| = |F32.scaled c - x| → F32.scaled c ≠ F32.scaled (fadd a b) →
      (fadd a b).getLsbD 0 = false)

/-- 00_scope.md R9 for `fmul` where the result is finite. Products that overflow are left out (log 12). -/
def Obligations.MultiplicationIsCorrectlyRounded : Prop :=
  ∀ a b c : F32, F32.isFinite a = true → F32.isFinite b = true → F32.isFinite c = true →
    F32.isFinite (fmul a b) = true →
    let x := F32.scaled a * F32.scaled b
    |F32.scaled (fmul a b) * (F32.unit : Int) - x| ≤ |F32.scaled c * (F32.unit : Int) - x| ∧
    (|F32.scaled (fmul a b) * (F32.unit : Int) - x| = |F32.scaled c * (F32.unit : Int) - x| →
      F32.scaled c ≠ F32.scaled (fmul a b) → (fmul a b).getLsbD 0 = false)

/-- 00_scope.md R9 for `fdiv` where the result is finite, both sides multiplied by the divisor. Quotients that overflow are
left out (log 12). -/
def Obligations.DivisionIsCorrectlyRounded : Prop :=
  ∀ a b c : F32, F32.isFinite a = true → F32.isFinite b = true → F32.isFinite c = true →
    F32.scaled b ≠ 0 → F32.isFinite (fdiv a b) = true →
    let x := F32.scaled a * (F32.unit : Int)
    |F32.scaled (fdiv a b) * F32.scaled b - x| ≤ |F32.scaled c * F32.scaled b - x| ∧
    (|F32.scaled (fdiv a b) * F32.scaled b - x| = |F32.scaled c * F32.scaled b - x| →
      F32.scaled c ≠ F32.scaled (fdiv a b) → (fdiv a b).getLsbD 0 = false)

/-- 00_scope.md R10: `roundTie` gives a nearest integer, and on a tie the one that the tie rule names. -/
def Obligations.RoundTieIsNearest : Prop :=
  ∀ (tie : TieRule) (u : F32), F32.isFinite u = true →
    let r := roundTie tie u
    2 * |F32.scaled u - r * (F32.unit : Int)| ≤ (F32.unit : Int) ∧
    (2 * |F32.scaled u - r * (F32.unit : Int)| = (F32.unit : Int) →
      (tie = .away → |F32.scaled u| < |r * (F32.unit : Int)|) ∧ (tie = .even → r % 2 = 0))

/-- 00_scope.md R14: `frac` of a finite non-negative value is its exact fractional part, in [0, 1). -/
def Obligations.FracIsExact : Prop :=
  ∀ v : F32, F32.isFinite v = true → 0 ≤ F32.scaled v →
    F32.isFinite (ffrac v) = true ∧ F32.scaled (ffrac v) = F32.scaled v % (F32.unit : Int) ∧
    0 ≤ F32.scaled (ffrac v) ∧ F32.scaled (ffrac v) < (F32.unit : Int)

/-- 40_lookup.md R104: the noise lies in [0, 1) for all coordinates below 2^20; and, of R101's corner cases, its pattern
is at most 0x3F7F_FFFF, so it is never -0.0. -/
def Obligations.NoiseLiesInUnitInterval : Prop :=
  ∀ x y : Nat, x < 2 ^ 20 → y < 2 ^ 20 →
    F32.isFinite (noiseField x y) = true ∧ 0 ≤ F32.scaled (noiseField x y) ∧
    F32.scaled (noiseField x y) < (F32.unit : Int) ∧ (noiseField x y).toNat ≤ 0x3F7FFFFF

/-- 10_state.md R46, R47: the ranks of both tables, row by row, at any coordinates modulo n; 40_lookup.md R102: the
threshold is exactly rank / n² - 1/2. The tables are the values that the spec gives P_BAYER4 and P_BAYER8, which this
model does not leave open (log 4). -/
def Obligations.ThresholdIsExact : Prop :=
  (∀ x y : Nat, bayerRank .n4 x y = (
    [ [ 0,  8,  2, 10],
      [12,  4, 14,  6],
      [ 3, 11,  1,  9],
      [15,  7, 13,  5] ].getD (y % 4) []).getD (x % 4) 0) ∧
  (∀ x y : Nat, bayerRank .n8 x y = (
    [ [ 0, 32,  8, 40,  2, 34, 10, 42],
      [48, 16, 56, 24, 50, 18, 58, 26],
      [12, 44,  4, 36, 14, 46,  6, 38],
      [60, 28, 52, 20, 62, 30, 54, 22],
      [ 3, 35, 11, 43,  1, 33,  9, 41],
      [51, 19, 59, 27, 49, 17, 57, 25],
      [15, 47,  7, 39, 13, 45,  5, 37],
      [63, 31, 55, 23, 61, 29, 53, 21] ].getD (y % 8) []).getD (x % 8) 0) ∧
  ∀ (m : MatrixSize) (x y : Nat),
    bayerRank m x y < matrixN m * matrixN m ∧
    bayerRank m x y = bayerRank m (x % matrixN m) (y % matrixN m) ∧
    (matrixN m * matrixN m : Int) * 2 * F32.scaled (threshold m x y) =
      (2 * bayerRank m x y - matrixN m * matrixN m : Int) * (F32.unit : Int)

/-- 40_lookup.md R105: any n×n window of the plane, at any offset, sees each rank, and each of the thresholds
k / n² - 1/2, exactly once, and every threshold lies in [-0.5, 0.5). -/
def Obligations.BayerWindowSeesEachRankOnce : Prop :=
  ∀ (m : MatrixSize) (x0 y0 : Nat),
    ((List.range (matrixN m * matrixN m)).map
      (fun i => bayerRank m (x0 + i % matrixN m) (y0 + i / matrixN m))).Perm
        (List.range (matrixN m * matrixN m)) ∧
    ((List.range (matrixN m * matrixN m)).map
      (fun i => threshold m (x0 + i % matrixN m) (y0 + i / matrixN m))).Perm
        ((List.range (matrixN m * matrixN m)).map (rankThreshold m)) ∧
    (∀ k, k < matrixN m * matrixN m → (matrixN m * matrixN m : Int) * 2 * F32.scaled (rankThreshold m k) =
      (2 * k - matrixN m * matrixN m : Int) * (F32.unit : Int)) ∧
    - (F32.unit : Int) ≤ 2 * F32.scaled (threshold m x0 y0) ∧ 2 * F32.scaled (threshold m x0 y0) < (F32.unit : Int)

/-- 41_quantizer.md R121: the bias of the noise-dither variant is within half a step, and both ends occur. -/
def Obligations.NoiseBiasIsSymmetric : Prop :=
  (∀ (tie : TieRule) (noise : F32) (code : BitVec 2) (step : Nat) (flip : Bool),
    noiseValid noise = true → stepOfCode code = some step →
    - (step / 2 : Int) ≤ qnoiseBias tie noise step flip ∧ qnoiseBias tie noise step flip ≤ (step / 2 : Int)) ∧
  (∀ (tie : TieRule) (code : BitVec 2) (step : Nat), stepOfCode code = some step →
    qnoiseBias tie 0#32 step false = - (step / 2 : Int) ∧ qnoiseBias tie 0#32 step true = (step / 2 : Int))

/-- 41_quantizer.md R125: both variants saturate at 0 and 255 and never wrap. -/
def Obligations.QuantizerSaturates : Prop :=
  (∀ (tie : TieRule) (v : Byte) (noise : F32) (step : Nat) (flip : Bool),
    ((qnoise tie v noise step flip).toNat : Int) =
      max 0 (min 255 ((v.toNat : Int) + qnoiseBias tie noise step flip))) ∧
  (∀ (tie : TieRule) (v : Byte) (t : F32) (m : MatrixSize), thresholdValid t = true →
    0 ≤ qordInt tie v t m ∧ qordInt tie v t m ≤ 255 ∧ ((qord tie v t m).toNat : Int) = qordInt tie v t m)

/-- 41_quantizer.md R126: clamping before rounding and rounding before clamping give the same integer. -/
def Obligations.ClampAndRoundCommute : Prop :=
  ∀ (tie : TieRule) (s : F32), F32.isFinite s = true →
    roundTie tie (fclamp s (f32 0) (f32 255)) = max 0 (min 255 (roundTie tie s))

/-- 41_quantizer.md R127: the flipped bias is the negated one whenever 1 - noise is exact, as it is for noise of 1/2 or
more; where it rounds, the two can differ, as they do in the rule's example. -/
def Obligations.FlipNegatesWhenExactAndCanDiffer : Prop :=
  (∀ (tie : TieRule) (noise : F32) (code : BitVec 2) (step : Nat), noiseValid noise = true →
    stepOfCode code = some step →
    F32.scaled (fsub (f32 1) noise) = (F32.unit : Int) - F32.scaled noise →
    qnoiseBias tie noise step true = - qnoiseBias tie noise step false) ∧
  (∀ noise : F32, noiseValid noise = true → (F32.unit : Int) ≤ 2 * F32.scaled noise →
    F32.scaled (fsub (f32 1) noise) = (F32.unit : Int) - F32.scaled noise) ∧
  fsub (f32 1) 0x3EF00001#32 = 0x3F080000#32 ∧ qnoiseU 0x3EF00001#32 16 true = 0x3F000000#32 ∧
  qnoiseBias .away 0x3EF00001#32 16 false = 0 ∧ qnoiseBias .away 0x3EF00001#32 16 true = 1

/-! ### The single-pixel commands -/

/-- 43_pipeline.md R170: NOP completes and changes nothing else; with any other bit set its word is rejected. -/
def Obligations.NopCompletes : Prop :=
  encode .nop = 0x00000000#32 ∧
  (∀ w : Word, w.toNat % 256 = 0 → w.toNat / 256 ≠ 0 → decode w = .reject .reservedField) ∧
  (∃ t, step (State.reset.accept 0x00000000#32) = .next t ∧ t.readReg 0x008 = 0x00000002#32) ∧
  ∀ (s : State) (r : Running), s.phase = .busy r →
    exec .nop s = .next { s with phase := .idle, done := true }

/-- 40_lookup.md R101: NOISE writes the noise of (ARG0, ARG1) to RES0, or ends with OPERAND_RANGE. -/
def Obligations.NoiseCommandResult : Prop :=
  encode .noise = 0x00000001#32 ∧
  (∀ (s : State) (r : Running), s.phase = .busy r →
    (r.latch.arg0.toNat < 2 ^ 20 → r.latch.arg1.toNat < 2 ^ 20 →
      exec .noise s = .next { s with
        phase := .idle, done := true, res0 := noiseField r.latch.arg0.toNat r.latch.arg1.toNat }) ∧
    (2 ^ 20 ≤ r.latch.arg0.toNat ∨ 2 ^ 20 ≤ r.latch.arg1.toNat →
      exec .noise s = .next { s with phase := .idle, error := some (s.error.getD .operandRange) })) ∧
  (∀ x y, noiseField x y = ffrac (fmul 0x4253EE82#32
    (ffrac (fadd (fmul (f32 x) 0x3D897143#32) (fmul (f32 y) 0x3BBF4590#32))))) ∧
  noiseField 0 0 = 0#32 ∧ noiseField 1 0 = 0x3F0E433C#32

/-- 40_lookup.md R103: BAYER writes the threshold and the rank of (ARG0, ARG1), or ends with OPERAND_RANGE. -/
def Obligations.BayerCommandResult : Prop :=
  encode (.bayer .n4) = 0x00000002#32 ∧ encode (.bayer .n8) = 0x00000802#32 ∧
  (∀ (m : MatrixSize) (s : State) (r : Running), s.phase = .busy r →
    (r.latch.arg0.toNat < 2 ^ 20 → r.latch.arg1.toNat < 2 ^ 20 →
      exec (.bayer m) s = .next { s with
        phase := .idle, done := true
        res0 := threshold m r.latch.arg0.toNat r.latch.arg1.toNat
        res1 := BitVec.ofNat 32 (bayerRank m r.latch.arg0.toNat r.latch.arg1.toNat) }) ∧
    (2 ^ 20 ≤ r.latch.arg0.toNat ∨ 2 ^ 20 ≤ r.latch.arg1.toNat →
      exec (.bayer m) s = .next { s with phase := .idle, error := some (s.error.getD .operandRange) })) ∧
  (∀ m x y, threshold m (x + matrixN m) y = threshold m x y ∧ threshold m x (y + matrixN m) = threshold m x y ∧
    bayerRank m (x + matrixN m) y = bayerRank m x y ∧ bayerRank m x (y + matrixN m) = bayerRank m x y) ∧
  (∀ m, rankThreshold m 0 = 0xBF000000#32 ∧ rankThreshold m (matrixN m * matrixN m / 2) = 0#32) ∧
  rankThreshold .n4 15 = 0x3EE00000#32 ∧ rankThreshold .n8 63 = 0x3EF80000#32 ∧
  threshold .n4 5 6 = 0x3E400000#32 ∧ bayerRank .n4 5 6 = 11

/-- 41_quantizer.md R122: QNOISE writes the clamped sum and the bias, or ends with OPERAND_RANGE; the words of the reserved
STEP code are rejected by decode. That exec of QNOISE with that code ends with RESERVED_FIELD is the model's choice
(log 11): no word decodes to it. -/
def Obligations.QnoiseCommandResult : Prop :=
  (∀ flip step, encode (.qnoise flip step) = BitVec.ofNat 32 (3 + 256 * flip.toNat + 512 * step.toNat)) ∧
  decode 0x00000603#32 = .reject .reservedField ∧ decode 0x00000703#32 = .reject .reservedField ∧
  (∀ (flip : Bool) (code : BitVec 2) (s : State) (r : Running), s.phase = .busy r →
    (code = 3#2 → exec (.qnoise flip code) s =
      .next { s with phase := .idle, error := some (s.error.getD .reservedField) }) ∧
    (∀ step : Nat, (code = 0#2 ∧ step = 16) ∨ (code = 1#2 ∧ step = 8) ∨ (code = 2#2 ∧ step = 4) →
      (r.latch.arg0.toNat ≤ 255 → r.latch.arg1.toNat ≤ 0x3F7FFFFF ∨ r.latch.arg1 = 0x80000000#32 →
        let m := if flip then fsub (f32 1) r.latch.arg1 else r.latch.arg1
        let b := roundTie .away (fsub (fmul m (f32 step)) (f32 (step / 2)))
        exec (.qnoise flip code) s = .next { s with
          phase := .idle, done := true
          res0 := BitVec.ofInt 32 (max 0 (min 255 (r.latch.arg0.toNat + b)))
          res1 := BitVec.ofInt 32 b }) ∧
      (255 < r.latch.arg0.toNat ∨ (0x3F7FFFFF < r.latch.arg1.toNat ∧ r.latch.arg1 ≠ 0x80000000#32) →
        exec (.qnoise flip code) s =
          .next { s with phase := .idle, error := some (s.error.getD .operandRange) }))) ∧
  qnoiseBias .away 0x3F7FFFFF#32 16 false = 8 ∧
  (∀ step : Nat, step = 16 ∨ step = 8 ∨ step = 4 →
    qnoiseBias .away 0#32 step false = - (step / 2 : Int) ∧ qnoiseBias .away 0#32 step true = (step / 2 : Int)) ∧
  (∀ step flip, step = 16 ∨ step = 8 ∨ step = 4 →
    qnoiseBias .away 0x80000000#32 step flip = qnoiseBias .away 0#32 step flip) ∧
  qnoiseBias .away 0x3F080000#32 16 false = 1 ∧ qnoiseBias .even 0x3F080000#32 16 false = 0 ∧
  qnoiseBias .away 0x3F0E433C#32 16 false = 1 ∧ qnoiseBias .away 0x3F0E433C#32 16 true = -1

/-- 41_quantizer.md R124: QORD writes the rounded clamped sum, or ends with OPERAND_RANGE; the bias is at most 31.875
for n = 4 and 15.9375 for n = 8. -/
def Obligations.QordCommandResult : Prop :=
  encode (.qord .n4) = 0x00000004#32 ∧ encode (.qord .n8) = 0x00000804#32 ∧
  (∀ (m : MatrixSize) (s : State) (r : Running), s.phase = .busy r →
    (r.latch.arg0.toNat ≤ 255 →
      r.latch.arg1.toNat ≤ 0x3EFFFFFF ∨ (0x80000000 ≤ r.latch.arg1.toNat ∧ r.latch.arg1.toNat ≤ 0xBF000000) →
      let n := match m with | .n4 => 4 | .n8 => 8
      let c := fclamp (fadd (f32 r.latch.arg0.toNat) (fmul r.latch.arg1 (fdiv (f32 255) (f32 n)))) (f32 0) (f32 255)
      exec (.qord m) s = .next { s with
        phase := .idle, done := true, res0 := BitVec.ofInt 32 (roundTie .away c) }) ∧
    (255 < r.latch.arg0.toNat ∨
      (0x3EFFFFFF < r.latch.arg1.toNat ∧ (r.latch.arg1.toNat < 0x80000000 ∨ 0xBF000000 < r.latch.arg1.toNat)) →
      exec (.qord m) s = .next { s with phase := .idle, error := some (s.error.getD .operandRange) })) ∧
  qordInt .away 0#8 0xBF000000#32 .n4 = 0 ∧ qordInt .away 255#8 0x3EE00000#32 .n4 = 255 ∧
  qordInt .away 128#8 0x3EE00000#32 .n4 = 156 ∧
  (∀ t : F32, thresholdValid t = true →
    8 * |F32.scaled (fmul t (fdiv (f32 255) (f32 4)))| ≤ 255 * (F32.unit : Int) ∧
    16 * |F32.scaled (fmul t (fdiv (f32 255) (f32 8)))| ≤ 255 * (F32.unit : Int)) ∧
  8 * F32.scaled (fmul 0xBF000000#32 (fdiv (f32 255) (f32 4))) = -255 * (F32.unit : Int) ∧
  16 * F32.scaled (fmul 0xBF000000#32 (fdiv (f32 255) (f32 8))) = -255 * (F32.unit : Int)

/-- 42_codec.md R140, R141: PACK565 writes the top 5, 6 and 5 bits of R, G and B. -/
def Obligations.Pack565CommandResult : Prop :=
  encode .pack565 = 0x00000010#32 ∧
  ∀ (s : State) (r : Running), s.phase = .busy r →
    let p := r.latch.arg0.toNat
    exec .pack565 s = .next { s with
      phase := .idle, done := true
      res0 := BitVec.ofNat 32 (p % 256 / 8 * 2048 + p / 256 % 256 / 4 * 32 + p / 65536 % 256 / 8) }

/-- 42_codec.md R142, R143: UNPACK565 writes the rescaled fields with alpha 255, or ends with OPERAND_RANGE. -/
def Obligations.Unpack565CommandResult : Prop :=
  encode .unpack565 = 0x00000011#32 ∧
  ∀ (s : State) (r : Running), s.phase = .busy r →
    let p := r.latch.arg0.toNat
    (p < 65536 → exec .unpack565 s = .next { s with
      phase := .idle, done := true
      res0 := BitVec.ofNat 32 ((p / 2048 * 255 + 15) / 31 + (p / 32 % 64 * 255 + 31) / 63 * 256 +
        (p % 32 * 255 + 15) / 31 * 65536 + 255 * 16777216) }) ∧
    (65536 ≤ p →
      exec .unpack565 s = .next { s with phase := .idle, error := some (s.error.getD .operandRange) })

/-- 42_codec.md R144, R145: PACK4444 writes the top 4 bits of each channel. -/
def Obligations.Pack4444CommandResult : Prop :=
  encode .pack4444 = 0x00000012#32 ∧
  ∀ (s : State) (r : Running), s.phase = .busy r →
    let p := r.latch.arg0.toNat
    exec .pack4444 s = .next { s with
      phase := .idle, done := true
      res0 := BitVec.ofNat 32 (p % 256 / 16 * 4096 + p / 256 % 256 / 16 * 256 + p / 65536 % 256 / 16 * 16 +
        p / 16777216 / 16) }

/-- 42_codec.md R146, R147: UNPACK4444 writes each field times 17, or ends with OPERAND_RANGE. -/
def Obligations.Unpack4444CommandResult : Prop :=
  encode .unpack4444 = 0x00000013#32 ∧
  ∀ (s : State) (r : Running), s.phase = .busy r →
    let p := r.latch.arg0.toNat
    (p < 65536 → exec .unpack4444 s = .next { s with
      phase := .idle, done := true
      res0 := BitVec.ofNat 32 (p / 4096 * 17 + p / 256 % 16 * 17 * 256 + p / 16 % 16 * 17 * 65536 +
        p % 16 * 17 * 16777216) }) ∧
    (65536 ≤ p →
      exec .unpack4444 s = .next { s with phase := .idle, error := some (s.error.getD .operandRange) })

/-- 42_codec.md R148, R149: EXPAND writes the three channels with alpha 255, or ends with OPERAND_RANGE. -/
def Obligations.ExpandCommandResult : Prop :=
  encode .expand = 0x00000014#32 ∧
  ∀ (s : State) (r : Running), s.phase = .busy r →
    let p := r.latch.arg0.toNat
    (p < 16777216 → exec .expand s = .next { s with
      phase := .idle, done := true, res0 := BitVec.ofNat 32 (p + 255 * 16777216) }) ∧
    (16777216 ≤ p →
      exec .expand s = .next { s with phase := .idle, error := some (s.error.getD .operandRange) })

/-- 42_codec.md R151: unpacking and then packing gives back the same word, and the end fields unpack to 0 and 255. -/
def Obligations.UnpackThenPackIsIdentity : Prop :=
  (∀ p : Half, pack565 (unpack565 p) = p ∧ pack4444 (unpack4444 p) = p) ∧
  (∀ bits, bits = 4 ∨ bits = 5 ∨ bits = 6 →
    expandField bits 0 = 0#8 ∧ expandField bits (2 ^ bits - 1) = 255#8)

/-- 42_codec.md R152: packing and then unpacking moves a channel by at most 7 (R and B) or 3 (G) in RGB565, with alpha
255, and by at most 15 in RGBA4444; 7 and 15 are reached. -/
def Obligations.PackThenUnpackErrorBounds : Prop :=
  (∀ p : Pixel,
    let q := unpack565 (pack565 p)
    let k := unpack4444 (pack4444 p)
    (|(q.r.toNat : Int) - p.r.toNat| ≤ 7 ∧ |(q.g.toNat : Int) - p.g.toNat| ≤ 3 ∧
      |(q.b.toNat : Int) - p.b.toNat| ≤ 7 ∧ q.a = 255#8) ∧
    (|(k.r.toNat : Int) - p.r.toNat| ≤ 15 ∧ |(k.g.toNat : Int) - p.g.toNat| ≤ 15 ∧
      |(k.b.toNat : Int) - p.b.toNat| ≤ 15 ∧ |(k.a.toNat : Int) - p.a.toNat| ≤ 15)) ∧
  (unpack565 (pack565 { r := 7#8, g := 0#8, b := 248#8, a := 0#8 })).r = 0#8 ∧
  (unpack565 (pack565 { r := 7#8, g := 0#8, b := 248#8, a := 0#8 })).b = 255#8 ∧
  (unpack4444 (pack4444 { r := 15#8, g := 240#8, b := 0#8, a := 0#8 })).r = 0#8 ∧
  (unpack4444 (pack4444 { r := 15#8, g := 240#8, b := 0#8, a := 0#8 })).g = 255#8

/-- 43_pipeline.md R161, R163: DPIX4444 dithers the four channels with step 16, flipping G in the noise path only, then
packs and unpacks; or ends with OPERAND_RANGE. The flip of G and the dither of alpha are the values that the spec gives
its parameters P_FLIP4444 and P_ALPHA_DITHER (log 4). -/
def Obligations.Dpix4444CommandResult : Prop :=
  encode .dpix4444 = 0x00000020#32 ∧
  ∀ (s : State) (r : Running), s.phase = .busy r →
    let x := r.latch.arg1.toNat
    let y := r.latch.arg2.toNat
    let n := r.latch.ctrl.bayerN
    let d : Bool → Byte → Byte := fun flip v =>
      match r.latch.ctrl.mode with
      | .noise => qnoise .away v (noiseField x y) 16 flip
      | .ordered => qord .away v (threshold n x y) n
    let p := pixelOf r.latch.arg0
    let q : Pixel := { r := d false p.r, g := d true p.g, b := d false p.b, a := d false p.a }
    (x < 2 ^ 20 → y < 2 ^ 20 → exec .dpix4444 s = .next { s with
      phase := .idle, done := true
      res0 := pixelWord q
      res1 := BitVec.ofNat 32 (pack4444 q).toNat
      res2 := pixelWord (unpack4444 (pack4444 q)) }) ∧
    (2 ^ 20 ≤ x ∨ 2 ^ 20 ≤ y →
      exec .dpix4444 s = .next { s with phase := .idle, error := some (s.error.getD .operandRange) })

/-- 43_pipeline.md R162, R164: DPIX565 dithers R, G and B with steps 8, 4 and 8, flipping B in the noise path only,
keeps alpha in RES0, then packs and unpacks; or ends with OPERAND_RANGE. -/
def Obligations.Dpix565CommandResult : Prop :=
  encode .dpix565 = 0x00000021#32 ∧
  ∀ (s : State) (r : Running), s.phase = .busy r →
    let x := r.latch.arg1.toNat
    let y := r.latch.arg2.toNat
    let n := r.latch.ctrl.bayerN
    let d : Nat → Bool → Byte → Byte := fun step flip v =>
      match r.latch.ctrl.mode with
      | .noise => qnoise .away v (noiseField x y) step flip
      | .ordered => qord .away v (threshold n x y) n
    let p := pixelOf r.latch.arg0
    let q : Pixel := { r := d 8 false p.r, g := d 4 false p.g, b := d 8 true p.b, a := p.a }
    (x < 2 ^ 20 → y < 2 ^ 20 → exec .dpix565 s = .next { s with
      phase := .idle, done := true
      res0 := pixelWord q
      res1 := BitVec.ofNat 32 (pack565 q).toNat
      res2 := pixelWord (unpack565 (pack565 q)) }) ∧
    (2 ^ 20 ≤ x ∨ 2 ^ 20 ≤ y →
      exec .dpix565 s = .next { s with phase := .idle, error := some (s.error.getD .operandRange) })

/-! ### FRAME -/

/-- 43_pipeline.md R165 with 60_exceptions.md R205 to R209: the checks of FRAME's validation step in their order; past
them, the progress starts empty, unless a buffer points at memory with read side effects, which a model refuses
(20_memory.md R67). That the refusal stands after every check is the model's reading (log 10). -/
def Obligations.FrameValidationChecksInOrder : Prop :=
  encode .frame = 0x00000030#32 ∧ ErrorCode.unsupportedChannelCount.code = 4#4 ∧ ErrorCode.badDimension.code = 5#4 ∧
  ErrorCode.addressRange.code = 6#4 ∧ ErrorCode.misaligned.code = 7#4 ∧ ErrorCode.bufferOverlap.code = 8#4 ∧
  ∀ (s : State) (r : Running), s.phase = .busy r → r.progress = none →
    let ch := r.latch.frCh.toNat
    let w := r.latch.frDim.toNat % 65536
    let h := r.latch.frDim.toNat / 65536
    let src := r.latch.frSrc.toNat
    let dst := r.latch.frDst.toNat
    let pk := r.latch.frPk.toNat
    let inS := fun a => src ≤ a ∧ a < src + ch * (w * h)
    let inD := fun a => dst ≤ a ∧ a < dst + 4 * (w * h)
    let inP := fun a => pk ≤ a ∧ a < pk + 2 * (w * h)
    let fails := fun e => exec .frame s = .next { s with phase := .idle, error := some (s.error.getD e) }
    (ch ≠ 3 → ch ≠ 4 → fails .unsupportedChannelCount) ∧
    (ch = 3 ∨ ch = 4 → w = 0 ∨ h = 0 → fails .badDimension) ∧
    (ch = 3 ∨ ch = 4 → w ≠ 0 → h ≠ 0 →
      (2 ^ 32 < src + ch * (w * h) ∨ 2 ^ 32 < dst + 4 * (w * h) ∨ 2 ^ 32 < pk + 2 * (w * h) →
        fails .addressRange) ∧
      (src + ch * (w * h) ≤ 2 ^ 32 → dst + 4 * (w * h) ≤ 2 ^ 32 → pk + 2 * (w * h) ≤ 2 ^ 32 →
        (pk % 2 = 1 → fails .misaligned) ∧
        (pk % 2 = 0 → (∃ a, (inS a ∧ inD a) ∨ (inS a ∧ inP a) ∨ (inD a ∧ inP a)) → fails .bufferOverlap) ∧
        (pk % 2 = 0 → (∀ a, ¬ (inS a ∧ inD a) ∧ ¬ (inS a ∧ inP a) ∧ ¬ (inD a ∧ inP a)) →
          ((∃ g ∈ s.platform.devices, ∃ a, g.base ≤ a ∧ a < g.base + g.size ∧ (inS a ∨ inD a ∨ inP a)) →
            exec .frame s = .refused .deviceBuffer) ∧
          ((∀ g ∈ s.platform.devices, ∀ a, g.base ≤ a → a < g.base + g.size → ¬ (inS a ∨ inD a ∨ inP a)) →
            exec .frame s = .next { s with
              phase := .busy { r with progress := some { done := [], before := s.mem } } }))))

/-- 43_pipeline.md R166, 20_memory.md R70: while an index is left, the next engine step of FRAME answers a next state; it
stays BUSY if the bus performs every access of the frame. Wherever it stays BUSY, it has completed one index that was not
completed, whose accesses are all performed; the index's six output bytes hold the pixel's packed word and preview, and
every other byte is as it was. Which index is a free value (log 5). -/
def Obligations.FramePixelStepStoresOnePixel : Prop :=
  ∀ (s : State) (r : Running) (j : Job) (p : Progress), s.inv = true → s.phase = .busy r → r.frame = some j →
    r.progress = some p → p.done.length < j.count →
    ∃ t, exec .frame s = .next t ∧
      (j.busClear s.platform = true → t.phase ≠ .idle) ∧
      (t.phase ≠ .idle → ∃ i d, i < j.count ∧ i ∉ p.done ∧
        j.readsOk s.platform i = true ∧ j.writesOk s.platform i = true ∧
        (∀ k, k ∈ d ↔ k = i ∨ k ∈ p.done) ∧
        t = { s with mem := t.mem, freeCount := s.freeCount + 1,
                     phase := .busy { r with progress := some { p with done := d } } } ∧
        (∀ c ∈ j.cells s.mem i, t.mem.read c.1 = c.2) ∧
        (∀ a, a ∉ j.outAddrs i → t.mem.read a = s.mem.read a))

/-- 43_pipeline.md R167: when every index is completed, the next engine step of an undisturbed FRAME ends it
successfully and writes no result register and no memory. 20_memory.md R74: a FRAME whose buffers the host wrote still
ends, successfully when every index is completed and with BUS_FAULT at a bus error; every output byte then holds a free
value of its own and every other byte is as it was (log 7). -/
def Obligations.FrameEndsAlsoWhenDisturbed : Prop :=
  (∀ (s : State) (r : Running) (j : Job) (p : Progress), s.phase = .busy r → r.frame = some j →
    r.progress = some p → (∀ i, i < j.count → i ∈ p.done) → p.done.Pairwise (· < ·) → r.disturbed = false →
    exec .frame s = .next { s with phase := .idle, done := true }) ∧
  ∀ (s : State) (r : Running) (j : Job) (p : Progress), s.inv = true → s.phase = .busy r → r.frame = some j →
    r.progress = some p → r.disturbed = true →
    ((∀ i, i < j.count → i ∈ p.done) →
      ∃ t, exec .frame s = .next t ∧
        t = { s with phase := .idle, done := true, mem := t.mem, freeCount := s.freeCount + 6 * j.count } ∧
        j.outputsFree t.mem s.freeCount ∧
        (∀ a, j.dstRegion.has a = false → j.pkRegion.has a = false → t.mem.read a = s.mem.read a)) ∧
    (p.done.length < j.count →
      ((∀ i, i < j.count → i ∉ p.done → (j.readsOk s.platform i && j.writesOk s.platform i) = false) →
        ∃ t, exec .frame s = .next t ∧ t.phase = .idle) ∧
      (∀ t, exec .frame s = .next t → t.phase = .idle →
        t = { s with phase := .idle, error := some (s.error.getD .busFault), mem := t.mem,
                     freeCount := s.freeCount + 1 + 6 * j.count } ∧
        j.outputsFree t.mem (s.freeCount + 1) ∧
        (∀ a, j.dstRegion.has a = false → j.pkRegion.has a = false → t.mem.read a = s.mem.read a)))

/-- 43_pipeline.md R167, 70_reset_and_hazards.md R243: an accepted FRAME that passes validation and meets no bus error
ends successfully after N + 2 engine steps; whatever the order of its pixels, its output buffers hold every pixel's
result and every other byte is as it was. -/
def Obligations.FrameRunStoresTheImage : Prop :=
  ∀ (s : State) (r : Running) (j : Job), s.inv = true → s.agenda = [] → s.phase = .busy r → r.frame = some j →
    r.progress = none → r.disturbed = false → j.touchesDevice s.platform = false →
    j.busClear s.platform = true →
    ∃ t, Host.Core.run Sys2Proof.core (j.count + 2) s = .next t ∧
      t = { s with phase := .idle, done := true, mem := t.mem, freeCount := t.freeCount } ∧
      (∀ i, i < j.count → j.pixelStored s.mem t.mem i) ∧
      (∀ a, j.dstRegion.has a = false → j.pkRegion.has a = false → t.mem.read a = s.mem.read a)

/-- 43_pipeline.md R169, 20_memory.md R67: no engine step of FRAME changes a byte outside its two output buffers, even
after a bus error or a disturbance, and it never writes its input buffer. -/
def Obligations.FrameWritesOnlyItsOutputs : Prop :=
  ∀ (s t : State) (r : Running), s.inv = true → s.phase = .busy r → exec .frame s = .next t →
    ∀ a, (∀ j, frameJob r.latch = .ok j → j.dstRegion.has a = false ∧ j.pkRegion.has a = false) →
      t.mem.read a = s.mem.read a

/-- 60_exceptions.md R210: a pixel step that meets a bus error ends the command with BUS_FAULT; the bytes of completed
pixels stay written, each output byte is the old or the new one, every other byte is as it was, and no result register is
written. When no index is left whose accesses are all performed, the next pixel step is such a step. A FRAME whose buffers the host wrote
is the subject of FrameEndsAlsoWhenDisturbed. -/
def Obligations.BusFaultLeavesOldOrNewBytes : Prop :=
  ErrorCode.busFault.code = 9#4 ∧
  ∀ (s : State) (r : Running) (j : Job) (p : Progress), s.inv = true → s.frameExact → s.phase = .busy r →
    r.frame = some j → r.progress = some p → r.disturbed = false → p.done.length < j.count →
    ((∀ i, i < j.count → i ∉ p.done → (j.readsOk s.platform i && j.writesOk s.platform i) = false) →
      ∃ t, exec .frame s = .next t ∧ t.phase = .idle) ∧
    (∀ t, exec .frame s = .next t → t.phase = .idle →
      t = { s with phase := .idle, error := some (s.error.getD .busFault), mem := t.mem,
                   freeCount := t.freeCount } ∧
      (∀ i ∈ p.done, ∀ c ∈ j.cells p.before i, t.mem.read c.1 = c.2) ∧
      (∀ i, i < j.count → ∀ c ∈ j.cells p.before i,
        t.mem.read c.1 = c.2 ∨ t.mem.read c.1 = p.before.read c.1) ∧
      (∀ a, j.srcRegion.has a = true → t.mem.read a = p.before.read a) ∧
      (∀ a, j.dstRegion.has a = false → j.pkRegion.has a = false → t.mem.read a = s.mem.read a))

/-- 43_pipeline.md R171: what FRAME stores for a pixel is RES1 and RES2 of the single-pixel command of its path on the
same pixel, coordinates and CTRL. -/
def Obligations.FramePixelEqualsPixelCommand : Prop :=
  ∀ (l : Latch) (j : Job) (m : Memory) (i : Nat) (s : State) (r : Running), frameJob l = .ok j → i < j.count →
    s.phase = .busy r → r.latch.ctrl = l.ctrl → r.latch.arg0 = pixelWord (j.input m i) →
    r.latch.arg1 = BitVec.ofNat 32 (i % j.width) → r.latch.arg2 = BitVec.ofNat 32 (i / j.width) →
    ∃ t, exec (match j.path with | .rgba4444 => .dpix4444 | .rgb565 => .dpix565) s = .next t ∧
      t.res1 = BitVec.ofNat 32 (j.result m i).packed.toNat ∧ t.res2 = pixelWord (j.result m i).preview ∧
      j.cells m i =
        [ (j.pk + 2 * i, BitVec.ofNat 8 (t.res1.toNat % 256)), (j.pk + 2 * i + 1, BitVec.ofNat 8 (t.res1.toNat / 256)),
          (j.dst + 4 * i, BitVec.ofNat 8 (t.res2.toNat % 256)),
          (j.dst + 4 * i + 1, BitVec.ofNat 8 (t.res2.toNat / 256 % 256)),
          (j.dst + 4 * i + 2, BitVec.ofNat 8 (t.res2.toNat / 65536 % 256)),
          (j.dst + 4 * i + 3, BitVec.ofNat 8 (t.res2.toNat / 16777216)) ]

/-- The host's accesses of the DMA space, at the DMA address of the byte they reach (20_memory.md R60; log 17). A store
writes its one byte and leaves every other byte alone (R67, R72), and marks a running FRAME as disturbed when the byte
lies in one of its three buffers (R74; log 7). A read returns memory when the engine is IDLE (R73) or the byte is no
output byte of a running FRAME. A read of an output byte of an undisturbed FRAME returns its old or its final value (R74;
log 8). No read changes memory or the command. An address of 2^32 or more is no byte of the space (R60; log 9). -/
def Obligations.HostMemoryAccesses : Prop :=
  ∀ (s : State) (x : Nat) (v : Byte) (rest : List Event), s.inv = true →
    (s.agenda = .host (.memWrite x v) :: rest → x < 2 ^ 32 →
      ∃ t, step s = .next t ∧ t = { s with agenda := rest, mem := t.mem, phase := t.phase } ∧
        (∀ a, t.mem.read a = if a = x then v else s.mem.read a) ∧
        (∀ r j, s.phase = .busy r → r.frame = some j →
          (j.srcRegion.has x || j.dstRegion.has x || j.pkRegion.has x) = true →
          t.phase = .busy { r with disturbed := true }) ∧
        ((∀ r j, s.phase = .busy r → r.frame = some j →
          (j.srcRegion.has x || j.dstRegion.has x || j.pkRegion.has x) = false) → t.phase = s.phase)) ∧
    (s.agenda = .host (.memRead x) :: rest → x < 2 ^ 32 →
      ∃ t, step s = .next t ∧
        t = { s with agenda := rest, hostData := t.hostData, freeCount := t.freeCount } ∧
        ((∀ r j, s.phase = .busy r → r.frame = some j → (j.dstRegion.has x || j.pkRegion.has x) = false) →
          t.hostData = BitVec.ofNat 32 (s.mem.read x).toNat) ∧
        (∀ r j i c, s.phase = .busy r → r.frame = some j → r.disturbed = false → i < j.count → c.1 = x →
          (r.progress = none → c ∈ j.cells s.mem i →
            t.hostData = BitVec.ofNat 32 c.2.toNat ∨ t.hostData = BitVec.ofNat 32 (s.mem.read x).toNat) ∧
          (∀ p, r.progress = some p → s.frameExact → c ∈ j.cells p.before i →
            t.hostData = BitVec.ofNat 32 c.2.toNat ∨
              t.hostData = BitVec.ofNat 32 (p.before.read x).toNat))) ∧
    (2 ^ 32 ≤ x → s.agenda = .host (.memWrite x v) :: rest ∨ s.agenda = .host (.memRead x) :: rest →
      step s = .fault .outsideDmaSpace)

/-! ### Reset -/

/-- 70_reset_and_hazards.md R231: what the host reads after reset, the interrupt output and the phase. -/
def Obligations.ResetValues : Prop :=
  State.reset.readReg 0x000 = 0x44540007#32 ∧ State.reset.readReg 0x004 = 0x00000094#32 ∧
  State.reset.readReg 0x008 = 0#32 ∧ State.reset.readReg 0x00C = 0#32 ∧
  (∀ off, off ≠ 0x000 → off ≠ 0x004 → State.reset.readReg off = 0#32) ∧
  State.reset.irq = false ∧ State.reset.phase = .idle

/-- 70_reset_and_hazards.md R230 to R232: a reset at any step puts every register at its reset value and leaves DONE,
ERR and IRQ at 0; each output byte of an undisturbed running FRAME is its old or its final value, from acceptance on, and
every other byte is as it was. What it keeps of the model's own fields, that a FRAME which fails validation leaves memory
alone, that a byte may be new before the validation step (log 15), and that completed pixels stay written (log 6) are the
model's reading. -/
def Obligations.ResetInputAborts : Prop :=
  ∀ (s : State) (rest : List Event), s.inv = true → s.frameExact → s.agenda = .reset :: rest →
    ∃ t, step s = .next t ∧
      t = { State.reset with mem := t.mem, platform := s.platform, agenda := rest, hostData := s.hostData,
                             freeCount := t.freeCount } ∧
      t.irq = false ∧
      (s.phase = .idle → t.mem = s.mem) ∧
      (∀ r, s.phase = .busy r → r.frame = none → t.mem = s.mem) ∧
      (∀ r j, s.phase = .busy r → r.frame = some j →
        (∀ a, j.dstRegion.has a = false → j.pkRegion.has a = false → t.mem.read a = s.mem.read a) ∧
        (r.progress = none → r.disturbed = false → ∀ i, i < j.count → ∀ c ∈ j.cells s.mem i,
          t.mem.read c.1 = c.2 ∨ t.mem.read c.1 = s.mem.read c.1) ∧
        (∀ p, r.progress = some p → r.disturbed = false →
          (∀ i ∈ p.done, ∀ c ∈ j.cells p.before i, t.mem.read c.1 = c.2) ∧
          ∀ i, i < j.count → ∀ c ∈ j.cells p.before i,
            t.mem.read c.1 = c.2 ∨ t.mem.read c.1 = p.before.read c.1))

/-! ### The whole machine -/

/-- Every step of every agent keeps the invariant and the platform: memory canonical and inside the DMA space, DONE 0
while BUSY, and progress only of a FRAME that passed validation (10_state.md R34, R37, R45; 20_memory.md R60;
43_pipeline.md R165). -/
def Obligations.EveryStepKeepsInvariant : Prop :=
  ∀ s t : State, s.inv = true → step s = .next t → t.inv = true ∧ t.platform = s.platform

/-- The state after reset meets the invariant and the exactness of memory. -/
def Obligations.ResetMeetsInvariant : Prop :=
  State.reset.inv = true ∧ State.reset.frameExact

/-- Every step keeps memory exact while a FRAME runs undisturbed (43_pipeline.md R166, R167, R169; 20_memory.md R71,
R74). -/
def Obligations.EveryStepKeepsFrameExact : Prop :=
  ∀ s t : State, s.inv = true → s.frameExact → step s = .next t → t.frameExact

/-- A run on a platform without device memory, whose host makes only accesses that the spec gives a meaning, never
stops: no fault, no refusal (10_state.md R22; 20_memory.md R60, R67; 60_exceptions.md R213). -/
def Obligations.LegalRunsNeverStop : Prop :=
  ∀ (s : State) (k : Nat), s.legal = true → ∃ t, Host.Core.run Sys2Proof.core k s = .next t

/-- 30_encoding.md R97, 70_reset_and_hazards.md R243: with no host step between, a BUSY engine ends its command: after
one engine step, or, for a FRAME that passes validation, after at most N + 2. -/
def Obligations.EveryCommandEnds : Prop :=
  ∀ (s : State) (r : Running), s.inv = true → s.agenda = [] → s.platform.devices = [] → s.phase = .busy r →
    ∃ k t, Host.Core.run Sys2Proof.core k s = .next t ∧ t.phase = .idle ∧
      (r.frame = none → k = 1) ∧ (∀ j, r.frame = some j → k ≤ j.count + 2) ∧
      (t.done = true ∨ ∃ e, t.error = some (s.error.getD e))

end
end

