-- ==== Sys2Proof/Laws/Decode.lean ====
section
/-! SUPPORT. The fields of a command word as arithmetic on the word. -/

namespace Sys2Proof

theorem opcField_toNat (w : Word) : (opcField w).toNat = w.toNat % 256 := by
  simp [opcField, BitVec.extractLsb'_toNat]

theorem rsvdField_ne_zero (w : Word) : (rsvdField w != 0#20) = decide (w.toNat / 4096 ≠ 0) := by
  have h : (rsvdField w).toNat = w.toNat / 4096 := by
    simp [rsvdField, BitVec.extractLsb'_toNat, Nat.shiftRight_eq_div_pow]
    have := w.isLt
    omega
  rw [Bool.eq_iff_iff]
  simp only [bne_iff_ne, ne_eq, decide_eq_true_eq, ← BitVec.toNat_inj, h]
  simp

theorem flipStepBits_ne_zero (w : Word) : (w.extractLsb' 8 3 != 0#3) = decide (w.toNat / 256 % 8 ≠ 0) := by
  rw [Bool.eq_iff_iff]
  simp only [bne_iff_ne, ne_eq, decide_eq_true_eq, ← BitVec.toNat_inj, BitVec.extractLsb'_toNat,
    Nat.shiftRight_eq_div_pow]
  simp

theorem stepField_toNat (w : Word) : (stepField w).toNat = w.toNat / 512 % 4 := by
  simp [stepField, BitVec.extractLsb'_toNat, Nat.shiftRight_eq_div_pow]

theorem stepField_eq_three (w : Word) : (stepField w == 3#2) = decide (w.toNat / 512 % 4 = 3) := by
  rw [Bool.eq_iff_iff]
  simp only [beq_iff_eq, decide_eq_true_eq, ← BitVec.toNat_inj, stepField_toNat]
  simp

theorem nselField_eq (w : Word) : nselField w = decide (w.toNat / 2048 % 2 = 1) := by
  simp only [nselField, BitVec.getLsbD, Nat.testBit, Nat.shiftRight_eq_div_pow, Nat.one_and_eq_mod_two]
  rcases Nat.mod_two_eq_zero_or_one (w.toNat / 2048) with h | h <;> simp [h]

end Sys2Proof
end

