-- ==== Sys2Proof/Laws/Float.lean ====
section
/-! SUPPORT. The laws of binary32: what packing and rounding give. -/

namespace Sys2Proof.Machine

/-- The magnitude, in units of 2^-149, of a magnitude field (bits [30:0]). -/
def magOf (g : Nat) : Nat :=
  if g / 2 ^ 23 = 0 then g % 2 ^ 23 else (2 ^ 23 + g % 2 ^ 23) * 2 ^ (g / 2 ^ 23 - 1)

/-- The magnitude field of a pattern. -/
def F32.magField (f : F32) : Nat := f.toNat % 2 ^ 31

theorem F32.expField_eq (f : F32) : F32.expField f = F32.magField f / 2 ^ 23 := by
  unfold F32.expField F32.magField
  simp only [BitVec.extractLsb'_toNat, Nat.shiftRight_eq_div_pow]
  omega

theorem F32.fracField_eq (f : F32) : F32.fracField f = F32.magField f % 2 ^ 23 := by
  unfold F32.fracField F32.magField
  simp only [BitVec.extractLsb'_toNat, Nat.shiftRight_eq_div_pow]
  omega

theorem F32.sign_eq (f : F32) : F32.sign f = decide (2 ^ 31 ≤ f.toNat) := by
  unfold F32.sign
  rw [← BitVec.msb_eq_getLsbD_last, BitVec.msb_eq_decide]

theorem F32.magnitude_eq (f : F32) : F32.magnitude f = magOf (F32.magField f) := by
  unfold F32.magnitude magOf
  rw [F32.expField_eq, F32.fracField_eq]

theorem F32.isFinite_iff (f : F32) : F32.isFinite f = true ↔ F32.magField f < 0x7F800000 := by
  unfold F32.isFinite
  rw [F32.expField_eq]
  have : F32.magField f < 2 ^ 31 := Nat.mod_lt _ (by decide)
  simp only [bne_iff_ne, ne_eq]
  omega

theorem F32.pack_toNat (neg : Bool) (g : Nat) :
    (F32.pack neg g).toNat = neg.toNat * 2 ^ 31 + min g 0x7F800000 := by
  unfold F32.pack
  rw [BitVec.toNat_append, BitVec.toNat_ofNat, BitVec.toNat_ofBool]
  have h : min g 0x7F800000 < 2 ^ 31 := by omega
  rw [Nat.mod_eq_of_lt h, ← Nat.shiftLeft_add_eq_or_of_lt h, Nat.shiftLeft_eq]

theorem F32.magField_pack (neg : Bool) (g : Nat) : F32.magField (F32.pack neg g) = min g 0x7F800000 := by
  unfold F32.magField
  rw [F32.pack_toNat]
  cases neg <;> simp

theorem F32.sign_pack (neg : Bool) (g : Nat) : F32.sign (F32.pack neg g) = neg := by
  rw [F32.sign_eq, F32.pack_toNat]
  cases neg <;> simp

theorem F32.isFinite_pack (neg : Bool) (g : Nat) : F32.isFinite (F32.pack neg g) = true ↔ g < 0x7F800000 := by
  rw [F32.isFinite_iff, F32.magField_pack]
  omega

theorem F32.magnitude_pack (neg : Bool) (g : Nat) (h : g < 0x7F800000) :
    F32.magnitude (F32.pack neg g) = magOf g := by
  rw [F32.magnitude_eq, F32.magField_pack, Nat.min_eq_left (by omega)]

/-- The field of exponent e and significand m stands for m * 2^e, a carry to 2^24 included. -/
theorem magOf_field (e m : Nat) (hm : m ≤ 2 ^ 24) (h : e = 0 ∨ 2 ^ 23 ≤ m) : magOf (e * 2 ^ 23 + m) = m * 2 ^ e := by
  unfold magOf
  by_cases h1 : m < 2 ^ 23
  · have he : e = 0 := by omega
    subst he
    rw [if_pos (by omega)]
    simp; omega
  by_cases h2 : m = 2 ^ 24
  · subst h2
    have hd : (e * 2 ^ 23 + 2 ^ 24) / 2 ^ 23 = e + 2 := by omega
    have hr : (e * 2 ^ 23 + 2 ^ 24) % 2 ^ 23 = 0 := by omega
    rw [hd, hr, if_neg (by omega), show e + 2 - 1 = e + 1 by omega, Nat.pow_succ]
    omega
  · have hd : (e * 2 ^ 23 + m) / 2 ^ 23 = e + 1 := by omega
    have hr : (e * 2 ^ 23 + m) % 2 ^ 23 = m - 2 ^ 23 := by omega
    rw [hd, hr, if_neg (by omega), show e + 1 - 1 = e by omega, show 2 ^ 23 + (m - 2 ^ 23) = m by omega]

/-- Every magnitude is a significand below 2^24 times a power of two, and a subnormal exponent or a normal
significand. -/
theorem magOf_form (g : Nat) : ∃ e m, magOf g = m * 2 ^ e ∧ m < 2 ^ 24 ∧ (e = 0 ∨ 2 ^ 23 ≤ m) ∧
    g = e * 2 ^ 23 + m := by
  unfold magOf
  split
  · exact ⟨0, g % 2 ^ 23, by simp, by omega, .inl rfl, by omega⟩
  · exact ⟨g / 2 ^ 23 - 1, 2 ^ 23 + g % 2 ^ 23, rfl, by omega, .inr (by omega), by omega⟩

theorem roundEven_bounds (n d : Nat) (hd : 0 < d) :
    2 * n ≤ 2 * (roundEven n d * d) + d ∧ 2 * (roundEven n d * d) ≤ 2 * n + d := by
  unfold roundEven
  have h := Nat.div_add_mod n d
  have hlt := Nat.mod_lt n hd
  rw [Nat.mul_comm] at h
  simp only
  split
  · constructor <;> omega
  · split
    · rw [Nat.add_mul]; constructor <;> omega
    · have : n / d % 2 = 0 ∨ n / d % 2 = 1 := by omega
      rcases this with h2 | h2
      · rw [h2]; constructor <;> simp <;> omega
      · rw [h2, Nat.add_mul]; constructor <;> omega

/-- On a tie the rounded quotient is even. -/
theorem roundEven_tie (n d : Nat) (hd : 0 < d)
    (h : 2 * n = 2 * (roundEven n d * d) + d ∨ 2 * (roundEven n d * d) = 2 * n + d) : roundEven n d % 2 = 0 := by
  unfold roundEven at h ⊢
  have h1 := Nat.div_add_mod n d
  have hlt := Nat.mod_lt n hd
  rw [Nat.mul_comm] at h1
  simp only at h ⊢
  split at h
  · exfalso; omega
  · split at h
    · rw [Nat.add_mul] at h; exfalso; omega
    · rename_i h2 h3
      rw [if_neg h2, if_neg h3]
      omega

theorem roundEven_exact (k d : Nat) (hd : 0 < d) : roundEven (k * d) d = k := by
  unfold roundEven
  simp only [Nat.mul_div_cancel k hd, Nat.mul_mod_left]
  rw [if_pos (by omega)]

/-- Rounding stays between integers. -/
theorem roundEven_le (n d k : Nat) (hd : 0 < d) (h : n ≤ k * d) : roundEven n d ≤ k := by
  by_contra hk
  have h1 := (roundEven_bounds n d hd).2
  have h2 : (k + 1) * d ≤ roundEven n d * d := Nat.mul_le_mul_right d (by omega)
  rw [Nat.add_mul] at h2
  omega

theorem le_roundEven (n d k : Nat) (hd : 0 < d) (h : k * d ≤ n) : k ≤ roundEven n d := by
  by_contra hk
  have h1 := (roundEven_bounds n d hd).1
  have h2 : (roundEven n d + 1) * d ≤ k * d := Nat.mul_le_mul_right d (by omega)
  rw [Nat.add_mul] at h2
  omega

/-- The exponent that `F32.ofRatio` takes. -/
def ratioExp (num den : Nat) : Nat := Nat.log2 (num / den) - 23

/-- The significand that `F32.ofRatio` rounds to. -/
def ratioSig (num den : Nat) : Nat := roundEven num (den * 2 ^ ratioExp num den)

theorem F32.ofRatio_eq (neg : Bool) (num den : Nat) :
    F32.ofRatio neg num den = F32.pack neg (ratioExp num den * 2 ^ 23 + ratioSig num den) := rfl

/-- The quotient lies below 2^(e + 24), and at or above 2^(e + 23) unless e is 0. -/
theorem ratioExp_bounds (num den : Nat) (hd : 0 < den) :
    num < 2 ^ 24 * (den * 2 ^ ratioExp num den) ∧
    (ratioExp num den = 0 ∨ 2 ^ 23 * (den * 2 ^ ratioExp num den) ≤ num) := by
  unfold ratioExp
  by_cases hq : num / den = 0
  · have : num < den := by
      rcases Nat.div_eq_zero_iff.1 hq with h | h <;> omega
    rw [hq]
    simp only [show Nat.log2 0 - 23 = 0 by decide, Nat.pow_zero, Nat.mul_one]
    exact ⟨by omega, .inl trivial⟩
  · have h1 : num / den < 2 ^ (Nat.log2 (num / den) + 1) := Nat.lt_log2_self
    have h2 : 2 ^ Nat.log2 (num / den) ≤ num / den := Nat.log2_self_le hq
    generalize Nat.log2 (num / den) = L at h1 h2
    have h3 : num < 2 ^ (L + 1) * den := (Nat.div_lt_iff_lt_mul hd).1 h1
    have h4 : 2 ^ L * den ≤ num := (Nat.le_div_iff_mul_le hd).1 h2
    by_cases hL : L ≤ 23
    · have : L - 23 = 0 := by omega
      rw [this]
      refine ⟨?_, .inl rfl⟩
      have h5 : (2 : Nat) ^ (L + 1) ≤ 2 ^ 24 := Nat.pow_le_pow_right (by decide) (by omega)
      have h6 := Nat.mul_le_mul_right den h5
      simp only [Nat.pow_zero, Nat.mul_one]
      omega
    · have e1 : (2 : Nat) ^ (L + 1) = 2 ^ 24 * 2 ^ (L - 23) := by rw [← Nat.pow_add]; congr 1; omega
      have e2 : (2 : Nat) ^ L = 2 ^ 23 * 2 ^ (L - 23) := by rw [← Nat.pow_add]; congr 1; omega
      rw [e1] at h3
      rw [e2] at h4
      refine ⟨by rw [Nat.mul_comm den, ← Nat.mul_assoc]; exact h3, .inr ?_⟩
      rw [Nat.mul_comm den, ← Nat.mul_assoc]
      exact h4

theorem ratioSig_bounds (num den : Nat) (hd : 0 < den) :
    ratioSig num den ≤ 2 ^ 24 ∧ (ratioExp num den = 0 ∨ 2 ^ 23 ≤ ratioSig num den) := by
  obtain ⟨h1, h2⟩ := ratioExp_bounds num den hd
  have hp : 0 < den * 2 ^ ratioExp num den := Nat.mul_pos hd (Nat.two_pow_pos _)
  refine ⟨roundEven_le _ _ _ hp (Nat.le_of_lt h1), ?_⟩
  rcases h2 with h2 | h2
  · exact .inl h2
  · exact .inr (le_roundEven _ _ _ hp h2)

/-- The magnitude of a rounded quotient: its significand times its power of two. -/
theorem F32.magnitude_ofRatio (neg : Bool) (num den : Nat) (hd : 0 < den)
    (hf : F32.isFinite (F32.ofRatio neg num den) = true) :
    F32.magnitude (F32.ofRatio neg num den) = ratioSig num den * 2 ^ ratioExp num den := by
  rw [F32.ofRatio_eq] at hf ⊢
  rw [F32.isFinite_pack] at hf
  rw [F32.magnitude_pack _ _ hf]
  obtain ⟨h1, h2⟩ := ratioSig_bounds num den hd
  exact magOf_field _ _ h1 h2

theorem F32.sign_ofRatio (neg : Bool) (num den : Nat) : F32.sign (F32.ofRatio neg num den) = neg := by
  rw [F32.ofRatio_eq, F32.sign_pack]

/-- A representable quotient below 2^128 is exact: num = den * m * 2^k with m below 2^24. -/
theorem F32.ofRatio_exact (neg : Bool) (m k den : Nat) (hd : 0 < den) (hm : m < 2 ^ 24) (hk : k ≤ 253) :
    F32.isFinite (F32.ofRatio neg (m * 2 ^ k * den) den) = true ∧
    F32.magnitude (F32.ofRatio neg (m * 2 ^ k * den) den) = m * 2 ^ k := by
  obtain ⟨h1, h2⟩ := ratioExp_bounds (m * 2 ^ k * den) den hd
  have hle : ratioExp (m * 2 ^ k * den) den ≤ k := by
    rcases h2 with h2 | h2
    · omega
    · by_contra hc
      have h3 : (2 : Nat) ^ (k + 1) ≤ 2 ^ ratioExp (m * 2 ^ k * den) den :=
        Nat.pow_le_pow_right (by decide) (by omega)
      have h4 : 2 ^ 23 * (den * 2 ^ (k + 1)) ≤ m * 2 ^ k * den :=
        Nat.le_trans (Nat.mul_le_mul_left _ (Nat.mul_le_mul_left _ h3)) h2
      have h5 : m * 2 ^ k * den < 2 ^ 24 * 2 ^ k * den :=
        Nat.mul_lt_mul_of_pos_right (Nat.mul_lt_mul_of_pos_right hm (Nat.two_pow_pos _)) hd
      have h6 : 2 ^ 23 * (den * 2 ^ (k + 1)) = 2 ^ 24 * 2 ^ k * den := by rw [Nat.pow_succ 2 k]; ring
      omega
  have hsig : ratioSig (m * 2 ^ k * den) den * 2 ^ ratioExp (m * 2 ^ k * den) den = m * 2 ^ k := by
    unfold ratioSig
    generalize ratioExp (m * 2 ^ k * den) den = e at hle
    have he : m * 2 ^ k * den = m * 2 ^ (k - e) * (den * 2 ^ e) := by
      have : (2 : Nat) ^ k = 2 ^ (k - e) * 2 ^ e := by rw [← Nat.pow_add]; congr 1; omega
      rw [this]; ring
    rw [he, roundEven_exact _ _ (Nat.mul_pos hd (Nat.two_pow_pos _))]
    rw [Nat.mul_assoc, ← Nat.pow_add]
    congr 2
    omega
  have hfin : F32.isFinite (F32.ofRatio neg (m * 2 ^ k * den) den) = true := by
    rw [F32.ofRatio_eq, F32.isFinite_pack]
    obtain ⟨b1, b2⟩ := ratioSig_bounds (m * 2 ^ k * den) den hd
    generalize ratioExp (m * 2 ^ k * den) den = e at *
    generalize ratioSig (m * 2 ^ k * den) den = g at *
    by_cases he : e ≤ 252
    · omega
    · have he2 : e = 253 := by omega
      have hk2 : k = 253 := by omega
      subst he2; subst hk2
      have : g = m := Nat.eq_of_mul_eq_mul_right (Nat.two_pow_pos 253) hsig
      omega
  exact ⟨hfin, by rw [F32.magnitude_ofRatio neg _ den hd hfin, hsig]⟩

/-- Every finite magnitude is a significand below 2^24 times a power of two. -/
theorem F32.magnitude_form (f : F32) (hf : F32.isFinite f = true) :
    ∃ e m, F32.magnitude f = m * 2 ^ e ∧ m < 2 ^ 24 ∧ e ≤ 253 := by
  rw [F32.isFinite_iff] at hf
  rw [F32.magnitude_eq]
  obtain ⟨e, m, h1, h2, h3, h4⟩ := magOf_form (F32.magField f)
  refine ⟨e, m, h1, h2, ?_⟩
  omega

end Sys2Proof.Machine
end

