-- ==== Sys2Proof/Laws/Memory.lean ====
section
/-! SUPPORT. The laws of memory: every operation keeps the canonical form, a read after a write gives the value
written, and a write leaves every other byte alone. -/

namespace Sys2Proof.Machine

/-- A byte below every listed address is unlisted. -/
theorem Memory.read_of_lt (m : Memory) (a : Nat) (h : ∀ c ∈ m, a < c.1) : m.read a = Memory.unlisted a := by
  induction m with
  | nil => rfl
  | cons c rest ih =>
    have hc : a < c.1 := h c (by simp)
    have hne : a ≠ c.1 := by omega
    simp only [Memory.read, hne, if_false]
    exact ih (fun d hd => h d (by simp [hd]))

/-- The addresses of a memory after a write: the old ones and perhaps the written one. -/
theorem Memory.mem_write (m : Memory) (a : Nat) (v : Byte) (c : Host.Cell) (h : c ∈ m.write a v) :
    c ∈ m ∨ (c = (a, v) ∧ v ≠ Memory.unlisted a) := by
  induction m with
  | nil =>
    by_cases hv : v = Memory.unlisted a
    · simp [Memory.write, hv] at h
    · simp [Memory.write, hv] at h
      exact .inr ⟨h, hv⟩
  | cons d rest ih =>
    obtain ⟨b, u⟩ := d
    unfold Memory.write at h
    split at h
    · split at h
      · exact .inl h
      · rename_i hv
        rcases List.mem_cons.1 h with rfl | h
        · exact .inr ⟨rfl, hv⟩
        · exact .inl h
    · split at h
      · split at h
        · exact .inl (List.mem_cons_of_mem _ h)
        · rename_i hv
          rcases List.mem_cons.1 h with rfl | h
          · exact .inr ⟨rfl, hv⟩
          · exact .inl (List.mem_cons_of_mem _ h)
      · rcases List.mem_cons.1 h with rfl | h
        · exact .inl (by simp)
        · rcases ih h with h | h
          · exact .inl (List.mem_cons_of_mem _ h)
          · exact .inr h

/-- The tail of a canonical memory is canonical. -/
theorem Memory.wf_tail {c : Host.Cell} {rest : Memory} (h : Memory.wf (c :: rest)) : Memory.wf rest :=
  ⟨(List.pairwise_cons.1 h.1).2, fun d hd => h.2 d (List.mem_cons_of_mem _ hd)⟩

/-- A write keeps the canonical form. -/
theorem Memory.write_wf (m : Memory) (a : Nat) (v : Byte) (h : m.wf) : (m.write a v).wf := by
  refine ⟨?_, ?_⟩
  · induction m with
    | nil => unfold Memory.write; split <;> simp
    | cons d rest ih =>
      obtain ⟨b, u⟩ := d
      obtain ⟨hb, hrest⟩ := List.pairwise_cons.1 h.1
      unfold Memory.write
      split
      · rename_i hab
        split
        · exact h.1
        · refine List.pairwise_cons.2 ⟨?_, h.1⟩
          intro c hc
          rcases List.mem_cons.1 hc with rfl | hc
          · exact hab
          · exact Nat.lt_trans hab (hb c hc)
      · rename_i hab
        split
        · rename_i heq
          split
          · exact hrest
          · refine List.pairwise_cons.2 ⟨?_, hrest⟩
            intro c hc
            have := hb c hc
            simp only at this ⊢
            omega
        · rename_i hne
          refine List.pairwise_cons.2 ⟨?_, ih (Memory.wf_tail h)⟩
          intro c hc
          rcases Memory.mem_write rest a v c hc with hc | ⟨rfl, _⟩
          · exact hb c hc
          · show b < a
            omega
  · intro c hc
    rcases Memory.mem_write m a v c hc with hc | ⟨rfl, hv⟩
    · exact h.2 c hc
    · exact hv

/-- A read after a write: the written value at its address, the old value everywhere else. -/
theorem Memory.read_write (m : Memory) (a b : Nat) (v : Byte) (h : m.wf) :
    (m.write a v).read b = if b = a then v else m.read b := by
  induction m with
  | nil =>
    unfold Memory.write
    split
    · rename_i hv
      by_cases hb : b = a
      · simp [Memory.read, hb, hv]
      · simp [Memory.read, hb]
    · by_cases hb : b = a <;> simp [Memory.read, hb]
  | cons d rest ih =>
    obtain ⟨x, u⟩ := d
    obtain ⟨hx, hrest⟩ := List.pairwise_cons.1 h.1
    unfold Memory.write
    split
    · rename_i hax
      split
      · rename_i hv
        by_cases hb : b = a
        · subst hb
          rw [Memory.read_of_lt]
          · simp [hv]
          · intro c hc
            rcases List.mem_cons.1 hc with rfl | hc
            · exact hax
            · exact Nat.lt_trans hax (hx c hc)
        · simp [hb]
      · by_cases hb : b = a <;> simp [Memory.read, hb]
    · rename_i hax
      split
      · rename_i heq
        subst heq
        split
        · rename_i hv
          by_cases hb : b = a
          · subst hb
            rw [Memory.read_of_lt rest b (fun c hc => hx c hc)]
            simp [hv]
          · simp [Memory.read, hb]
        · by_cases hb : b = a <;> simp [Memory.read, hb]
      · rename_i hne
        by_cases hb : b = x
        · subst hb
          have : b ≠ a := fun e => hne e.symm
          simp [Memory.read, this]
        · simp only [Memory.read, hb, if_false]
          exact ih (Memory.wf_tail h)

/-- A write inside the DMA space keeps a memory inside it. -/
theorem Memory.write_inSpace (m : Memory) (a : Nat) (v : Byte) (h : m.inSpace) (ha : a < dmaSize) :
    (m.write a v).inSpace := by
  intro c hc
  rcases Memory.mem_write m a v c hc with hc | ⟨rfl, _⟩
  · exact h c hc
  · exact ha

/-- Writes of a list of bytes keep the canonical form. -/
theorem Memory.writeCells_wf (cells : List Host.Cell) : ∀ m : Memory, m.wf → (m.writeCells cells).wf := by
  induction cells with
  | nil => intro m h; exact h
  | cons c rest ih => intro m h; exact ih _ (Memory.write_wf m c.1 c.2 h)

/-- Writes inside the DMA space keep a memory inside it. -/
theorem Memory.writeCells_inSpace (cells : List Host.Cell) (hc : ∀ c ∈ cells, c.1 < dmaSize) :
    ∀ m : Memory, m.inSpace → (m.writeCells cells).inSpace := by
  induction cells with
  | nil => intro m h; exact h
  | cons c rest ih =>
    intro m h
    exact ih (fun d hd => hc d (List.mem_cons_of_mem _ hd)) _
      (Memory.write_inSpace m c.1 c.2 h (hc c (by simp)))

/-- Writes of a list of bytes leave every other byte alone. -/
theorem Memory.read_writeCells_of_not_mem (cells : List Host.Cell) (a : Nat) (hc : ∀ c ∈ cells, c.1 ≠ a) :
    ∀ m : Memory, m.wf → (m.writeCells cells).read a = m.read a := by
  induction cells with
  | nil => intro m _; rfl
  | cons c rest ih =>
    intro m h
    have hne : a ≠ c.1 := fun e => hc c (by simp) e.symm
    refine (ih (fun d hd => hc d (List.mem_cons_of_mem _ hd)) _ (Memory.write_wf m c.1 c.2 h)).trans ?_
    rw [Memory.read_write m c.1 a c.2 h, if_neg hne]

/-- Writes of a list of bytes at distinct addresses leave each of them at its address. -/
theorem Memory.read_writeCells_of_mem (cells : List Host.Cell) (hd : cells.Pairwise (fun c d => c.1 ≠ d.1))
    (c : Host.Cell) (hc : c ∈ cells) : ∀ m : Memory, m.wf → (m.writeCells cells).read c.1 = c.2 := by
  induction cells with
  | nil => simp at hc
  | cons d rest ih =>
    intro m h
    obtain ⟨hd1, hd2⟩ := List.pairwise_cons.1 hd
    rcases List.mem_cons.1 hc with rfl | hc
    · refine (Memory.read_writeCells_of_not_mem rest c.1 (fun e he => (hd1 e he).symm) _
        (Memory.write_wf m c.1 c.2 h)).trans ?_
      rw [Memory.read_write m c.1 c.1 c.2 h, if_pos rfl]
    · exact ih hd2 hc _ (Memory.write_wf m d.1 d.2 h)

/-- Optional writes keep the canonical form. -/
theorem Memory.writeSome_wf (cells : List Host.Cell) : ∀ (m : Memory) (n : Nat), m.wf → (m.writeSome n cells).wf := by
  induction cells with
  | nil => intro m n h; exact h
  | cons c rest ih =>
    intro m n h
    refine ih _ _ ?_
    split
    · exact Memory.write_wf m c.1 c.2 h
    · exact h

/-- Optional writes inside the DMA space keep a memory inside it. -/
theorem Memory.writeSome_inSpace (cells : List Host.Cell) (hc : ∀ c ∈ cells, c.1 < dmaSize) :
    ∀ (m : Memory) (n : Nat), m.inSpace → (m.writeSome n cells).inSpace := by
  induction cells with
  | nil => intro m n h; exact h
  | cons c rest ih =>
    intro m n h
    refine ih (fun d hd => hc d (List.mem_cons_of_mem _ hd)) _ _ ?_
    split
    · exact Memory.write_inSpace m c.1 c.2 h (hc c (by simp))
    · exact h

/-- After optional writes every byte is as it was, or is one of the listed bytes. -/
theorem Memory.read_writeSome (cells : List Host.Cell) (a : Nat) : ∀ (m : Memory) (n : Nat), m.wf →
    (m.writeSome n cells).read a = m.read a ∨ (a, (m.writeSome n cells).read a) ∈ cells := by
  induction cells with
  | nil => intro m n _; exact .inl rfl
  | cons c rest ih =>
    intro m n h
    unfold Memory.writeSome
    split
    · rcases ih (m.write c.1 c.2) (n + 1) (Memory.write_wf m c.1 c.2 h) with h1 | h1
      · by_cases ha : a = c.1
        · right
          rw [h1, Memory.read_write m c.1 a c.2 h, if_pos ha, ha]
          simp
        · left
          rw [h1, Memory.read_write m c.1 a c.2 h, if_neg ha]
      · exact .inr (List.mem_cons_of_mem _ h1)
    · rcases ih m (n + 1) h with h1 | h1
      · exact .inl h1
      · exact .inr (List.mem_cons_of_mem _ h1)

/-- Free writes keep the canonical form. -/
theorem Memory.writeFree_wf (addrs : List Nat) : ∀ (m : Memory) (n : Nat), m.wf → (m.writeFree n addrs).wf := by
  induction addrs with
  | nil => intro m n h; exact h
  | cons a rest ih => intro m n h; exact ih _ _ (Memory.write_wf m a _ h)

/-- Free writes inside the DMA space keep a memory inside it. -/
theorem Memory.writeFree_inSpace (addrs : List Nat) (ha : ∀ a ∈ addrs, a < dmaSize) :
    ∀ (m : Memory) (n : Nat), m.inSpace → (m.writeFree n addrs).inSpace := by
  induction addrs with
  | nil => intro m n h; exact h
  | cons a rest ih =>
    intro m n h
    exact ih (fun b hb => ha b (List.mem_cons_of_mem _ hb)) _ _ (Memory.write_inSpace m a _ h (ha a (by simp)))

/-- Free writes leave every byte outside their addresses alone. -/
theorem Memory.read_writeFree_of_not_mem (addrs : List Nat) (a : Nat) (ha : a ∉ addrs) :
    ∀ (m : Memory) (n : Nat), m.wf → (m.writeFree n addrs).read a = m.read a := by
  induction addrs with
  | nil => intro m n _; rfl
  | cons b rest ih =>
    intro m n h
    have hne : a ≠ b := fun e => ha (by simp [e])
    refine (ih (fun hb => ha (List.mem_cons_of_mem _ hb)) _ _ (Memory.write_wf m b _ h)).trans ?_
    rw [Memory.read_write m b a _ h, if_neg hne]

/-- Free writes at distinct addresses: each address holds the free value of its place in the list. -/
theorem Memory.read_writeFree_of_getElem (addrs : List Nat) (hd : addrs.Nodup) (a : Nat) :
    ∀ (k : Nat) (m : Memory) (n : Nat), m.wf → addrs[k]? = some a →
      (m.writeFree n addrs).read a = Config.freeByte (n + k) := by
  induction addrs with
  | nil => intro k m n _ h; simp at h
  | cons b rest ih =>
    intro k m n h hk
    obtain ⟨hb, hrest⟩ := List.nodup_cons.1 hd
    have hwf := Memory.write_wf m b (Config.freeByte n) h
    cases k with
    | zero =>
      have hab : b = a := by simpa using hk
      subst hab
      refine (Memory.read_writeFree_of_not_mem rest b hb _ _ hwf).trans ?_
      rw [Memory.read_write m b b _ h, if_pos rfl]
      rfl
    | succ k =>
      have := ih hrest k _ (n + 1) hwf (by simpa using hk)
      rw [Nat.add_right_comm] at this
      exact this

end Sys2Proof.Machine
end

