-- ==== Sys2Proof/Laws/Frame.lean ====
section
/-! SUPPORT. The laws of FRAME: what validation guarantees, the choice of the next pixel, and where a pixel's bytes
lie. -/

namespace Sys2Proof.Machine

/-! ### The list of completed pixels -/

theorem mem_insertIndex (i a : Nat) (d : List Nat) : a ∈ insertIndex i d ↔ a = i ∨ a ∈ d := by
  induction d with
  | nil => simp [insertIndex]
  | cons x xs ih =>
    unfold insertIndex
    split
    · simp
    · split
      · rename_i h; subst h; simp
      · simp only [List.mem_cons, ih]; tauto

theorem insertIndex_sorted (i : Nat) (d : List Nat) (h : d.Pairwise (· < ·)) :
    (insertIndex i d).Pairwise (· < ·) := by
  induction d with
  | nil => simp [insertIndex]
  | cons x xs ih =>
    obtain ⟨h1, h2⟩ := List.pairwise_cons.1 h
    unfold insertIndex
    split
    · rename_i hix
      refine List.pairwise_cons.2 ⟨?_, h⟩
      intro b hb
      rcases List.mem_cons.1 hb with rfl | hb
      · exact hix
      · exact Nat.lt_trans hix (h1 b hb)
    · split
      · exact h
      · refine List.pairwise_cons.2 ⟨?_, ih h2⟩
        intro b hb
        rcases (mem_insertIndex i b xs).1 hb with rfl | hb
        · omega
        · exact h1 b hb

theorem insertIndex_length (i : Nat) (d : List Nat) (hi : i ∉ d) : (insertIndex i d).length = d.length + 1 := by
  induction d with
  | nil => simp [insertIndex]
  | cons x xs ih =>
    unfold insertIndex
    split
    · simp
    · split
      · rename_i h; exact absurd (by simp [h]) hi
      · simp only [List.length_cons]
        rw [ih (fun h => hi (List.mem_cons_of_mem _ h))]

theorem nthFree_bounds (d : List Nat) : ∀ base k, d.Pairwise (· < ·) → (∀ x ∈ d, base ≤ x) →
    base ≤ nthFree base d k ∧ nthFree base d k ≤ base + k + d.length ∧ nthFree base d k ∉ d := by
  induction d with
  | nil => intro base k _ _; simp [nthFree]
  | cons x xs ih =>
    intro base k h hb
    obtain ⟨h1, h2⟩ := List.pairwise_cons.1 h
    have hx := hb x (by simp)
    unfold nthFree
    split
    · rename_i hk
      refine ⟨by omega, by simp only [List.length_cons]; omega, ?_⟩
      intro hm
      rcases List.mem_cons.1 hm with hm | hm
      · omega
      · have := h1 _ hm; omega
    · rename_i hk
      obtain ⟨a1, a2, a3⟩ := ih (x + 1) (k - (x - base)) h2 (fun y hy => h1 y hy)
      refine ⟨by omega, by simp only [List.length_cons]; omega, ?_⟩
      intro hm
      rcases List.mem_cons.1 hm with hm | hm
      · omega
      · exact a3 hm

/-- Every index not completed can be the one picked: the choice is free (20_memory.md R71). -/
theorem nthFree_surjective (d : List Nat) : ∀ base i, d.Pairwise (· < ·) → (∀ x ∈ d, base ≤ x) → base ≤ i → i ∉ d →
    ∃ k, nthFree base d k = i ∧ k + base + (d.filter (· < i)).length = i := by
  induction d with
  | nil => intro base i _ _ hi _; exact ⟨i - base, by simp [nthFree]; omega, by simp; omega⟩
  | cons x xs ih =>
    intro base i h hb hi hm
    obtain ⟨h1, h2⟩ := List.pairwise_cons.1 h
    have hx := hb x (by simp)
    have hne : i ≠ x := fun e => hm (by simp [e])
    by_cases hlt : i < x
    · refine ⟨i - base, ?_, ?_⟩
      · unfold nthFree
        rw [if_pos (by omega)]
        omega
      · have : (x :: xs).filter (· < i) = [] := by
          refine List.filter_eq_nil_iff.2 ?_
          intro y hy
          rcases List.mem_cons.1 hy with rfl | hy
          · simp; omega
          · have := h1 y hy; simp; omega
        rw [this]; simp; omega
    · obtain ⟨k, hk1, hk2⟩ := ih (x + 1) i h2 (fun y hy => h1 y hy) (by omega)
        (fun hh => hm (List.mem_cons_of_mem _ hh))
      refine ⟨k + (x - base), ?_, ?_⟩
      · unfold nthFree
        rw [if_neg (by omega)]
        rw [show k + (x - base) - (x - base) = k by omega]
        exact hk1
      · have hxi : x < i := by omega
        simp only [List.filter_cons, hxi, decide_true, if_true, List.length_cons]
        omega

/-- A rising list of indices below n has at most n of them. -/
theorem sorted_length_le (d : List Nat) (n : Nat) (h : d.Pairwise (· < ·)) (hn : ∀ i ∈ d, i < n) : d.length ≤ n := by
  have hnd : d.Nodup := h.imp (fun hab => Nat.ne_of_lt hab)
  have := List.Nodup.length_le_card (α := Fin n) (l := d.attach.map (fun i => ⟨i.1, hn i.1 i.2⟩)) (by
    refine List.Nodup.map_on ?_ (List.nodup_attach.2 hnd)
    intro a _ b _ hab
    exact Subtype.ext (by simpa using hab))
  simpa using this

/-- A rising list of n indices below n holds each of them. -/
theorem sorted_full (d : List Nat) (n : Nat) (h : d.Pairwise (· < ·)) (hn : ∀ i ∈ d, i < n) (hl : n ≤ d.length)
    (i : Nat) (hi : i < n) : i ∈ d := by
  by_contra hm
  have h1 := insertIndex_length i d hm
  have h2 := sorted_length_le (insertIndex i d) n (insertIndex_sorted i d h) (by
    intro a ha
    rcases (mem_insertIndex i a d).1 ha with rfl | ha
    · exact hi
    · exact hn a ha)
  omega

/-- The picked index is one of those not completed. -/
theorem Job.pick_spec (j : Job) (d : List Nat) (n : Nat) (h : d.Pairwise (· < ·)) (hl : d.length < j.count) :
    j.pick d n < j.count ∧ j.pick d n ∉ d := by
  have hpos : 0 < j.count - d.length := by omega
  have hmod := Nat.mod_lt (Config.freePick n) hpos
  obtain ⟨_, a2, a3⟩ := nthFree_bounds d 0 (Config.freePick n % (j.count - d.length)) h (fun _ _ => Nat.zero_le _)
  refine ⟨?_, a3⟩
  have : j.pick d n = nthFree 0 d (Config.freePick n % (j.count - d.length)) := rfl
  omega

/-! ### What validation guarantees -/

/-- The facts that the validation of FRAME establishes (43_pipeline.md R165). -/
structure Job.Valid (j : Job) : Prop where
  width_pos : 0 < j.width
  height_pos : 0 < j.height
  width_lt : j.width < 2 ^ 16
  height_lt : j.height < 2 ^ 16
  src_fits : j.src + j.path.channels * j.count ≤ dmaSize
  dst_fits : j.dst + 4 * j.count ≤ dmaSize
  pk_fits : j.pk + 2 * j.count ≤ dmaSize
  pk_even : j.pk % 2 = 0
  src_dst : j.src + j.path.channels * j.count ≤ j.dst ∨ j.dst + 4 * j.count ≤ j.src
  src_pk : j.src + j.path.channels * j.count ≤ j.pk ∨ j.pk + 2 * j.count ≤ j.src
  dst_pk : j.dst + 4 * j.count ≤ j.pk ∨ j.pk + 2 * j.count ≤ j.dst

theorem FramePath.channels_pos (p : FramePath) : 0 < p.channels := by cases p <;> decide

theorem Region.meets_false {g h : Region} (hg : 0 < g.size) (hh : 0 < h.size) (hm : g.meets h = false) :
    g.base + g.size ≤ h.base ∨ h.base + h.size ≤ g.base := by
  simp only [Region.meets, hg, hh, decide_true, Bool.true_and, Bool.and_eq_false_iff, decide_eq_false_iff_not] at hm
  omega

/-- Validation answers a frame only when every check of R165 passes. -/
theorem frameJob_ok {l : Latch} {j : Job} (h : frameJob l = .ok j) :
    j.Valid ∧ ∃ path, framePath l.frCh = some path ∧ j = frameJobOf l path := by
  unfold frameJob at h
  split at h
  · cases h
  rename_i path hp
  simp only at h
  split at h
  · cases h
  rename_i hdim
  split at h
  · cases h
  rename_i hfar
  split at h
  · cases h
  rename_i hodd
  split at h
  · cases h
  rename_i hover
  cases h
  refine ⟨?_, path, hp, rfl⟩
  simp only [Bool.or_eq_true, decide_eq_true_eq, not_or] at hdim
  simp only [Job.regions, List.any_cons, List.any_nil, Bool.or_false, Bool.or_eq_true, Region.tooFar,
    decide_eq_true_eq, not_or, Nat.not_lt] at hfar
  simp only [Bool.or_eq_true, not_or, Bool.not_eq_true] at hover
  have hw : 0 < (frameJobOf l path).width := Nat.pos_of_ne_zero hdim.1
  have hh : 0 < (frameJobOf l path).height := Nat.pos_of_ne_zero hdim.2
  have hn : 0 < (frameJobOf l path).count := Nat.mul_pos hw hh
  have hc : 0 < (frameJobOf l path).path.channels * (frameJobOf l path).count :=
    Nat.mul_pos (FramePath.channels_pos _) hn
  obtain ⟨⟨ho1, ho2⟩, ho3⟩ := hover
  refine ⟨hw, hh, ?_, ?_, hfar.1, hfar.2.1, hfar.2.2, ?_, ?_, ?_, ?_⟩
  · exact (l.frDim.extractLsb' 0 16).isLt
  · exact (l.frDim.extractLsb' 16 16).isLt
  · have : l.frPk.toNat.testBit 0 = false := by
      simpa [BitVec.getLsbD] using hodd
    have h2 : l.frPk.toNat % 2 = 0 := by
      rw [Nat.testBit_zero] at this
      simpa using this
    exact h2
  · exact Region.meets_false (g := (frameJobOf l path).srcRegion) (h := (frameJobOf l path).dstRegion) hc
      (by show 0 < 4 * _; omega) ho1
  · exact Region.meets_false (g := (frameJobOf l path).srcRegion) (h := (frameJobOf l path).pkRegion) hc
      (by show 0 < 2 * _; omega) ho2
  · exact Region.meets_false (g := (frameJobOf l path).dstRegion) (h := (frameJobOf l path).pkRegion)
      (by show 0 < 4 * _; omega) (by show 0 < 2 * _; omega) ho3

/-- The frame of a running command is what validation answers for its latch. -/
theorem Running.frame_some {r : Running} {j : Job} (h : r.frame = some j) :
    decode r.latch.word = .instr .frame ∧ frameJob r.latch = .ok j := by
  unfold Running.frame at h
  split at h
  · rename_i hd
    split at h
    · rename_i j' hj
      cases h
      exact ⟨hd, hj⟩
    · cases h
  · cases h

/-- A running FRAME that passes validation has its frame. -/
theorem Running.frame_of {r : Running} {j : Job} (hd : decode r.latch.word = .instr .frame)
    (hj : frameJob r.latch = .ok j) : r.frame = some j := by
  unfold Running.frame
  rw [hd]
  simp [hj]

/-! ### Where a pixel's bytes lie -/

theorem Region.has_iff (g : Region) (a : Nat) : g.has a = true ↔ g.base ≤ a ∧ a < g.base + g.size := by
  simp [Region.has]

theorem Region.has_false_iff (g : Region) (a : Nat) : g.has a = false ↔ a < g.base ∨ g.base + g.size ≤ a := by
  rw [← Bool.not_eq_true, Region.has_iff]
  omega

theorem Job.src_has (j : Job) (a : Nat) : j.srcRegion.has a = true ↔
    j.src ≤ a ∧ a < j.src + j.path.channels * j.count := Region.has_iff _ _

theorem Job.dst_has (j : Job) (a : Nat) : j.dstRegion.has a = true ↔ j.dst ≤ a ∧ a < j.dst + 4 * j.count :=
  Region.has_iff _ _

theorem Job.pk_has (j : Job) (a : Nat) : j.pkRegion.has a = true ↔ j.pk ≤ a ∧ a < j.pk + 2 * j.count :=
  Region.has_iff _ _

@[simp] theorem Job.cells_addrs (j : Job) (m : Memory) (i : Nat) : (j.cells m i).map (·.1) = j.outAddrs i := rfl

theorem Job.mem_outAddrs {j : Job} {i a : Nat} : a ∈ j.outAddrs i ↔
    (j.pk + 2 * i ≤ a ∧ a < j.pk + 2 * i + 2) ∨ (j.dst + 4 * i ≤ a ∧ a < j.dst + 4 * i + 4) := by
  simp only [Job.outAddrs, List.mem_cons, List.not_mem_nil, or_false]
  omega

theorem Job.cell_addr {j : Job} {m : Memory} {i : Nat} {c : Host.Cell} (h : c ∈ j.cells m i) : c.1 ∈ j.outAddrs i := by
  rw [← Job.cells_addrs j m i]
  exact List.mem_map_of_mem h

/-- The output bytes of a pixel lie in the two output buffers. -/
theorem Job.outAddrs_region {j : Job} {i a : Nat} (hi : i < j.count) (h : a ∈ j.outAddrs i) :
    j.pkRegion.has a = true ∨ j.dstRegion.has a = true := by
  rw [Job.mem_outAddrs] at h
  rw [Job.pk_has, Job.dst_has]
  omega

/-- Every byte of the two output buffers is an output byte of a pixel. -/
theorem Job.region_outAddrs {j : Job} {a : Nat} (h : j.pkRegion.has a = true ∨ j.dstRegion.has a = true) :
    ∃ i, i < j.count ∧ a ∈ j.outAddrs i := by
  rw [Job.pk_has, Job.dst_has] at h
  rcases h with h | h
  · exact ⟨(a - j.pk) / 2, by omega, Job.mem_outAddrs.2 (.inl (by omega))⟩
  · exact ⟨(a - j.dst) / 4, by omega, Job.mem_outAddrs.2 (.inr (by omega))⟩

theorem Job.Valid.outAddrs_lt {j : Job} (v : j.Valid) {i a : Nat} (hi : i < j.count) (h : a ∈ j.outAddrs i) :
    a < dmaSize := by
  have h1 := v.dst_fits
  have h2 := v.pk_fits
  rw [Job.mem_outAddrs] at h
  omega

/-- No output byte of a pixel is an input byte. -/
theorem Job.Valid.outAddrs_not_src {j : Job} (v : j.Valid) {i a : Nat} (hi : i < j.count) (h : a ∈ j.outAddrs i) :
    j.srcRegion.has a = false := by
  have h1 := v.src_dst
  have h2 := v.src_pk
  rw [Job.mem_outAddrs] at h
  rw [← Bool.not_eq_true, Job.src_has]
  omega

/-- Two pixels share no output byte. -/
theorem Job.Valid.outAddrs_disjoint {j : Job} (v : j.Valid) {i k a : Nat} (hi : i < j.count) (hk : k < j.count)
    (hne : i ≠ k) (h : a ∈ j.outAddrs i) : a ∉ j.outAddrs k := by
  have h1 := v.dst_pk
  rw [Job.mem_outAddrs] at h ⊢
  omega

/-- The six output bytes of a pixel have distinct addresses. -/
theorem Job.Valid.cells_distinct {j : Job} (v : j.Valid) (m : Memory) {i : Nat} (hi : i < j.count) :
    (j.cells m i).Pairwise (fun c d => c.1 ≠ d.1) := by
  have h1 := v.dst_pk
  simp only [Job.cells, List.pairwise_cons, List.mem_cons, List.not_mem_nil, or_false, forall_eq_or_imp, forall_eq,
    false_imp_iff, implies_true, List.Pairwise.nil, and_true]
  omega

/-- The input bytes of a pixel lie in the input buffer. -/
theorem Job.inputAddr_src {j : Job} {i c : Nat} (hi : i < j.count) (hc : c < j.path.channels) :
    j.srcRegion.has (j.inputAddr i c) = true := by
  have h : j.path.channels * i + j.path.channels ≤ j.path.channels * j.count := by
    rw [← Nat.mul_succ]; exact Nat.mul_le_mul_left _ hi
  rw [Job.src_has]
  unfold Job.inputAddr
  omega

/-- What a pixel computes depends on its input bytes only. -/
theorem Job.cells_congr {j : Job} {m m' : Memory} {i : Nat} (hi : i < j.count)
    (h : ∀ a, j.srcRegion.has a = true → m.read a = m'.read a) : j.cells m i = j.cells m' i := by
  have hin : j.input m i = j.input m' i := by
    have hr : ∀ c, c < j.path.channels → m.read (j.inputAddr i c) = m'.read (j.inputAddr i c) :=
      fun c hc => h _ (Job.inputAddr_src hi hc)
    unfold Job.input
    cases hp : j.path with
    | rgba4444 =>
      rw [hp] at hr
      simp only [hr 0 (by decide), hr 1 (by decide), hr 2 (by decide), hr 3 (by decide)]
    | rgb565 =>
      rw [hp] at hr
      simp only [hr 0 (by decide), hr 1 (by decide), hr 2 (by decide)]
  unfold Job.cells Job.result
  rw [hin]

/-! ### The list of all output bytes -/

/-- The output bytes of the first n pixels, six for each. -/
theorem Job.allOutAddrs_length (j : Job) (n : Nat) : ((List.range n).flatMap j.outAddrs).length = 6 * n := by
  induction n with
  | zero => rfl
  | succ n ih =>
    rw [List.range_succ, List.flatMap_append, List.length_append, ih, List.flatMap_singleton]
    rfl

/-- The k-th output byte of pixel i stands at place 6 i + k. -/
theorem Job.allOutAddrs_getElem (j : Job) {i k a : Nat} (hk : (j.outAddrs i)[k]? = some a) (n : Nat) (hi : i < n) :
    ((List.range n).flatMap j.outAddrs)[6 * i + k]? = some a := by
  have hk6 : k < 6 := (List.getElem?_eq_some_iff.1 hk).1
  induction n with
  | zero => omega
  | succ n ih =>
    rw [List.range_succ, List.flatMap_append, List.flatMap_singleton]
    by_cases h : i < n
    · rw [List.getElem?_append_left (by rw [Job.allOutAddrs_length]; omega)]
      exact ih h
    · have hin : i = n := by omega
      subst hin
      rw [List.getElem?_append_right (by rw [Job.allOutAddrs_length]; omega), Job.allOutAddrs_length,
        Nat.add_sub_cancel_left]
      exact hk

/-- The output bytes of a valid frame are distinct. -/
theorem Job.Valid.allOutAddrs_nodup {j : Job} (v : j.Valid) (n : Nat) (hn : n ≤ j.count) :
    ((List.range n).flatMap j.outAddrs).Nodup := by
  induction n with
  | zero => exact List.nodup_nil
  | succ n ih =>
    rw [List.range_succ, List.flatMap_append, List.flatMap_singleton]
    refine List.nodup_append.2 ⟨ih (by omega), ?_, ?_⟩
    · have h := v.cells_distinct [] (i := n) (by omega)
      rw [← Job.cells_addrs j [] n]
      exact List.pairwise_map.2 h
    · intro a ha b hb hab
      subst hab
      obtain ⟨i, hi, ha⟩ := List.mem_flatMap.1 ha
      have hin := List.mem_range.1 hi
      exact v.outAddrs_disjoint (i := i) (k := n) (by omega) (by omega) (by omega) ha hb

end Sys2Proof.Machine
end

