-- ==== Sys2Proof/Laws/State.lean ====
section
/-! SUPPORT. One lemma for each field of State under each shared update of the registers. -/

namespace Sys2Proof.Machine

/-! ### `State.recordError` -/

@[simp] theorem State.recordError_ctrl (s : State) (e : ErrorCode) : (s.recordError e).ctrl = s.ctrl := rfl
@[simp] theorem State.recordError_done (s : State) (e : ErrorCode) : (s.recordError e).done = s.done := rfl
@[simp] theorem State.recordError_error (s : State) (e : ErrorCode) : (s.recordError e).error = some (s.error.getD e) := rfl
@[simp] theorem State.recordError_arg0 (s : State) (e : ErrorCode) : (s.recordError e).arg0 = s.arg0 := rfl
@[simp] theorem State.recordError_arg1 (s : State) (e : ErrorCode) : (s.recordError e).arg1 = s.arg1 := rfl
@[simp] theorem State.recordError_arg2 (s : State) (e : ErrorCode) : (s.recordError e).arg2 = s.arg2 := rfl
@[simp] theorem State.recordError_res0 (s : State) (e : ErrorCode) : (s.recordError e).res0 = s.res0 := rfl
@[simp] theorem State.recordError_res1 (s : State) (e : ErrorCode) : (s.recordError e).res1 = s.res1 := rfl
@[simp] theorem State.recordError_res2 (s : State) (e : ErrorCode) : (s.recordError e).res2 = s.res2 := rfl
@[simp] theorem State.recordError_frSrc (s : State) (e : ErrorCode) : (s.recordError e).frSrc = s.frSrc := rfl
@[simp] theorem State.recordError_frDst (s : State) (e : ErrorCode) : (s.recordError e).frDst = s.frDst := rfl
@[simp] theorem State.recordError_frPk (s : State) (e : ErrorCode) : (s.recordError e).frPk = s.frPk := rfl
@[simp] theorem State.recordError_frDim (s : State) (e : ErrorCode) : (s.recordError e).frDim = s.frDim := rfl
@[simp] theorem State.recordError_frCh (s : State) (e : ErrorCode) : (s.recordError e).frCh = s.frCh := rfl
@[simp] theorem State.recordError_phase (s : State) (e : ErrorCode) : (s.recordError e).phase = s.phase := rfl
@[simp] theorem State.recordError_mem (s : State) (e : ErrorCode) : (s.recordError e).mem = s.mem := rfl
@[simp] theorem State.recordError_platform (s : State) (e : ErrorCode) : (s.recordError e).platform = s.platform := rfl
@[simp] theorem State.recordError_agenda (s : State) (e : ErrorCode) : (s.recordError e).agenda = s.agenda := rfl
@[simp] theorem State.recordError_hostData (s : State) (e : ErrorCode) : (s.recordError e).hostData = s.hostData := rfl
@[simp] theorem State.recordError_freeCount (s : State) (e : ErrorCode) : (s.recordError e).freeCount = s.freeCount := rfl

/-! ### `State.writeStatus` -/

@[simp] theorem State.writeStatus_ctrl (s : State) (w : Word) : (s.writeStatus w).ctrl = s.ctrl := rfl
@[simp] theorem State.writeStatus_done (s : State) (w : Word) : (s.writeStatus w).done = (s.done && !w.getLsbD 1) := rfl
@[simp] theorem State.writeStatus_error (s : State) (w : Word) : (s.writeStatus w).error = (if w.getLsbD 2 then none else s.error) := rfl
@[simp] theorem State.writeStatus_arg0 (s : State) (w : Word) : (s.writeStatus w).arg0 = s.arg0 := rfl
@[simp] theorem State.writeStatus_arg1 (s : State) (w : Word) : (s.writeStatus w).arg1 = s.arg1 := rfl
@[simp] theorem State.writeStatus_arg2 (s : State) (w : Word) : (s.writeStatus w).arg2 = s.arg2 := rfl
@[simp] theorem State.writeStatus_res0 (s : State) (w : Word) : (s.writeStatus w).res0 = s.res0 := rfl
@[simp] theorem State.writeStatus_res1 (s : State) (w : Word) : (s.writeStatus w).res1 = s.res1 := rfl
@[simp] theorem State.writeStatus_res2 (s : State) (w : Word) : (s.writeStatus w).res2 = s.res2 := rfl
@[simp] theorem State.writeStatus_frSrc (s : State) (w : Word) : (s.writeStatus w).frSrc = s.frSrc := rfl
@[simp] theorem State.writeStatus_frDst (s : State) (w : Word) : (s.writeStatus w).frDst = s.frDst := rfl
@[simp] theorem State.writeStatus_frPk (s : State) (w : Word) : (s.writeStatus w).frPk = s.frPk := rfl
@[simp] theorem State.writeStatus_frDim (s : State) (w : Word) : (s.writeStatus w).frDim = s.frDim := rfl
@[simp] theorem State.writeStatus_frCh (s : State) (w : Word) : (s.writeStatus w).frCh = s.frCh := rfl
@[simp] theorem State.writeStatus_phase (s : State) (w : Word) : (s.writeStatus w).phase = s.phase := rfl
@[simp] theorem State.writeStatus_mem (s : State) (w : Word) : (s.writeStatus w).mem = s.mem := rfl
@[simp] theorem State.writeStatus_platform (s : State) (w : Word) : (s.writeStatus w).platform = s.platform := rfl
@[simp] theorem State.writeStatus_agenda (s : State) (w : Word) : (s.writeStatus w).agenda = s.agenda := rfl
@[simp] theorem State.writeStatus_hostData (s : State) (w : Word) : (s.writeStatus w).hostData = s.hostData := rfl
@[simp] theorem State.writeStatus_freeCount (s : State) (w : Word) : (s.writeStatus w).freeCount = s.freeCount := rfl

/-! ### `State.accept` -/

@[simp] theorem State.accept_ctrl (s : State) (w : Word) : (s.accept w).ctrl = s.ctrl := rfl
@[simp] theorem State.accept_done (s : State) (w : Word) : (s.accept w).done = false := rfl
@[simp] theorem State.accept_error (s : State) (w : Word) : (s.accept w).error = s.error := rfl
@[simp] theorem State.accept_arg0 (s : State) (w : Word) : (s.accept w).arg0 = s.arg0 := rfl
@[simp] theorem State.accept_arg1 (s : State) (w : Word) : (s.accept w).arg1 = s.arg1 := rfl
@[simp] theorem State.accept_arg2 (s : State) (w : Word) : (s.accept w).arg2 = s.arg2 := rfl
@[simp] theorem State.accept_res0 (s : State) (w : Word) : (s.accept w).res0 = s.res0 := rfl
@[simp] theorem State.accept_res1 (s : State) (w : Word) : (s.accept w).res1 = s.res1 := rfl
@[simp] theorem State.accept_res2 (s : State) (w : Word) : (s.accept w).res2 = s.res2 := rfl
@[simp] theorem State.accept_frSrc (s : State) (w : Word) : (s.accept w).frSrc = s.frSrc := rfl
@[simp] theorem State.accept_frDst (s : State) (w : Word) : (s.accept w).frDst = s.frDst := rfl
@[simp] theorem State.accept_frPk (s : State) (w : Word) : (s.accept w).frPk = s.frPk := rfl
@[simp] theorem State.accept_frDim (s : State) (w : Word) : (s.accept w).frDim = s.frDim := rfl
@[simp] theorem State.accept_frCh (s : State) (w : Word) : (s.accept w).frCh = s.frCh := rfl
@[simp] theorem State.accept_phase (s : State) (w : Word) : (s.accept w).phase = .busy { latch := s.capture w, disturbed := false, progress := none } := rfl
@[simp] theorem State.accept_mem (s : State) (w : Word) : (s.accept w).mem = s.mem := rfl
@[simp] theorem State.accept_platform (s : State) (w : Word) : (s.accept w).platform = s.platform := rfl
@[simp] theorem State.accept_agenda (s : State) (w : Word) : (s.accept w).agenda = s.agenda := rfl
@[simp] theorem State.accept_hostData (s : State) (w : Word) : (s.accept w).hostData = s.hostData := rfl
@[simp] theorem State.accept_freeCount (s : State) (w : Word) : (s.accept w).freeCount = s.freeCount := rfl

/-! ### `State.endOk` -/

@[simp] theorem State.endOk_ctrl (s : State) (r : Results) : (s.endOk r).ctrl = s.ctrl := rfl
@[simp] theorem State.endOk_done (s : State) (r : Results) : (s.endOk r).done = true := rfl
@[simp] theorem State.endOk_error (s : State) (r : Results) : (s.endOk r).error = s.error := rfl
@[simp] theorem State.endOk_arg0 (s : State) (r : Results) : (s.endOk r).arg0 = s.arg0 := rfl
@[simp] theorem State.endOk_arg1 (s : State) (r : Results) : (s.endOk r).arg1 = s.arg1 := rfl
@[simp] theorem State.endOk_arg2 (s : State) (r : Results) : (s.endOk r).arg2 = s.arg2 := rfl
@[simp] theorem State.endOk_res0 (s : State) (r : Results) : (s.endOk r).res0 = r.res0.getD s.res0 := rfl
@[simp] theorem State.endOk_res1 (s : State) (r : Results) : (s.endOk r).res1 = r.res1.getD s.res1 := rfl
@[simp] theorem State.endOk_res2 (s : State) (r : Results) : (s.endOk r).res2 = r.res2.getD s.res2 := rfl
@[simp] theorem State.endOk_frSrc (s : State) (r : Results) : (s.endOk r).frSrc = s.frSrc := rfl
@[simp] theorem State.endOk_frDst (s : State) (r : Results) : (s.endOk r).frDst = s.frDst := rfl
@[simp] theorem State.endOk_frPk (s : State) (r : Results) : (s.endOk r).frPk = s.frPk := rfl
@[simp] theorem State.endOk_frDim (s : State) (r : Results) : (s.endOk r).frDim = s.frDim := rfl
@[simp] theorem State.endOk_frCh (s : State) (r : Results) : (s.endOk r).frCh = s.frCh := rfl
@[simp] theorem State.endOk_phase (s : State) (r : Results) : (s.endOk r).phase = .idle := rfl
@[simp] theorem State.endOk_mem (s : State) (r : Results) : (s.endOk r).mem = s.mem := rfl
@[simp] theorem State.endOk_platform (s : State) (r : Results) : (s.endOk r).platform = s.platform := rfl
@[simp] theorem State.endOk_agenda (s : State) (r : Results) : (s.endOk r).agenda = s.agenda := rfl
@[simp] theorem State.endOk_hostData (s : State) (r : Results) : (s.endOk r).hostData = s.hostData := rfl
@[simp] theorem State.endOk_freeCount (s : State) (r : Results) : (s.endOk r).freeCount = s.freeCount := rfl

/-! ### `State.endError` -/

@[simp] theorem State.endError_ctrl (s : State) (e : ErrorCode) : (s.endError e).ctrl = s.ctrl := rfl
@[simp] theorem State.endError_done (s : State) (e : ErrorCode) : (s.endError e).done = s.done := rfl
@[simp] theorem State.endError_error (s : State) (e : ErrorCode) : (s.endError e).error = some (s.error.getD e) := rfl
@[simp] theorem State.endError_arg0 (s : State) (e : ErrorCode) : (s.endError e).arg0 = s.arg0 := rfl
@[simp] theorem State.endError_arg1 (s : State) (e : ErrorCode) : (s.endError e).arg1 = s.arg1 := rfl
@[simp] theorem State.endError_arg2 (s : State) (e : ErrorCode) : (s.endError e).arg2 = s.arg2 := rfl
@[simp] theorem State.endError_res0 (s : State) (e : ErrorCode) : (s.endError e).res0 = s.res0 := rfl
@[simp] theorem State.endError_res1 (s : State) (e : ErrorCode) : (s.endError e).res1 = s.res1 := rfl
@[simp] theorem State.endError_res2 (s : State) (e : ErrorCode) : (s.endError e).res2 = s.res2 := rfl
@[simp] theorem State.endError_frSrc (s : State) (e : ErrorCode) : (s.endError e).frSrc = s.frSrc := rfl
@[simp] theorem State.endError_frDst (s : State) (e : ErrorCode) : (s.endError e).frDst = s.frDst := rfl
@[simp] theorem State.endError_frPk (s : State) (e : ErrorCode) : (s.endError e).frPk = s.frPk := rfl
@[simp] theorem State.endError_frDim (s : State) (e : ErrorCode) : (s.endError e).frDim = s.frDim := rfl
@[simp] theorem State.endError_frCh (s : State) (e : ErrorCode) : (s.endError e).frCh = s.frCh := rfl
@[simp] theorem State.endError_phase (s : State) (e : ErrorCode) : (s.endError e).phase = .idle := rfl
@[simp] theorem State.endError_mem (s : State) (e : ErrorCode) : (s.endError e).mem = s.mem := rfl
@[simp] theorem State.endError_platform (s : State) (e : ErrorCode) : (s.endError e).platform = s.platform := rfl
@[simp] theorem State.endError_agenda (s : State) (e : ErrorCode) : (s.endError e).agenda = s.agenda := rfl
@[simp] theorem State.endError_hostData (s : State) (e : ErrorCode) : (s.endError e).hostData = s.hostData := rfl
@[simp] theorem State.endError_freeCount (s : State) (e : ErrorCode) : (s.endError e).freeCount = s.freeCount := rfl

/-! ### `State.poll` -/

@[simp] theorem State.poll_ctrl (s : State) : s.poll.ctrl = s.ctrl := rfl
@[simp] theorem State.poll_done (s : State) : s.poll.done = s.done := rfl
@[simp] theorem State.poll_error (s : State) : s.poll.error = s.error := rfl
@[simp] theorem State.poll_arg0 (s : State) : s.poll.arg0 = s.arg0 := rfl
@[simp] theorem State.poll_arg1 (s : State) : s.poll.arg1 = s.arg1 := rfl
@[simp] theorem State.poll_arg2 (s : State) : s.poll.arg2 = s.arg2 := rfl
@[simp] theorem State.poll_res0 (s : State) : s.poll.res0 = s.res0 := rfl
@[simp] theorem State.poll_res1 (s : State) : s.poll.res1 = s.res1 := rfl
@[simp] theorem State.poll_res2 (s : State) : s.poll.res2 = s.res2 := rfl
@[simp] theorem State.poll_frSrc (s : State) : s.poll.frSrc = s.frSrc := rfl
@[simp] theorem State.poll_frDst (s : State) : s.poll.frDst = s.frDst := rfl
@[simp] theorem State.poll_frPk (s : State) : s.poll.frPk = s.frPk := rfl
@[simp] theorem State.poll_frDim (s : State) : s.poll.frDim = s.frDim := rfl
@[simp] theorem State.poll_frCh (s : State) : s.poll.frCh = s.frCh := rfl
@[simp] theorem State.poll_phase (s : State) : s.poll.phase = s.phase := rfl
@[simp] theorem State.poll_mem (s : State) : s.poll.mem = s.mem := rfl
@[simp] theorem State.poll_platform (s : State) : s.poll.platform = s.platform := rfl
@[simp] theorem State.poll_agenda (s : State) : s.poll.agenda = s.agenda := rfl
@[simp] theorem State.poll_hostData (s : State) : s.poll.hostData = s.status := rfl
@[simp] theorem State.poll_freeCount (s : State) : s.poll.freeCount = s.freeCount := rfl

/-! ### `State.hostWrite` -/

@[simp] theorem State.hostWrite_ctrl (s : State) (a : Nat) (v : Byte) : (s.hostWrite a v).ctrl = s.ctrl := rfl
@[simp] theorem State.hostWrite_done (s : State) (a : Nat) (v : Byte) : (s.hostWrite a v).done = s.done := rfl
@[simp] theorem State.hostWrite_error (s : State) (a : Nat) (v : Byte) : (s.hostWrite a v).error = s.error := rfl
@[simp] theorem State.hostWrite_arg0 (s : State) (a : Nat) (v : Byte) : (s.hostWrite a v).arg0 = s.arg0 := rfl
@[simp] theorem State.hostWrite_arg1 (s : State) (a : Nat) (v : Byte) : (s.hostWrite a v).arg1 = s.arg1 := rfl
@[simp] theorem State.hostWrite_arg2 (s : State) (a : Nat) (v : Byte) : (s.hostWrite a v).arg2 = s.arg2 := rfl
@[simp] theorem State.hostWrite_res0 (s : State) (a : Nat) (v : Byte) : (s.hostWrite a v).res0 = s.res0 := rfl
@[simp] theorem State.hostWrite_res1 (s : State) (a : Nat) (v : Byte) : (s.hostWrite a v).res1 = s.res1 := rfl
@[simp] theorem State.hostWrite_res2 (s : State) (a : Nat) (v : Byte) : (s.hostWrite a v).res2 = s.res2 := rfl
@[simp] theorem State.hostWrite_frSrc (s : State) (a : Nat) (v : Byte) : (s.hostWrite a v).frSrc = s.frSrc := rfl
@[simp] theorem State.hostWrite_frDst (s : State) (a : Nat) (v : Byte) : (s.hostWrite a v).frDst = s.frDst := rfl
@[simp] theorem State.hostWrite_frPk (s : State) (a : Nat) (v : Byte) : (s.hostWrite a v).frPk = s.frPk := rfl
@[simp] theorem State.hostWrite_frDim (s : State) (a : Nat) (v : Byte) : (s.hostWrite a v).frDim = s.frDim := rfl
@[simp] theorem State.hostWrite_frCh (s : State) (a : Nat) (v : Byte) : (s.hostWrite a v).frCh = s.frCh := rfl
@[simp] theorem State.hostWrite_mem (s : State) (a : Nat) (v : Byte) : (s.hostWrite a v).mem = s.mem.write a v := rfl
@[simp] theorem State.hostWrite_platform (s : State) (a : Nat) (v : Byte) : (s.hostWrite a v).platform = s.platform := rfl
@[simp] theorem State.hostWrite_agenda (s : State) (a : Nat) (v : Byte) : (s.hostWrite a v).agenda = s.agenda := rfl
@[simp] theorem State.hostWrite_hostData (s : State) (a : Nat) (v : Byte) : (s.hostWrite a v).hostData = s.hostData := rfl
@[simp] theorem State.hostWrite_freeCount (s : State) (a : Nat) (v : Byte) : (s.hostWrite a v).freeCount = s.freeCount := rfl

/-! ### `State.resetInput` -/

@[simp] theorem State.resetInput_ctrl (s : State) : s.resetInput.ctrl = State.reset.ctrl := rfl
@[simp] theorem State.resetInput_done (s : State) : s.resetInput.done = State.reset.done := rfl
@[simp] theorem State.resetInput_error (s : State) : s.resetInput.error = State.reset.error := rfl
@[simp] theorem State.resetInput_arg0 (s : State) : s.resetInput.arg0 = State.reset.arg0 := rfl
@[simp] theorem State.resetInput_arg1 (s : State) : s.resetInput.arg1 = State.reset.arg1 := rfl
@[simp] theorem State.resetInput_arg2 (s : State) : s.resetInput.arg2 = State.reset.arg2 := rfl
@[simp] theorem State.resetInput_res0 (s : State) : s.resetInput.res0 = State.reset.res0 := rfl
@[simp] theorem State.resetInput_res1 (s : State) : s.resetInput.res1 = State.reset.res1 := rfl
@[simp] theorem State.resetInput_res2 (s : State) : s.resetInput.res2 = State.reset.res2 := rfl
@[simp] theorem State.resetInput_frSrc (s : State) : s.resetInput.frSrc = State.reset.frSrc := rfl
@[simp] theorem State.resetInput_frDst (s : State) : s.resetInput.frDst = State.reset.frDst := rfl
@[simp] theorem State.resetInput_frPk (s : State) : s.resetInput.frPk = State.reset.frPk := rfl
@[simp] theorem State.resetInput_frDim (s : State) : s.resetInput.frDim = State.reset.frDim := rfl
@[simp] theorem State.resetInput_frCh (s : State) : s.resetInput.frCh = State.reset.frCh := rfl
@[simp] theorem State.resetInput_phase (s : State) : s.resetInput.phase = State.reset.phase := rfl
@[simp] theorem State.resetInput_mem (s : State) : s.resetInput.mem = s.abort.mem := rfl
@[simp] theorem State.resetInput_platform (s : State) : s.resetInput.platform = s.platform := rfl
@[simp] theorem State.resetInput_agenda (s : State) : s.resetInput.agenda = s.agenda := rfl
@[simp] theorem State.resetInput_hostData (s : State) : s.resetInput.hostData = s.hostData := rfl
@[simp] theorem State.resetInput_freeCount (s : State) : s.resetInput.freeCount = s.abort.freeCount := rfl

end Sys2Proof.Machine
end

