-- ==== Sys2Proof/Laws/Ops.lean ====
section
/-! SUPPORT. Once for each shared operation: everything it can do. -/

namespace Sys2Proof.Machine

/-- A single-step command: nothing when IDLE, else an error or a successful end. -/
theorem runCommand_cases {s t : State} {f : Latch → Except ErrorCode Results} (h : runCommand s f = .next t) :
    (s.phase = .idle ∧ t = s) ∨
    ∃ r, s.phase = .busy r ∧
      ((∃ e, f r.latch = .error e ∧ t = s.endError e) ∨ ∃ res, f r.latch = .ok res ∧ t = s.endOk res) := by
  unfold runCommand at h
  split at h
  · rename_i hp; cases h; exact .inl ⟨hp, rfl⟩
  · rename_i r hp
    split at h
    · rename_i e he; cases h; exact .inr ⟨r, hp, .inl ⟨e, he, rfl⟩⟩
    · rename_i res hr; cases h; exact .inr ⟨r, hp, .inr ⟨res, hr, rfl⟩⟩

/-- A single-step command on a BUSY engine whose checks pass. -/
theorem runCommand_ok {s : State} {r : Running} {f : Latch → Except ErrorCode Results} {res : Results}
    (hp : s.phase = .busy r) (hf : f r.latch = .ok res) : runCommand s f = .next (s.endOk res) := by
  unfold runCommand; simp [hp, hf]

/-- A single-step command on a BUSY engine with a check that fails. -/
theorem runCommand_error {s : State} {r : Running} {f : Latch → Except ErrorCode Results} {e : ErrorCode}
    (hp : s.phase = .busy r) (hf : f r.latch = .error e) : runCommand s f = .next (s.endError e) := by
  unfold runCommand; simp [hp, hf]

/-- A single-step command never stops. -/
theorem runCommand_next (s : State) (f : Latch → Except ErrorCode Results) : ∃ t, runCommand s f = .next t := by
  unfold runCommand
  split
  · exact ⟨_, rfl⟩
  · split <;> exact ⟨_, rfl⟩

@[simp] theorem checked_true (res : Results) : checked true res = .ok res := rfl

@[simp] theorem checked_false (res : Results) : checked false res = .error .operandRange := rfl

/-- Every command but FRAME runs in one engine step over the latch (30_encoding.md R97). -/
theorem exec_single {i : Instr} (hi : i ≠ .frame) : ∃ f, ∀ s, exec i s = runCommand s f := by
  cases i with
  | frame => exact absurd rfl hi
  | noise => exact ⟨_, execNoise.eq_def⟩
  | bayer n => exact ⟨_, execBayer.eq_def n⟩
  | qnoise f c => exact ⟨_, execQnoise.eq_def f c⟩
  | qord n => exact ⟨_, execQord.eq_def n⟩
  | nop => exact ⟨_, execNop.eq_def⟩
  | pack565 => exact ⟨_, execPack565.eq_def⟩
  | unpack565 => exact ⟨_, execUnpack565.eq_def⟩
  | pack4444 => exact ⟨_, execPack4444.eq_def⟩
  | unpack4444 => exact ⟨_, execUnpack4444.eq_def⟩
  | expand => exact ⟨_, execExpand.eq_def⟩
  | dpix4444 => exact ⟨_, execDpix4444.eq_def⟩
  | dpix565 => exact ⟨_, execDpix565.eq_def⟩

/-- A scramble changes memory and the counter only. -/
theorem Job.scramble_eq (j : Job) (s : State) : j.scramble s =
    { s with mem := (j.scramble s).mem, freeCount := (j.scramble s).freeCount } := rfl

/-- Abandoning a frame changes memory and the counter only. -/
theorem Job.abandon_eq (j : Job) (b : Bool) (d : List Nat) (s : State) : j.abandon b d s =
    { s with mem := (j.abandon b d s).mem, freeCount := (j.abandon b d s).freeCount } := by
  unfold Job.abandon
  split <;> rfl

/-- The addresses that a scramble writes are output bytes. -/
theorem Job.mem_scrambled {j : Job} {a : Nat} (h : a ∈ (List.range j.count).flatMap j.outAddrs) :
    ∃ i, i < j.count ∧ a ∈ j.outAddrs i := by
  obtain ⟨i, hi, ha⟩ := List.mem_flatMap.1 h
  exact ⟨i, List.mem_range.1 hi, ha⟩

/-- A pending byte is an output byte of a pixel that is not completed. -/
theorem Job.mem_pendingCells {j : Job} {p : Platform} {m : Memory} {d : List Nat} {c : Host.Cell}
    (h : c ∈ j.pendingCells p m d) : ∃ i, i < j.count ∧ i ∉ d ∧ c ∈ j.cells m i ∧ p.busOk .write c.1 = true := by
  obtain ⟨i, hi, hc⟩ := List.mem_flatMap.1 h
  obtain ⟨hi, hd⟩ := List.mem_filter.1 hi
  obtain ⟨hc, hw⟩ := List.mem_filter.1 hc
  simp only [Bool.and_eq_true, Bool.not_eq_true', List.contains_eq_mem, decide_eq_false_iff_not] at hd
  exact ⟨i, List.mem_range.1 hi, hd.1, hc, hw⟩

/-- Abandoning a frame keeps the canonical form of memory. -/
theorem Job.abandon_wf (j : Job) (b : Bool) (d : List Nat) (s : State) (h : s.mem.wf) : (j.abandon b d s).mem.wf := by
  unfold Job.abandon
  split
  · exact Memory.writeFree_wf _ _ _ h
  · exact Memory.writeSome_wf _ _ _ h

/-- Abandoning a valid frame keeps memory inside the DMA space. -/
theorem Job.abandon_inSpace {j : Job} (v : j.Valid) (b : Bool) (d : List Nat) (s : State) (h : s.mem.inSpace) :
    (j.abandon b d s).mem.inSpace := by
  unfold Job.abandon
  split
  · refine Memory.writeFree_inSpace _ ?_ _ _ h
    intro a ha
    obtain ⟨i, hi, ha⟩ := Job.mem_scrambled ha
    exact v.outAddrs_lt hi ha
  · refine Memory.writeSome_inSpace _ ?_ _ _ h
    intro c hc
    obtain ⟨i, hi, _, hc, _⟩ := Job.mem_pendingCells hc
    exact v.outAddrs_lt hi (Job.cell_addr hc)

/-- Abandoning a frame leaves every byte outside its output buffers alone. -/
theorem Job.abandon_read {j : Job} (b : Bool) (d : List Nat) (s : State) (h : s.mem.wf) (a : Nat)
    (ha : ∀ i, i < j.count → a ∉ j.outAddrs i) : (j.abandon b d s).mem.read a = s.mem.read a := by
  unfold Job.abandon
  split
  · refine Memory.read_writeFree_of_not_mem _ a ?_ _ _ h
    intro hm
    obtain ⟨i, hi, hm⟩ := Job.mem_scrambled hm
    exact ha i hi hm
  · rcases Memory.read_writeSome (j.pendingCells s.platform s.mem d) a s.mem s.freeCount h with h1 | h1
    · exact h1
    · obtain ⟨i, hi, _, hc, _⟩ := Job.mem_pendingCells h1
      exact absurd (Job.cell_addr hc) (ha i hi)

/-- One engine step of FRAME: everything it can do when it answers a next state. -/
theorem execFrame_cases {s t : State} (h : execFrame s = .next t) :
    (s.phase = .idle ∧ t = s) ∨
    ∃ r, s.phase = .busy r ∧
      ((∃ e, frameJob r.latch = .error e ∧ t = s.endError e) ∨
       ∃ j, frameJob r.latch = .ok j ∧
        ((r.progress = none ∧ j.touchesDevice s.platform = false ∧
            t = { s with phase := .busy { r with progress := some { done := [], before := s.mem } } }) ∨
         ∃ p, r.progress = some p ∧
          ((p.done.length < j.count ∧
              t = framePixel j r p (j.pick p.done s.freeCount) { s with freeCount := s.freeCount + 1 }) ∨
           (j.count ≤ p.done.length ∧ t = frameComplete j r s)))) := by
  unfold execFrame at h
  split at h
  · rename_i hp; cases h; exact .inl ⟨hp, rfl⟩
  rename_i r hp
  refine .inr ⟨r, hp, ?_⟩
  split at h
  · rename_i e he; cases h; exact .inl ⟨e, he, rfl⟩
  rename_i j hj
  refine .inr ⟨j, hj, ?_⟩
  split at h
  · rename_i hn
    unfold frameValidate at h
    split at h
    · cases h
    · rename_i hd
      cases h
      exact .inl ⟨hn, by simpa using hd, rfl⟩
  · rename_i p hs
    refine .inr ⟨p, hs, ?_⟩
    split at h
    · rename_i hl; cases h; exact .inl ⟨hl, rfl⟩
    · rename_i hl; cases h; exact .inr ⟨by omega, rfl⟩

/-- A pixel step: all its bytes written, or BUS_FAULT. -/
theorem framePixel_cases (j : Job) (r : Running) (p : Progress) (i : Nat) (s : State) :
    (j.readsOk s.platform i = true ∧ j.writesOk s.platform i = true ∧
      framePixel j r p i s = { s with
        mem := s.mem.writeCells (j.cells s.mem i)
        phase := .busy { r with progress := some { p with done := insertIndex i p.done } } }) ∨
    ((j.readsOk s.platform i = false ∨ j.writesOk s.platform i = false) ∧
      framePixel j r p i s = (j.abandon r.disturbed p.done s).endError .busFault) := by
  unfold framePixel
  split
  · rename_i h
    rw [Bool.and_eq_true] at h
    exact .inl ⟨h.1, h.2, rfl⟩
  · rename_i h
    rw [Bool.and_eq_true, not_and_or, Bool.not_eq_true, Bool.not_eq_true] at h
    exact .inr ⟨h, rfl⟩

/-- A step is the next move of another agent, or one engine step of what the engine fetched. -/
theorem step_cases (s : State) :
    (∃ o, nextMove s = .other o ∧ step s = o) ∨
    ∃ t, nextMove s = .engine t ∧
      ((t.fetch = .idle ∧ step s = .next t) ∨
       (∃ e, t.fetch = .reject e ∧ step s = .next (t.endError (decodeErrorCode e))) ∨
       ∃ i, t.fetch = .instr i ∧ step s = exec i t) := by
  unfold step
  split
  · rename_i o ho; exact .inl ⟨o, ho, rfl⟩
  · rename_i t ht
    refine .inr ⟨t, ht, ?_⟩
    split
    · rename_i h; exact .inl ⟨h, rfl⟩
    · rename_i e h; exact .inr (.inl ⟨e, h, rfl⟩)
    · rename_i i h; exact .inr (.inr ⟨i, h, rfl⟩)

end Sys2Proof.Machine
end

