-- ==== Sys2Proof/Laws/Host.lean ====
section
/-! SUPPORT. Once for each operation of the host's side: what it can do. -/

namespace Sys2Proof.Machine

/-- A host event is the host's access, its event used up. -/
theorem step_host {s : State} {a : HostAction} {rest : List Event} (h : s.agenda = .host a :: rest) :
    step s = hostStep a { s with agenda := rest } := by
  unfold step nextMove
  rw [h]

/-- A reset event is the reset input, its event used up. -/
theorem step_reset {s : State} {rest : List Event} (h : s.agenda = .reset :: rest) :
    step s = .next (State.resetInput { s with agenda := rest }) := by
  unfold step nextMove
  rw [h]

/-- Every offset below 4096 lies in the window. -/
theorem Platform.inWindow_offset (p : Platform) {off : Nat} (h : off < 4096) : p.inWindow (p.regBase + off) = true := by
  simp [Platform.inWindow, windowSize, h]

/-- A host write of the window leaves memory, the results, the platform, the agenda and the counters alone. -/
theorem State.writeReg_frame (s : State) (off : Nat) (w : Word) :
    (s.writeReg off w).mem = s.mem ∧ (s.writeReg off w).res0 = s.res0 ∧ (s.writeReg off w).res1 = s.res1 ∧
    (s.writeReg off w).res2 = s.res2 ∧ (s.writeReg off w).platform = s.platform ∧
    (s.writeReg off w).agenda = s.agenda ∧ (s.writeReg off w).hostData = s.hostData ∧
    (s.writeReg off w).freeCount = s.freeCount := by
  unfold State.writeReg State.writeCmd
  split
  case h_3 => split <;> exact ⟨rfl, rfl, rfl, rfl, rfl, rfl, rfl, rfl⟩
  all_goals exact ⟨rfl, rfl, rfl, rfl, rfl, rfl, rfl, rfl⟩

/-- A host read of memory changes the host's data and the counter only. -/
theorem State.hostRead_eq (s : State) (a : Nat) : s.hostRead a =
    { s with hostData := (s.hostRead a).hostData, freeCount := (s.hostRead a).freeCount } := by
  unfold State.hostRead
  simp only
  split
  · rfl
  · split <;> rfl

/-- Disturbing a command changes its mark only. -/
theorem Running.disturb_eq (r : Running) (a : Nat) :
    r.disturb a = { r with disturbed := (r.disturb a).disturbed } := by
  unfold Running.disturb
  split
  · rfl
  · split <;> rfl

/-- A frame depends on the latch only. -/
theorem Running.frame_latch {r r' : Running} (h : r'.latch = r.latch) : r'.frame = r.frame := by
  unfold Running.frame
  rw [h]

/-- When the engine moves, only the agenda and the host's data have changed. -/
theorem nextMove_engine {s t : State} (h : nextMove s = .engine t) :
    t = { s with agenda := t.agenda, hostData := t.hostData } := by
  unfold nextMove at h
  split at h
  · cases h; rfl
  · cases h; rfl
  · cases h
  · split at h
    · cases h; rfl
    · cases h
  · cases h

/-- An abort leaves every byte outside the output buffers of the running frame alone. -/
theorem State.abort_read {s : State} {r : Running} {j : Job} (hr : s.phase = .busy r) (hj : r.frame = some j)
    (hm : s.mem.wf) (a : Nat) (ha : ∀ i, i < j.count → a ∉ j.outAddrs i) : s.abort.mem.read a = s.mem.read a := by
  unfold State.abort
  rw [hr]
  simp only [hj]
  split <;> exact Job.abandon_read _ _ s hm a ha

/-- An abort keeps memory in canonical form inside the DMA space. -/
theorem State.abort_mem (s : State) (hw : s.mem.wf) (hs : s.mem.inSpace) : s.abort.mem.wf ∧ s.abort.mem.inSpace := by
  unfold State.abort
  split
  · exact ⟨hw, hs⟩
  · split
    · exact ⟨hw, hs⟩
    · rename_i j hj
      have v := (frameJob_ok (Running.frame_some hj).2).1
      split <;> exact ⟨Job.abandon_wf _ _ _ _ hw, Job.abandon_inSpace v _ _ _ hs⟩

end Sys2Proof.Machine
end

