-- ==== Sys2Proof/Laws/PerInstr.lean ====
section
/-! SUPPORT. One fact for each command: its word carries its opcode and leaves the reserved bits zero. -/

namespace Sys2Proof.Laws.OpcodeByte

/-- The word of a command has its opcode in bits [7:0] and zeros in bits [31:12] (30_encoding.md R81, R82). -/
def Statement (i : Instr) : Prop := opcField (encode i) = i.opcode ∧ rsvdField (encode i) = 0#20

theorem nop : Statement .nop := by unfold Statement; decide
theorem noise : Statement .noise := by unfold Statement; decide
theorem bayer (nsel : MatrixSize) : Statement (.bayer nsel) := by unfold Statement; cases nsel <;> decide
theorem qnoise (flip : Bool) (step : BitVec 2) : Statement (.qnoise flip step) := by
  unfold Statement; revert flip step; decide
theorem qord (nsel : MatrixSize) : Statement (.qord nsel) := by unfold Statement; cases nsel <;> decide
theorem pack565 : Statement .pack565 := by unfold Statement; decide
theorem unpack565 : Statement .unpack565 := by unfold Statement; decide
theorem pack4444 : Statement .pack4444 := by unfold Statement; decide
theorem unpack4444 : Statement .unpack4444 := by unfold Statement; decide
theorem expand : Statement .expand := by unfold Statement; decide
theorem dpix4444 : Statement .dpix4444 := by unfold Statement; decide
theorem dpix565 : Statement .dpix565 := by unfold Statement; decide
theorem frame : Statement .frame := by unfold Statement; decide

end Sys2Proof.Laws.OpcodeByte
end

