-- ==== Sys2Proof/Laws/Rounding.lean ====
section
/-! SUPPORT. Rounding respects representable bounds, and the operations are exact on representable results. -/

namespace Sys2Proof.Machine

/-- A quotient at most a representable value rounds to at most it. -/
theorem F32.ofRatio_le (neg : Bool) (num m k den : Nat) (hd : 0 < den) (hm : m < 2 ^ 24) (hk : k ≤ 253)
    (h : num ≤ m * 2 ^ k * den) :
    F32.isFinite (F32.ofRatio neg num den) = true ∧ F32.magnitude (F32.ofRatio neg num den) ≤ m * 2 ^ k := by
  obtain ⟨_, h2⟩ := ratioExp_bounds num den hd
  have hle : ratioExp num den ≤ k := by
    rcases h2 with h2 | h2
    · omega
    · by_contra hc
      have h3 : (2 : Nat) ^ (k + 1) ≤ 2 ^ ratioExp num den := Nat.pow_le_pow_right (by decide) (by omega)
      have h4 : 2 ^ 23 * (den * 2 ^ (k + 1)) ≤ num :=
        Nat.le_trans (Nat.mul_le_mul_left _ (Nat.mul_le_mul_left _ h3)) h2
      have h5 : m * 2 ^ k * den < 2 ^ 24 * 2 ^ k * den :=
        Nat.mul_lt_mul_of_pos_right (Nat.mul_lt_mul_of_pos_right hm (Nat.two_pow_pos _)) hd
      have h6 : 2 ^ 23 * (den * 2 ^ (k + 1)) = 2 ^ 24 * 2 ^ k * den := by rw [Nat.pow_succ 2 k]; ring
      omega
  obtain ⟨b1, _⟩ := ratioSig_bounds num den hd
  have hsig : ratioSig num den ≤ m * 2 ^ (k - ratioExp num den) := by
    refine roundEven_le _ _ _ (Nat.mul_pos hd (Nat.two_pow_pos _)) (Nat.le_trans h (Nat.le_of_eq ?_))
    have : (2 : Nat) ^ k = 2 ^ (k - ratioExp num den) * 2 ^ ratioExp num den := by
      rw [← Nat.pow_add]; congr 1; omega
    rw [this]; ring
  have hfin : F32.isFinite (F32.ofRatio neg num den) = true := by
    rw [F32.ofRatio_eq, F32.isFinite_pack]
    by_cases he : ratioExp num den ≤ 252
    · omega
    · have he2 : ratioExp num den = 253 := by omega
      have hk2 : k = 253 := by omega
      rw [he2, hk2] at hsig
      simp only [Nat.sub_self, Nat.pow_zero, Nat.mul_one] at hsig
      omega
  refine ⟨hfin, ?_⟩
  rw [F32.magnitude_ofRatio neg _ den hd hfin]
  have := Nat.mul_le_mul_right (2 ^ ratioExp num den) hsig
  rw [Nat.mul_assoc, ← Nat.pow_add, show k - ratioExp num den + ratioExp num den = k by omega] at this
  exact this

/-- A quotient at least a representable value rounds to at least it, when the result is finite. -/
theorem F32.le_ofRatio (neg : Bool) (num m k den : Nat) (hd : 0 < den) (hm : m < 2 ^ 24)
    (h : m * 2 ^ k * den ≤ num) (hf : F32.isFinite (F32.ofRatio neg num den) = true) :
    m * 2 ^ k ≤ F32.magnitude (F32.ofRatio neg num den) := by
  obtain ⟨_, h2⟩ := ratioExp_bounds num den hd
  obtain ⟨_, b2⟩ := ratioSig_bounds num den hd
  rw [F32.magnitude_ofRatio neg _ den hd hf]
  by_cases hle : ratioExp num den ≤ k
  · have hsig : m * 2 ^ (k - ratioExp num den) ≤ ratioSig num den := by
      refine le_roundEven _ _ _ (Nat.mul_pos hd (Nat.two_pow_pos _)) (Nat.le_trans (Nat.le_of_eq ?_) h)
      have : (2 : Nat) ^ k = 2 ^ (k - ratioExp num den) * 2 ^ ratioExp num den := by
        rw [← Nat.pow_add]; congr 1; omega
      rw [this]; ring
    have := Nat.mul_le_mul_right (2 ^ ratioExp num den) hsig
    rw [Nat.mul_assoc, ← Nat.pow_add, show k - ratioExp num den + ratioExp num den = k by omega] at this
    exact this
  · have h3 : 2 ^ 23 ≤ ratioSig num den := by
      rcases b2 with b2 | b2
      · omega
      · exact b2
    have h4 : (2 : Nat) ^ (k + 1) ≤ 2 ^ ratioExp num den := Nat.pow_le_pow_right (by decide) (by omega)
    have h5 : 2 ^ 23 * 2 ^ (k + 1) ≤ ratioSig num den * 2 ^ ratioExp num den := Nat.mul_le_mul h3 h4
    have h6 : m * 2 ^ k ≤ 2 ^ 24 * 2 ^ k := Nat.mul_le_mul_right _ (by omega)
    have h7 : 2 ^ 23 * 2 ^ (k + 1) = 2 ^ 24 * 2 ^ k := by rw [Nat.pow_succ 2 k]; ring
    omega

/-! ### Values in units of 2^-149 -/

theorem F32.unit_eq : F32.unit = 2 ^ 149 := rfl

theorem F32.unit_pos : 0 < F32.unit := by decide

theorem F32.natAbs_scaled (f : F32) : (F32.scaled f).natAbs = F32.magnitude f := by
  unfold F32.scaled
  split <;> simp

theorem F32.scaled_ofRatio (neg : Bool) (num den : Nat) :
    F32.scaled (F32.ofRatio neg num den) =
      if neg then - (F32.magnitude (F32.ofRatio neg num den) : Int) else F32.magnitude (F32.ofRatio neg num den) := by
  unfold F32.scaled
  rw [F32.sign_ofRatio]

theorem F32.toNat_eq (f : F32) : f.toNat = (F32.sign f).toNat * 2 ^ 31 + F32.magField f := by
  rw [F32.sign_eq]
  unfold F32.magField
  have := f.isLt
  by_cases h : 2 ^ 31 ≤ f.toNat
  · rw [decide_eq_true h, Bool.toNat_true]; omega
  · rw [decide_eq_false h, Bool.toNat_false]; omega

theorem fneg_toNat (a : F32) : (fneg a).toNat = (!F32.sign a).toNat * 2 ^ 31 + F32.magField a := by
  have hs : F32.sign (fneg a) = !F32.sign a := by
    unfold F32.sign fneg
    rw [BitVec.getLsbD_xor]
    simp
  have hm : F32.magField (fneg a) = F32.magField a := by
    unfold F32.magField fneg
    rw [BitVec.toNat_xor]
    have h1 : (a.toNat ^^^ (0x80000000#32).toNat) % 2 ^ 31 = (a.toNat % 2 ^ 31) ^^^ ((0x80000000#32).toNat % 2 ^ 31) :=
      Nat.xor_mod_two_pow
    rw [h1]
    simp
  rw [F32.toNat_eq, hs, hm]

theorem sign_fneg (a : F32) : F32.sign (fneg a) = !F32.sign a := by
  unfold F32.sign fneg
  rw [BitVec.getLsbD_xor]
  simp

theorem magField_fneg (a : F32) : F32.magField (fneg a) = F32.magField a := by
  have h1 := fneg_toNat a
  have h2 := F32.toNat_eq (fneg a)
  rw [sign_fneg] at h2
  omega

theorem isFinite_fneg (a : F32) : F32.isFinite (fneg a) = F32.isFinite a := by
  rw [Bool.eq_iff_iff, F32.isFinite_iff, F32.isFinite_iff, magField_fneg]

theorem magnitude_fneg (a : F32) : F32.magnitude (fneg a) = F32.magnitude a := by
  rw [F32.magnitude_eq, F32.magnitude_eq, magField_fneg]

theorem scaled_fneg (a : F32) : F32.scaled (fneg a) = - F32.scaled a := by
  unfold F32.scaled
  rw [sign_fneg, magnitude_fneg]
  cases F32.sign a <;> simp

/-- A natural number below 2^24 is exact in binary32 (00_scope.md R13). -/
theorem f32_exact (i : Nat) (hi : i < 2 ^ 24) :
    F32.isFinite (f32 i) = true ∧ F32.sign (f32 i) = false ∧ F32.magnitude (f32 i) = i * F32.unit := by
  have h := F32.ofRatio_exact false i 149 1 (by decide) hi (by decide)
  rw [Nat.mul_one, ← F32.unit_eq] at h
  exact ⟨h.1, F32.sign_ofRatio _ _ _, h.2⟩

theorem f32_scaled (i : Nat) (hi : i < 2 ^ 24) : F32.scaled (f32 i) = i * F32.unit := by
  obtain ⟨_, h2, h3⟩ := f32_exact i hi
  unfold F32.scaled
  rw [h2, h3]
  simp

/-- A sum whose exact value is representable is exact. -/
theorem fadd_exact (a b : F32) (ha : F32.isFinite a = true) (hb : F32.isFinite b = true) (m k : Nat)
    (hm : m < 2 ^ 24) (hk : k ≤ 253) (hs : (F32.scaled a + F32.scaled b).natAbs = m * 2 ^ k) :
    F32.isFinite (fadd a b) = true ∧ F32.scaled (fadd a b) = F32.scaled a + F32.scaled b := by
  unfold fadd
  rw [ha, hb]
  simp only [Bool.and_self, if_true]
  split
  · rename_i h0
    unfold F32.zeroSum
    refine ⟨(F32.isFinite_pack _ _).2 (by decide), ?_⟩
    unfold F32.scaled at h0 ⊢
    rw [F32.magnitude_pack _ _ (by decide)]
    simp [magOf]
    exact h0.symm
  · rename_i h0
    have h := F32.ofRatio_exact (decide (F32.scaled a + F32.scaled b < 0)) m k 1 (by decide) hm hk
    rw [Nat.mul_one, ← hs] at h
    refine ⟨h.1, ?_⟩
    rw [F32.scaled_ofRatio, h.2]
    by_cases hlt : F32.scaled a + F32.scaled b < 0
    · simp only [hlt, decide_true, if_true]; omega
    · simp only [hlt, decide_false, Bool.false_eq_true, if_false]; omega

/-- A sum within a representable bound rounds within it. -/
theorem fadd_bound (a b : F32) (ha : F32.isFinite a = true) (hb : F32.isFinite b = true) (m k : Nat)
    (hm : m < 2 ^ 24) (hk : k ≤ 253) (hs : (F32.scaled a + F32.scaled b).natAbs ≤ m * 2 ^ k) :
    F32.isFinite (fadd a b) = true ∧ (F32.scaled (fadd a b)).natAbs ≤ m * 2 ^ k ∧
      (0 < F32.scaled a + F32.scaled b → 0 ≤ F32.scaled (fadd a b)) ∧
      (F32.scaled a + F32.scaled b < 0 → F32.scaled (fadd a b) ≤ 0) := by
  by_cases h0 : F32.scaled a + F32.scaled b = 0
  · obtain ⟨h1, h2⟩ := fadd_exact a b ha hb 0 0 (by decide) (by decide) (by rw [h0]; rfl)
    refine ⟨h1, ?_, ?_, ?_⟩ <;> rw [h2, h0] <;> simp
  · have hle := F32.ofRatio_le (decide (F32.scaled a + F32.scaled b < 0)) (F32.scaled a + F32.scaled b).natAbs m k 1
      (by decide) hm hk (by rw [Nat.mul_one]; exact hs)
    have he : fadd a b = F32.ofRatio (decide (F32.scaled a + F32.scaled b < 0))
        (F32.scaled a + F32.scaled b).natAbs 1 := by
      unfold fadd
      rw [ha, hb]
      simp only [Bool.and_self, if_true, if_neg h0]
    rw [he]
    refine ⟨hle.1, by rw [F32.natAbs_scaled]; exact hle.2, ?_, ?_⟩
    · intro hp
      rw [F32.scaled_ofRatio, if_neg (by simpa using Int.le_of_lt hp)]
      omega
    · intro hn
      rw [F32.scaled_ofRatio, if_pos (by simpa using hn)]
      omega

/-- A product whose exact value is representable is exact. -/
theorem fmul_exact (a b : F32) (ha : F32.isFinite a = true) (hb : F32.isFinite b = true) (m k : Nat)
    (hm : m < 2 ^ 24) (hk : k ≤ 253) (hs : F32.magnitude a * F32.magnitude b = m * 2 ^ k * F32.unit) :
    F32.isFinite (fmul a b) = true ∧ F32.sign (fmul a b) = (F32.sign a != F32.sign b) ∧
      F32.magnitude (fmul a b) = m * 2 ^ k := by
  have h := F32.ofRatio_exact (F32.sign a != F32.sign b) m k F32.unit (by decide) hm hk
  have he : fmul a b = F32.ofRatio (F32.sign a != F32.sign b) (m * 2 ^ k * F32.unit) F32.unit := by
    unfold fmul
    rw [ha, hb, hs]
    rfl
  rw [he]
  exact ⟨h.1, F32.sign_ofRatio _ _ _, h.2⟩

/-- A product within a representable bound rounds within it. -/
theorem fmul_bound (a b : F32) (ha : F32.isFinite a = true) (hb : F32.isFinite b = true) (m k : Nat)
    (hm : m < 2 ^ 24) (hk : k ≤ 253) (hs : F32.magnitude a * F32.magnitude b ≤ m * 2 ^ k * F32.unit) :
    F32.isFinite (fmul a b) = true ∧ F32.sign (fmul a b) = (F32.sign a != F32.sign b) ∧
      F32.magnitude (fmul a b) ≤ m * 2 ^ k := by
  have h := F32.ofRatio_le (F32.sign a != F32.sign b) (F32.magnitude a * F32.magnitude b) m k F32.unit (by decide)
    hm hk hs
  have he : fmul a b = F32.ofRatio (F32.sign a != F32.sign b) (F32.magnitude a * F32.magnitude b) F32.unit := by
    unfold fmul
    rw [ha, hb]
    rfl
  rw [he]
  exact ⟨h.1, F32.sign_ofRatio _ _ _, h.2⟩

/-! ### Truncation, signs and rounding to an integer -/

theorem F32.unit_split (e : Nat) (he : e ≤ 149) : F32.unit = 2 ^ (149 - e) * 2 ^ e := by
  rw [F32.unit_eq, ← Nat.pow_add]
  congr 1
  omega

theorem F32.pow_split (e : Nat) (he : 149 ≤ e) : (2 : Nat) ^ e = 2 ^ (e - 149) * F32.unit := by
  rw [F32.unit_eq, ← Nat.pow_add]
  congr 1
  omega

/-- The fractional part of a binary32 magnitude is a binary32 magnitude. -/
theorem F32.mod_unit_form (m e : Nat) (hm : m < 2 ^ 24) :
    ∃ m' k, m * 2 ^ e % F32.unit = m' * 2 ^ k ∧ m' < 2 ^ 24 ∧ k ≤ 149 := by
  by_cases he : e < 149
  · refine ⟨m % 2 ^ (149 - e), e, ?_, Nat.lt_of_le_of_lt (Nat.mod_le _ _) hm, by omega⟩
    rw [F32.unit_split e (by omega), Nat.mul_mod_mul_right]
  · refine ⟨0, 0, ?_, by decide, by decide⟩
    rw [F32.pow_split e (by omega), ← Nat.mul_assoc, Nat.mul_mod_left]
    simp

/-- `ftrunc` of a finite value is finite, keeps the sign, and is exact. -/
theorem ftrunc_spec (v : F32) (hf : F32.isFinite v = true) :
    F32.isFinite (ftrunc v) = true ∧ F32.sign (ftrunc v) = F32.sign v ∧
      F32.magnitude (ftrunc v) = F32.magnitude v / F32.unit * F32.unit := by
  obtain ⟨e, m, h1, h2, h3⟩ := F32.magnitude_form v hf
  have hrep : ∃ m' k, F32.magnitude v / F32.unit * F32.unit = m' * 2 ^ k ∧ m' < 2 ^ 24 ∧ k ≤ 253 := by
    by_cases he : e < 149
    · refine ⟨F32.magnitude v / F32.unit, 149, by rw [F32.unit_eq], ?_, by decide⟩
      rw [h1, Nat.div_lt_iff_lt_mul F32.unit_pos]
      have hle : (2 : Nat) ^ e ≤ F32.unit := by
        rw [F32.unit_eq]
        exact Nat.pow_le_pow_right (by decide) (by omega)
      exact Nat.lt_of_lt_of_le (Nat.mul_lt_mul_of_pos_right h2 (Nat.two_pow_pos _)) (Nat.mul_le_mul_left _ hle)
    · refine ⟨m, e, ?_, h2, h3⟩
      rw [h1, F32.pow_split e (by omega), ← Nat.mul_assoc, Nat.mul_div_cancel _ F32.unit_pos]
  obtain ⟨m', k, a1, a2, a3⟩ := hrep
  have h := F32.ofRatio_exact (F32.sign v) m' k 1 (by decide) a2 a3
  have he : ftrunc v = F32.ofRatio (F32.sign v) (m' * 2 ^ k * 1) 1 := by
    unfold ftrunc
    rw [if_pos hf, Nat.mul_one, ← a1]
  rw [he, a1]
  exact ⟨h.1, F32.sign_ofRatio _ _ _, h.2⟩

theorem F32.scaled_nonneg {f : F32} (h : F32.sign f = false) : 0 ≤ F32.scaled f := by
  unfold F32.scaled
  rw [h]
  simp

/-- A sum that is not negative has a clear sign bit unless both operands are negative. -/
theorem sign_fadd_of_nonneg (a b : F32) (ha : F32.isFinite a = true) (hb : F32.isFinite b = true)
    (hs : F32.sign a = false ∨ F32.sign b = false) (h0 : 0 ≤ F32.scaled a + F32.scaled b) :
    F32.sign (fadd a b) = false := by
  unfold fadd
  rw [ha, hb]
  simp only [Bool.and_self, if_true]
  split
  · unfold F32.zeroSum
    rw [F32.sign_pack]
    rcases hs with hs | hs <;> simp [hs]
  · rw [F32.sign_ofRatio]
    simp
    omega

/-- A pattern with a clear sign bit below the number 1 is at most 0x3F7FFFFF. -/
theorem F32.toNat_le_of_lt_unit (f : F32) (hs : F32.sign f = false) (hlt : F32.magnitude f < F32.unit) :
    f.toNat ≤ 0x3F7FFFFF := by
  rw [F32.toNat_eq, hs, Bool.toNat_false]
  rw [F32.magnitude_eq] at hlt
  obtain ⟨e, m, h1, h2, h3, h4⟩ := magOf_form (F32.magField f)
  by_contra hc
  have he : 126 ≤ e := by omega
  have h5 : (2 : Nat) ^ 126 ≤ 2 ^ e := Nat.pow_le_pow_right (by decide) he
  have h6 : 2 ^ 23 * 2 ^ 126 ≤ m * 2 ^ e := Nat.mul_le_mul (by omega) h5
  rw [h1, F32.unit_split 126 (by decide)] at hlt
  omega

/-- `roundTie` by the integer part q and the remainder r of its operand, with U the number 1. -/
theorem roundTie_cases (tie : TieRule) (u : F32) (hf : F32.isFinite u = true) (U : Int) (hU : U = F32.unit) :
    ∃ q r, F32.scaled u = q * U + r ∧ 0 ≤ r ∧ r < U ∧
      ((2 * r < U ∧ roundTie tie u = q) ∨ (U < 2 * r ∧ roundTie tie u = q + 1) ∨
       (2 * r = U ∧ (tie = .away → roundTie tie u = if 0 < F32.scaled u then q + 1 else q) ∧
         (tie = .even → roundTie tie u = if q % 2 = 0 then q else q + 1))) := by
  have hp : 0 < U := by have := F32.unit_pos; omega
  have hmod := Int.mul_ediv_add_emod (F32.scaled u) U
  rw [Int.mul_comm] at hmod
  refine ⟨F32.scaled u / U, F32.scaled u % U, hmod.symm, Int.emod_nonneg _ (by omega), Int.emod_lt_of_pos _ hp, ?_⟩
  have hd : F32.scaled u - F32.scaled u / U * U = F32.scaled u % U := by omega
  unfold roundTie
  rw [if_pos hf]
  simp only [← hU, hd]
  by_cases c1 : U < 2 * (F32.scaled u % U)
  · exact .inr (.inl ⟨c1, by rw [if_pos c1]⟩)
  · rw [if_neg c1]
    by_cases c2 : 2 * (F32.scaled u % U) < U
    · exact .inl ⟨c2, by rw [if_pos c2]⟩
    · rw [if_neg c2]
      refine .inr (.inr ⟨by omega, ?_, ?_⟩) <;> intro h <;> subst h <;> rfl

end Sys2Proof.Machine
end

