-- ==== Sys2Proof/Laws/Safety.lean ====
section
/-! SUPPORT. Small lemmas about the terms of Safety.lean. -/

namespace Sys2Proof.Machine

/-! ### The invariant -/

theorem State.inv_iff (s : State) : s.inv = true ↔ s.mem.wf ∧ s.mem.inSpace ∧ s.phaseOk = true := by
  simp [State.inv, and_assoc]

theorem Progress.ok_iff (p : Progress) (j : Job) : p.ok j = true ↔
    p.done.Pairwise (· < ·) ∧ (∀ i ∈ p.done, i < j.count) ∧ p.before.wf ∧ p.before.inSpace := by
  simp [Progress.ok, and_assoc]

theorem State.phaseOk_idle {s : State} (h : s.phase = .idle) : s.phaseOk = true := by
  unfold State.phaseOk
  rw [h]

theorem State.phaseOk_busy {s : State} {r : Running} (h : s.phase = .busy r) : s.phaseOk = true ↔
    s.done = false ∧ ∀ p, r.progress = some p →
      ∃ j, r.frame = some j ∧ j.touchesDevice s.platform = false ∧ p.ok j = true := by
  unfold State.phaseOk
  rw [h]
  simp only [Bool.and_eq_true, Bool.not_eq_true']
  constructor
  · rintro ⟨h1, h2⟩
    refine ⟨h1, ?_⟩
    intro p hp
    rw [hp] at h2
    simp only at h2
    split at h2
    · cases h2
    · rename_i j hj
      simp at h2
      exact ⟨j, hj, h2⟩
  · rintro ⟨h1, h2⟩
    refine ⟨h1, ?_⟩
    cases hp : r.progress with
    | none => rfl
    | some p =>
      obtain ⟨j, hj, h3, h4⟩ := h2 p hp
      simp [hj, h3, h4]

/-- The invariant speaks of memory, the phase, DONE and the platform only. -/
theorem State.inv_congr {s t : State} (hm : t.mem = s.mem) (hp : t.phase = s.phase) (hd : t.done = true → s.done = true)
    (hpl : t.platform = s.platform) (hi : s.inv = true) : t.inv = true := by
  rw [State.inv_iff] at hi ⊢
  rw [hm]
  refine ⟨hi.1, hi.2.1, ?_⟩
  cases h : s.phase with
  | idle => exact State.phaseOk_idle (by rw [hp, h])
  | busy r =>
    have h3 := (State.phaseOk_busy h).1 hi.2.2
    refine (State.phaseOk_busy (by rw [hp, h])).2 ⟨?_, by rw [hpl]; exact h3.2⟩
    cases ht : t.done with
    | false => rfl
    | true => exact absurd (hd ht) (by simp [h3.1])

/-- What the invariant says of the progress of a running frame. -/
theorem State.inv_progress {s : State} {r : Running} {j : Job} {p : Progress} (hi : s.inv = true)
    (hr : s.phase = .busy r) (hj : r.frame = some j) (hp : r.progress = some p) :
    p.done.Pairwise (· < ·) ∧ (∀ i ∈ p.done, i < j.count) ∧ p.before.wf ∧ p.before.inSpace := by
  rw [State.inv_iff] at hi
  obtain ⟨j', hj', _, hok⟩ := ((State.phaseOk_busy hr).1 hi.2.2).2 p hp
  rw [hj] at hj'
  cases hj'
  exact (Progress.ok_iff _ _).1 hok

/-! ### Exact memory -/

theorem State.frameExact_congr {s t : State} (hm : t.mem = s.mem) (hp : t.phase = s.phase) (h : s.frameExact) :
    t.frameExact := by
  unfold State.frameExact at h ⊢
  rw [hm, hp]
  exact h

theorem State.frameExact_idle {s : State} (h : s.phase = .idle) : s.frameExact := by
  intro r p j hr
  rw [h] at hr
  cases hr

/-- Memory is exact when no pixel is completed and memory is as it was at validation. -/
theorem State.frameExact_of_fresh (s : State)
    (h : ∀ r p, s.phase = .busy r → r.progress = some p → p.done = [] ∧ p.before = s.mem) : s.frameExact := by
  intro r p j hr hp _ _
  obtain ⟨hd, hb⟩ := h r p hr hp
  refine ⟨?_, ?_, ?_⟩
  · intro i hi
    rw [hd] at hi
    exact absurd hi List.not_mem_nil
  · intro _ _ _ _ _
    rw [hb]
  · intro _ _
    rw [hb]

/-- An output byte that two pixels of a valid frame list has one value. -/
theorem Job.Valid.cell_unique {j : Job} (v : j.Valid) {m : Memory} {i k : Nat} (hi : i < j.count) (hk : k < j.count)
    {c : Host.Cell} {x : Byte} (hc : c ∈ j.cells m i) (h : (c.1, x) ∈ j.cells m k) : x = c.2 := by
  have hik : k = i := by
    by_contra hne
    exact v.outAddrs_disjoint hi hk (Ne.symm hne) (Job.cell_addr hc) (Job.cell_addr (c := (c.1, x)) h)
  subst hik
  have huniq : ∀ l : List Host.Cell, l.Pairwise (fun c d => c.1 ≠ d.1) → c ∈ l → (c.1, x) ∈ l → x = c.2 := by
    intro l
    induction l with
    | nil => intro _ h; cases h
    | cons y ys ih =>
      intro hp h1 h2
      rw [List.pairwise_cons] at hp
      rcases List.mem_cons.1 h1 with rfl | h1 <;> rcases List.mem_cons.1 h2 with h2 | h2
      · rw [← h2]
      · exact absurd rfl (hp.1 (c.1, x) h2)
      · exact absurd (by rw [← h2]) (hp.1 _ h1)
      · exact ih hp.2 h1 h2
  exact huniq _ (v.cells_distinct m hi) hc h

/-! ### The engine steps of FRAME -/

/-- Every access of an index is performed when the bus is clear. -/
theorem Job.busClear_at {j : Job} {p : Platform} (h : j.busClear p = true) {i : Nat} (hi : i < j.count) :
    j.readsOk p i = true ∧ j.writesOk p i = true := by
  have := List.all_eq_true.1 h i (List.mem_range.2 hi)
  simpa using this

/-- While an index is left, the next engine step of FRAME is the pixel step of the picked index. -/
theorem execFrame_pixel {s : State} {r : Running} {j : Job} {p : Progress} (hr : s.phase = .busy r)
    (hj : r.frame = some j) (hp : r.progress = some p) (hl : p.done.length < j.count) :
    execFrame s = .next (framePixel j r p (j.pick p.done s.freeCount) { s with freeCount := s.freeCount + 1 }) := by
  unfold execFrame
  rw [hr]
  simp only [(Running.frame_some hj).2, hp, if_pos hl]

/-! ### A disturbed FRAME, and the host's memory accesses -/

/-- A scramble of a valid frame: every output byte a free value of its own, and nothing else of memory. -/
theorem Job.Valid.scramble_spec {j : Job} (v : j.Valid) (s : State) (h : s.mem.wf) :
    (j.scramble s).freeCount = s.freeCount + 6 * j.count ∧ j.outputsFree (j.scramble s).mem s.freeCount ∧
    ∀ a, (∀ i, i < j.count → a ∉ j.outAddrs i) → (j.scramble s).mem.read a = s.mem.read a := by
  refine ⟨congrArg (s.freeCount + ·) (Job.allOutAddrs_length j j.count), ?_, ?_⟩
  · intro i hi k a hk
    exact Memory.read_writeFree_of_getElem _ (v.allOutAddrs_nodup _ (Nat.le_refl _)) a _ _ _ h
      (Job.allOutAddrs_getElem j hk j.count hi)
  · intro a ha
    exact Job.abandon_read true [] s h a ha

/-- The final byte at an output address of a pixel is the one that the pixel's cells list. -/
theorem Job.Valid.finalByte_eq {j : Job} (v : j.Valid) {m : Memory} {i : Nat} (hi : i < j.count) {c : Host.Cell}
    (hc : c ∈ j.cells m i) : j.finalByte m c.1 = c.2 := by
  have hidx : (if j.pkRegion.has c.1 then (c.1 - j.pk) / 2 else (c.1 - j.dst) / 4) = i := by
    have ha := Job.mem_outAddrs.1 (Job.cell_addr hc)
    have h1 := v.dst_pk
    have hk := Job.pk_has j c.1
    split
    · rename_i h; rw [hk] at h; omega
    · rename_i h; rw [hk] at h; omega
  unfold Job.finalByte
  simp only [hidx]
  exact Memory.read_writeCells_of_mem _ (v.cells_distinct _ hi) c hc [] (by simp [Memory.wf])

/-- A host read of a byte that is no output byte of a running FRAME returns memory. -/
theorem State.hostRead_plain {s : State} {a : Nat} (h : ∀ r j, s.phase = .busy r → r.frame = some j →
    (j.dstRegion.has a || j.pkRegion.has a) = false) : (s.hostRead a).hostData = (s.mem.read a).setWidth 32 := by
  unfold State.hostRead
  split
  · rfl
  · rename_i r hr
    split
    · rfl
    · rename_i j hj
      simp [Running.hostByte, h r j hr hj]

/-- A host read of an output byte of an undisturbed FRAME: its final byte, or its old one. -/
theorem State.hostRead_output {s : State} {r : Running} {j : Job} {a : Nat} (hr : s.phase = .busy r)
    (hj : r.frame = some j) (hd : r.disturbed = false) (ha : (j.dstRegion.has a || j.pkRegion.has a) = true) :
    (s.hostRead a).hostData = (j.finalByte s.mem a).setWidth 32 ∨
    (r.progress = none ∧ (s.hostRead a).hostData = (s.mem.read a).setWidth 32) ∨
    ∃ p, r.progress = some p ∧ (s.hostRead a).hostData = (p.before.read a).setWidth 32 := by
  unfold State.hostRead Running.hostByte
  simp only [hr, hj, ha, hd, if_true]
  by_cases hb : Config.freeBit s.freeCount = true
  · left; simp [hb]
  · right
    cases hp : r.progress with
    | none => left; simp [hb]
    | some p => right; exact ⟨p, rfl, by simp [hb]⟩

/-- A host write marks a running FRAME when its byte lies in one of the three buffers, and no other command. -/
theorem Running.disturb_frame {r : Running} {j : Job} (hj : r.frame = some j) (a : Nat) :
    r.disturb a = if j.srcRegion.has a || j.dstRegion.has a || j.pkRegion.has a then { r with disturbed := true }
      else r := by
  unfold Running.disturb
  simp [hj, Job.regions, Bool.or_assoc]

/-- A host write marks no command but a FRAME whose registers pass validation. -/
theorem Running.disturb_none {r : Running} (hj : r.frame = none) (a : Nat) : r.disturb a = r := by
  unfold Running.disturb
  rw [hj]

/-! ### An undisturbed FRAME cut short -/

/-- Abandoning an undisturbed valid frame keeps the bytes of its completed pixels. -/
theorem Job.Valid.abandon_completed {j : Job} (v : j.Valid) (d : List Nat) (s : State) (h : s.mem.wf) {i a : Nat}
    (hi : i < j.count) (hd : i ∈ d) (ha : a ∈ j.outAddrs i) : (j.abandon false d s).mem.read a = s.mem.read a := by
  refine (Memory.read_writeSome (j.pendingCells s.platform s.mem d) a s.mem s.freeCount h).resolve_right ?_
  intro hc
  obtain ⟨k, hk, hkd, hkc, _⟩ := Job.mem_pendingCells hc
  exact v.outAddrs_disjoint hi hk (fun e => hkd (e ▸ hd)) ha (Job.cell_addr hkc)

/-- Abandoning an undisturbed valid frame leaves each output byte as it was or makes it the computed one. -/
theorem Job.Valid.abandon_output {j : Job} (v : j.Valid) (d : List Nat) (s : State) (h : s.mem.wf) {i : Nat}
    (hi : i < j.count) {c : Host.Cell} (hc : c ∈ j.cells s.mem i) :
    (j.abandon false d s).mem.read c.1 = c.2 ∨ (j.abandon false d s).mem.read c.1 = s.mem.read c.1 := by
  rcases Memory.read_writeSome (j.pendingCells s.platform s.mem d) c.1 s.mem s.freeCount h with h1 | h1
  · exact .inr h1
  · obtain ⟨k, hk, _, hkc, _⟩ := Job.mem_pendingCells h1
    exact .inl (v.cell_unique hi hk hc hkc)

/-! ### The engine's turn -/

/-- On the engine's turn the next move is the engine's, from the state it moves from; only the agenda and the host's data
differ there. -/
theorem State.engineMovesFrom_spec {s u : State} (h : s.engineMovesFrom u) :
    nextMove s = .engine u ∧ u = { s with agenda := u.agenda, hostData := u.hostData } ∧ u.fetch = s.fetch := by
  rcases h with ⟨h, rfl⟩ | ⟨rest, h, rfl⟩ | ⟨rest, h, hb, rfl⟩
  · exact ⟨by simp only [nextMove, h], rfl, rfl⟩
  · exact ⟨by simp only [nextMove, h], rfl, rfl⟩
  · exact ⟨by simp only [nextMove, h, hb, if_true, State.poll], rfl, rfl⟩

/-- On the engine's turn a step is what the engine does with what it fetched. -/
theorem State.engineMovesFrom_step {s u : State} (h : s.engineMovesFrom u) : step s =
    match s.fetch with
    | .idle => .next u
    | .reject e => .next (u.endError (decodeErrorCode e))
    | .instr i => exec i u := by
  obtain ⟨hn, _, hf⟩ := State.engineMovesFrom_spec h
  cases hs : s.fetch <;> simp only [step, hn, hf.trans hs]

end Sys2Proof.Machine
end

