-- ==== Sys2Proof/Tests/Slice0.lean ====
section
/-! SUPPORT. Tests: expected values from the tables of 95_test_vectors.md and the worked examples of the rules named,
and, for each statement with hypotheses, a concrete state that meets them. -/

namespace Sys2Proof.Machine.Tests

/-! ### Helpers -/

/-- Reset, with operands and a CTRL value written, in which the word `w` was just accepted. -/
def accepted (ctrl w a0 a1 a2 : Word) : State :=
  State.withFetchWord { State.reset with ctrl := Ctrl.ofWord ctrl, arg0 := a0, arg1 := a1, arg2 := a2 } 32 w.toNat

/-- Reset, with the frame registers written, in which FRAME was just accepted. -/
def acceptedFrame (src dst pk dim : Word) (ch : Byte) : State :=
  State.withFetchWord { State.reset with frSrc := src, frDst := dst, frPk := pk, frDim := dim, frCh := ch } 32 0x30

/-- RES0, RES1, RES2 and STATUS after a step. -/
def results : Host.Outcome State Fault Refusal → Option (Word × Word × Word × Word)
  | .next t => some (t.res0, t.res1, t.res2, t.status)
  | .fault _ | .refused _ => none

/-- The state after a step. -/
def after : Host.Outcome State Fault Refusal → State
  | .next t => t
  | .fault _ | .refused _ => State.reset

/-- Why a step was refused. -/
def refusal : Host.Outcome State Fault Refusal → Option Refusal
  | .refused r => some r
  | .next _ | .fault _ => none

/-- Why a step stopped with a fault. -/
def faultOf : Host.Outcome State Fault Refusal → Option Fault
  | .fault f => some f
  | .next _ | .refused _ => none

/-- Reset, with one event to come. -/
def withEvent (e : Event) : State := { State.reset with agenda := [e] }

/-- A command that was just accepted in a state. -/
def runningOf (s : State) (w : Word) : Running := { latch := s.capture w, disturbed := false, progress := none }

/-- The 1×1 frame of V-E8c (4 channels, input at 0, preview at 4, packed at 8), just accepted. -/
def adjacent : State := acceptedFrame 0#32 4#32 8#32 0x00010001#32 4#8

/-- The running command of `adjacent`. -/
def adjacentRunning : Running := runningOf adjacent 0x30#32

/-- The frame of `adjacent`. -/
def adjacentJob : Job := frameJobOf adjacentRunning.latch .rgba4444

/-- `adjacentRunning` after its validation. -/
def adjacentValid : Running := { adjacentRunning with progress := some { done := [], before := [] } }

/-- `adjacent` after its validation. -/
def validated : State := { adjacent with phase := .busy adjacentValid }

/-- `adjacentRunning` with its one pixel completed. -/
def adjacentDone : Running := { adjacentRunning with progress := some { done := [0], before := [] } }

/-- The platform of V-E9: the write at address 8 is answered with an error. -/
def faultyPlatform : Platform := { regBase := 0, busHoles := [{ kind := .write, base := 8, size := 1 }], devices := [] }

/-! ### Well-formedness and decoding -/

theorem test_wellFormed_refuses_reserved_step : Instr.wellFormed (.qnoise false 3#2) = false := by decide

theorem test_wellFormed_accepts_step_s4 : Instr.wellFormed (.qnoise true 2#2) = true := by decide

/-- One word of every constructor, written out as {RSVD, NSEL, STEP, FLIP, OPC} (30_encoding.md R81, R86). -/
theorem test_decode_every_command :
    decode (0b00000000000000000000#20 ++ 0b0#1 ++ 0b00#2 ++ 0b0#1 ++ 0b00000000#8) = .instr .nop ∧
    decode (0b00000000000000000000#20 ++ 0b0#1 ++ 0b00#2 ++ 0b0#1 ++ 0b00000001#8) = .instr .noise ∧
    decode (0b00000000000000000000#20 ++ 0b1#1 ++ 0b00#2 ++ 0b0#1 ++ 0b00000010#8) = .instr (.bayer .n8) ∧
    decode (0b00000000000000000000#20 ++ 0b0#1 ++ 0b01#2 ++ 0b1#1 ++ 0b00000011#8) = .instr (.qnoise true 1#2) ∧
    decode (0b00000000000000000000#20 ++ 0b1#1 ++ 0b00#2 ++ 0b0#1 ++ 0b00000100#8) = .instr (.qord .n8) ∧
    decode (0b00000000000000000000#20 ++ 0b0#1 ++ 0b00#2 ++ 0b0#1 ++ 0b00010000#8) = .instr .pack565 ∧
    decode (0b00000000000000000000#20 ++ 0b0#1 ++ 0b00#2 ++ 0b0#1 ++ 0b00010001#8) = .instr .unpack565 ∧
    decode (0b00000000000000000000#20 ++ 0b0#1 ++ 0b00#2 ++ 0b0#1 ++ 0b00010010#8) = .instr .pack4444 ∧
    decode (0b00000000000000000000#20 ++ 0b0#1 ++ 0b00#2 ++ 0b0#1 ++ 0b00010011#8) = .instr .unpack4444 ∧
    decode (0b00000000000000000000#20 ++ 0b0#1 ++ 0b00#2 ++ 0b0#1 ++ 0b00010100#8) = .instr .expand ∧
    decode (0b00000000000000000000#20 ++ 0b0#1 ++ 0b00#2 ++ 0b0#1 ++ 0b00100000#8) = .instr .dpix4444 ∧
    decode (0b00000000000000000000#20 ++ 0b0#1 ++ 0b00#2 ++ 0b0#1 ++ 0b00100001#8) = .instr .dpix565 ∧
    decode (0b00000000000000000000#20 ++ 0b0#1 ++ 0b00#2 ++ 0b0#1 ++ 0b00110000#8) = .instr .frame := by decide

/-- V-E1a to V-E2d, and the words of 95_test_vectors.md sections 2.2, 2.3 and 2.5. -/
theorem test_decode_rejects :
    [0x5, 0x10FF].map (fun w => decode (BitVec.ofNat 32 w)) = List.replicate 2 (.reject .illegalOpcode) ∧
    [0x1000, 0x603, 0x101, 0x810, 0x1002, 0x102, 0x803, 0x110].map (fun w => decode (BitVec.ofNat 32 w)) =
      List.replicate 8 (.reject .reservedField) := by decide

theorem test_decodeTableWord : decodeTableWord 32 0x503 = some (.qnoise true 2#2) ∧ decodeTableWord 32 0x603 = none ∧
    decodeTableWord 8 0x30 = some .frame := by decide

/-! ### The single-pixel commands, on the vectors of 95_test_vectors.md section 2 -/

/-- 43_pipeline.md R170. -/
theorem test_nop : results (step (accepted 0#32 0x0#32 7#32 8#32 9#32)) = some (0#32, 0#32, 0#32, 2#32) := by
  decide

/-- Section 2.1, (1, 0). -/
theorem test_noise : results (step (accepted 0#32 0x1#32 1#32 0#32 0#32)) =
    some (0x3F0E433C#32, 0#32, 0#32, 2#32) := by decide

/-- Section 2.1, (1048575, 1048575). -/
theorem test_noise_largest : noiseSum 1048575 1048575 = 0x47956592#32 ∧
    noiseField 1048575 1048575 = 0x3EE6C520#32 := by decide

/-- Section 2.2, `bayer.n4` at (5, 6). -/
theorem test_bayer_n4 : results (step (accepted 0#32 0x2#32 5#32 6#32 0#32)) =
    some (0x3E400000#32, 11#32, 0#32, 2#32) := by decide

/-- Section 2.2, `bayer.n8` at (5, 6). -/
theorem test_bayer_n8 : results (step (accepted 0#32 0x802#32 5#32 6#32 0#32)) =
    some (0x3E500000#32, 45#32, 0#32, 2#32) := by decide

/-- Section 2.3, the tie of V-Q-TIE, flipped. -/
theorem test_qnoise_tie_flip : results (step (accepted 0#32 0x103#32 100#32 0x3F080000#32 0#32)) =
    some (99#32, 0xFFFFFFFF#32, 0#32, 2#32) := by decide

/-- Section 2.3, step 8, flipped, and the saturation of 255. -/
theorem test_qnoise_step8_and_saturation :
    results (step (accepted 0#32 0x303#32 50#32 0#32 0#32)) = some (54#32, 4#32, 0#32, 2#32) ∧
    results (step (accepted 0#32 0x103#32 255#32 0#32 0#32)) = some (255#32, 8#32, 0#32, 2#32) := by decide

/-- Section 2.4, v = 10 and t = -0.125 under n = 8. -/
theorem test_qord_n8 : results (step (accepted 0#32 0x804#32 10#32 0xBE000000#32 0#32)) =
    some (6#32, 0#32, 0#32, 2#32) := by decide

/-- Section 2.4, a threshold that is not from the matrix, under n = 4. -/
theorem test_qord_n4 : results (step (accepted 0#32 0x4#32 128#32 0x3DCCCCCD#32 0#32)) =
    some (134#32, 0#32, 0#32, 2#32) := by decide

/-- Section 2.5, row 1. -/
theorem test_pack565 : results (step (accepted 0#32 0x10#32 0x073264C8#32 0#32 0#32)) =
    some (0xCB26#32, 0#32, 0#32, 2#32) := by decide

/-- Section 2.6, the word 0x5AEB. -/
theorem test_unpack565 : results (step (accepted 0#32 0x11#32 0x5AEB#32 0#32 0#32)) =
    some (0xFF5A5D5A#32, 0#32, 0#32, 2#32) := by decide

/-- Section 2.5, row 1. -/
theorem test_pack4444 : results (step (accepted 0#32 0x12#32 0x073264C8#32 0#32 0#32)) =
    some (0xC630#32, 0#32, 0#32, 2#32) := by decide

/-- Section 2.6, the word 0x1234. -/
theorem test_unpack4444 : results (step (accepted 0#32 0x13#32 0x1234#32 0#32 0#32)) =
    some (0x44332211#32, 0#32, 0#32, 2#32) := by decide

/-- Section 2.7. -/
theorem test_expand : results (step (accepted 0#32 0x14#32 0x00326496#32 0#32 0#32)) =
    some (0xFF326496#32, 0#32, 0#32, 2#32) := by decide

/-- Section 2.8, row 1: the tie at step 16. -/
theorem test_dpix4444_noise : results (step (accepted 0#32 0x20#32 0x64646464#32 309#32 8#32)) =
    some (0x65656365#32, 0x6666#32, 0x66666666#32, 2#32) := by decide +kernel

/-- Section 2.8, the pixel 0x073264C8 at (3, 5) under CTRL 0x95. -/
theorem test_dpix4444_ordered : results (step (accepted 1#32 0x20#32 0x073264C8#32 3#32 5#32)) =
    some (0x002A5CC0#32, 0xC520#32, 0x002255CC#32, 2#32) := by decide

/-- Section 2.8, the pixel 0x0032C80A at (1, 1) under the reset CTRL. -/
theorem test_dpix565_noise : results (step (accepted 0#32 0x21#32 0x0032C80A#32 1#32 1#32)) =
    some (0x002FC90D#32, 0x0E45#32, 0xFF29CA08#32, 2#32) := by decide +kernel

/-- Section 2.8, the pixel 0xFF204080 at (3, 1) under CTRL 0x97. -/
theorem test_dpix565_ordered : results (step (accepted 3#32 0x21#32 0xFF204080#32 3#32 1#32)) =
    some (0xFF1C3C7C#32, 0x79E3#32, 0xFF193D7B#32, 2#32) := by decide

/-- V-E3a to V-E3f: OPERAND_RANGE, no result. -/
theorem test_operand_range :
    [ accepted 0#32 0x1#32 0x100000#32 0#32 0#32, accepted 0#32 0x3#32 256#32 0#32 0#32,
      accepted 0#32 0x3#32 0#32 0x3F800000#32 0#32, accepted 0#32 0x4#32 0#32 0x3F000000#32 0#32,
      accepted 0#32 0x11#32 0x10000#32 0#32 0#32, accepted 0#32 0x21#32 0#32 0#32 0xFFFFFFFF#32 ].map
        (fun s => results (step s)) = List.replicate 6 (some (0#32, 0#32, 0#32, 0x304#32)) := by decide

/-! ### FRAME -/

/-- V-E4a, V-E4c, V-E5, V-E6a, V-E7, V-E8a and V-E8b: the validation errors. -/
theorem test_frame_validation_errors :
    [ acceptedFrame 0#32 0#32 0#32 0x00010001#32 1#8, acceptedFrame 0#32 0#32 0#32 0#32 0#8,
      acceptedFrame 0#32 0#32 0#32 0x00010000#32 3#8,
      acceptedFrame 0xFFFFFFFD#32 0#32 0#32 0x00010001#32 4#8,
      acceptedFrame 0#32 0x100#32 0x201#32 0x00010001#32 4#8,
      acceptedFrame 0#32 0#32 0x200#32 0x00010001#32 4#8,
      acceptedFrame 0#32 4#32 0x200#32 0x00010002#32 4#8 ].map (fun s => (after (step s)).status) =
    [0x404#32, 0x404#32, 0x504#32, 0x604#32, 0x704#32, 0x804#32, 0x804#32] := by decide

/-- V-E6b and V-E8c pass validation: the end at 2^32 and adjacent buffers are legal. -/
theorem test_frame_validation_passes :
    (after (step (acceptedFrame 0xFFFFFFFC#32 0x100#32 0x200#32 0x00010001#32 4#8))).status = 1#32 ∧
    after (step adjacent) = validated := by decide

/-- V-565-S (43_pipeline.md R174) and pixel 2 of V-4444-S (R173): the bytes that a pixel step stores. -/
theorem test_frame_cells :
    (frameJobOf (runningOf (acceptedFrame 0x1000#32 0x2000#32 0x3000#32 0x00010001#32 3#8) 0x30#32).latch .rgb565).cells
      [(0x1000, 0xC8#8), (0x1001, 0x64#8), (0x1002, 0x32#8)] 0 =
      [(0x3000, 0x06#8), (0x3001, 0xC3#8), (0x2000, 0xC5#8), (0x2001, 0x61#8), (0x2002, 0x31#8), (0x2003, 0xFF#8)] ∧
    (frameJobOf (runningOf (acceptedFrame 0x1000#32 0x2000#32 0x3000#32 0x00020002#32 4#8) 0x30#32).latch
      .rgba4444).cells [(0x1008, 0x80#8), (0x1009, 0x40#8), (0x100A, 0x20#8), (0x100B, 0xFF#8)] 2 =
      [(0x3004, 0x1F#8), (0x3005, 0x74#8), (0x2008, 0x77#8), (0x2009, 0x44#8), (0x200A, 0x11#8), (0x200B, 0xFF#8)] := by
  decide +kernel

/-- V-E10: a CMD write while FRAME is BUSY. -/
theorem test_busy_reject :
    (after (step { adjacent with agenda := [.host (.regWrite 0xC 4 0#32)] })).status = 0xA05#32 := by decide

/-- The pixel step of V-E9 ends with BUS_FAULT, whatever index the free value takes. -/
theorem test_bus_fault (n : Nat) :
    (framePixel adjacentJob adjacentValid { done := [], before := [] } (adjacentJob.pick [] n)
      { validated with platform := faultyPlatform }).status = 0x904#32 := by
  have h : adjacentJob.pick [] n = 0 := by simp [Job.pick, nthFree, show adjacentJob.count = 1 by decide, Nat.mod_one]
  rw [h]
  rfl

/-! ### The register window and the reset -/

/-- The CTRL vectors of section 2.10. -/
theorem test_ctrl_writes : [0x0, 0x1, 0x3, 0x300, 0xFFFFFFFF].map (fun w =>
    ((State.reset.writeReg 0x004 (BitVec.ofNat 32 w)).readReg 0x004).toNat) = [0x94, 0x95, 0x97, 0x394, 0x397] := by
  decide

/-- The STATUS vectors of section 2.10. -/
theorem test_status_writes : [0x2, 0x4, 0xFFFFFFF9, 0x6].map (fun w =>
    (({ State.reset with done := true, error := some .unsupportedChannelCount } : State).writeReg 0x008
      (BitVec.ofNat 32 w)).status.toNat) = [0x404, 0x2, 0x406, 0x0] := by decide

/-- Program P4, lines 9 and 10: FR_CH keeps bits [7:0] only. -/
theorem test_frch_stores_low_byte : (State.reset.writeReg 0x040 0x103#32).readReg 0x040 = 3#32 := by decide

/-- 10_state.md R22 and 20_memory.md R60: the accesses with no meaning. -/
theorem test_stops :
    refusal (step (withEvent (.host (.regRead 2 4)))) = some .registerAccess ∧
    faultOf (step (withEvent (.host (.memRead (2 ^ 32))))) = some .outsideDmaSpace ∧
    refusal (step { adjacent with platform := { State.reset.platform with devices := [{ base := 8, size := 1 }] } }) =
      some .deviceBuffer := by decide

/-- 70_reset_and_hazards.md R231, R232: a reset while BUSY. -/
theorem test_reset_while_busy :
    after (step { accepted 3#32 0x1#32 1#32 2#32 3#32 with agenda := [.reset] }) = State.reset := by decide

/-- Program P5, lines 1 and 12 (30_encoding.md R96): the accesses of host lines. -/
theorem test_program_events :
    programEvents 0 [.wr .ctrl 1#32, .run (.bayer .n8), .clr] =
      [.host (.regWrite 0x004 4 1#32), .host (.regWrite 0x00C 4 0x802#32), .wait,
       .host (.regWrite 0x008 4 6#32)] := by decide

/-! ### Witnesses: for each statement with hypotheses, a concrete state that meets all of them -/

/-- Reset, with an error recorded and DONE set. -/
def flagged : State := { State.reset with done := true, error := some .unsupportedChannelCount }

/-- NOISE at (1, 0), just accepted. -/
def noiseState : State := accepted 0#32 0x1#32 1#32 0#32 0#32

/-- `adjacentValid` after the host wrote one of its buffers. -/
def adjacentDisturbed : Running := { adjacentValid with disturbed := true }

/-- `adjacentDone` after the host wrote one of its buffers. -/
def adjacentDoneDisturbed : Running := { adjacentDone with disturbed := true }

/-- A 2×1 frame (4 channels, input at 0, preview at 8, packed at 16), just accepted. -/
def pair : State := acceptedFrame 0#32 8#32 16#32 0x00010002#32 4#8

/-- The frame of `pair`. -/
def pairJob : Job := frameJobOf (runningOf pair 0x30#32).latch .rgba4444

/-- The running command of `pair` with its first pixel completed. -/
def pairHalf : Running := { runningOf pair 0x30#32 with progress := some { done := [0], before := [] } }

/-- `pair` with its first pixel completed, on a platform where only that pixel's writes meet a bus error. -/
def pairLeft : State :=
  { pair with phase := .busy pairHalf
              platform := { State.reset.platform with busHoles := [{ kind := .write, base := 16, size := 2 }] } }

/-- `validated`, with the event to come. -/
def validatedWith (e : Event) : State := { validated with agenda := [e] }

/-- Each of the three clauses, at the first and the last bit of a field. -/
theorem witness_DecodeChecksInOrder :
    (∀ w ∈ [0x5, 0xFF, 0xFFFFFF05],
      (accepted 0#32 (BitVec.ofNat 32 w) 0#32 0#32 0#32).fetch = .reject .illegalOpcode) ∧
    (∀ w ∈ [0x1000, 0x80000000, 0x100, 0x400, 0x603, 0x803], w % 256 ∈ [0x00, 0x03] ∧
      (accepted 0#32 (BitVec.ofNat 32 w) 0#32 0#32 0#32).fetch = .reject .reservedField) ∧
    (∀ w ∈ [0x0, 0x503, 0x802, 0x804, 0x30], ∃ r,
      (accepted 0#32 (BitVec.ofNat 32 w) 0#32 0#32 0#32).phase = .busy r ∧ r.latch.word.toNat = w) := by
  refine ⟨by decide, by decide, ?_⟩
  intro w hw
  refine ⟨_, rfl, ?_⟩
  revert w
  decide

/-- The three ways in which the engine comes to its turn, at NOISE, and an IDLE engine at each of them. -/
theorem witness_StepRunsDecodedCommand :
    (noiseState.agenda = [] ∧ noiseState.engineMovesFrom noiseState ∧ noiseState.fetch = .instr .noise) ∧
    (({ noiseState with agenda := [.engine] } : State).engineMovesFrom noiseState ∧
      ({ noiseState with agenda := [.engine] } : State).fetch = .instr .noise) ∧
    (({ noiseState with agenda := [.wait] } : State).engineMovesFrom
        { noiseState with agenda := [.wait], hostData := noiseState.status } ∧
      ({ noiseState with agenda := [.wait] } : State).fetch = .instr .noise ∧
      ∃ r, ({ noiseState with agenda := [.wait] } : State).phase = .busy r) ∧
    (State.reset.engineMovesFrom State.reset ∧ (withEvent .engine).engineMovesFrom State.reset ∧
      (withEvent .wait).agenda = [.wait] ∧ (withEvent .wait).phase = .idle) :=
  ⟨⟨rfl, .inl ⟨rfl, rfl⟩, by decide⟩, ⟨.inr (.inl ⟨[], rfl, rfl⟩), by decide⟩,
    ⟨.inr (.inr ⟨[], rfl, rfl, rfl⟩), by decide, _, rfl⟩, .inl ⟨rfl, rfl⟩, .inr (.inl ⟨[], rfl, rfl⟩), rfl, rfl⟩

/-- A word with an illegal opcode, at each way in which the engine comes to its turn. -/
theorem witness_IllegalOpcodeEndsCommand :
    let s := accepted 0#32 0x10FF#32 0#32 0#32 0#32
    s.engineMovesFrom s ∧ ({ s with agenda := [.engine] } : State).engineMovesFrom s ∧
    ({ s with agenda := [.wait] } : State).engineMovesFrom { s with agenda := [.wait], hostData := s.status } ∧
    ∃ r, s.phase = .busy r ∧ r.latch.word.toNat % 256 ∉
      [0x00, 0x01, 0x02, 0x03, 0x04, 0x10, 0x11, 0x12, 0x13, 0x14, 0x20, 0x21, 0x30] :=
  ⟨.inl ⟨rfl, rfl⟩, .inr (.inl ⟨[], rfl, rfl⟩), .inr (.inr ⟨[], rfl, rfl, rfl⟩), _, rfl, by decide⟩

/-- The four ways a field can be reserved: R82 for RSVD, FLIP and NSEL, R84 for STEP; at each way in which the engine
comes to its turn. -/
theorem witness_ReservedFieldEndsCommand : ∀ w ∈ [0x1000, 0x101, 0x810, 0x603],
    let s := accepted 0#32 (BitVec.ofNat 32 w) 0#32 0#32 0#32
    s.engineMovesFrom s ∧ ({ s with agenda := [.engine] } : State).engineMovesFrom s ∧
    ({ s with agenda := [.wait] } : State).engineMovesFrom { s with agenda := [.wait], hostData := s.status } ∧
    ∃ r, s.phase = .busy r ∧ r.latch.word.toNat = w ∧
      w % 256 ∈ [0x00, 0x01, 0x10, 0x03] ∧
      (w / 4096 ≠ 0 ∨ (w % 256 ≠ 3 ∧ w / 256 % 8 ≠ 0) ∨ (w % 256 = 3 ∧ w / 512 % 4 = 3) ∨
        (w % 256 ≠ 2 ∧ w % 256 ≠ 4 ∧ w / 2048 % 2 ≠ 0)) := by
  intro w hw
  refine ⟨.inl ⟨rfl, rfl⟩, .inr (.inl ⟨[], rfl, rfl⟩), .inr (.inr ⟨[], rfl, rfl, rfl⟩), _, rfl, ?_⟩
  revert w
  decide

theorem witness_CmdWriteAcceptsOrRejects :
    ((withEvent (.host (.regWrite 0xC 4 0x1#32))).agenda =
        .host (.regWrite ((withEvent (.host (.regWrite 0xC 4 0x1#32))).platform.regBase + 0x00C) 4 0x1#32) :: [] ∧
      (withEvent (.host (.regWrite 0xC 4 0x1#32))).phase = .idle) ∧
    ((validatedWith (.host (.regWrite 0xC 4 0x1#32))).agenda =
        .host (.regWrite ((validatedWith (.host (.regWrite 0xC 4 0x1#32))).platform.regBase + 0x00C) 4 0x1#32) :: [] ∧
      (validatedWith (.host (.regWrite 0xC 4 0x1#32))).phase = .busy adjacentValid) := by decide

/-- The first and the last offset, a register, and a reserved offset. -/
theorem witness_RegisterMapReadsAndWrites_read : ∀ off ∈ [0x000, 0x040, 0x044, 0xFFC], off % 4 = 0 ∧ off < 4096 ∧
    (withEvent (.host (.regRead off 4))).agenda =
      .host (.regRead ((withEvent (.host (.regRead off 4))).platform.regBase + off) 4) :: [] := by decide

theorem witness_RegisterMapReadsAndWrites_write : ∀ off ∈ [0x000, 0x010, 0x020, 0x040, 0xFFC], off % 4 = 0 ∧ off < 4096 ∧
    off ≠ 0x004 ∧ off ≠ 0x008 ∧ off ≠ 0x00C ∧
    (withEvent (.host (.regWrite off 4 0x1FF#32))).agenda =
      .host (.regWrite ((withEvent (.host (.regWrite off 4 0x1FF#32))).platform.regBase + off) 4 0x1FF#32) :: [] := by
  decide

/-- A narrow read, a misaligned write, and the last aligned read. -/
theorem witness_RegisterAccessForm :
    ((2 ≠ 4 ∨ 0 % 4 ≠ 0) ∧ (withEvent (.host (.regRead 0 2))).agenda =
      .host (.regRead ((withEvent (.host (.regRead 0 2))).platform.regBase + 0) 2) :: []) ∧
    ((4 ≠ 4 ∨ 4095 % 4 ≠ 0) ∧ (withEvent (.host (.regWrite 4095 4 1#32))).agenda =
      .host (.regWrite ((withEvent (.host (.regWrite 4095 4 1#32))).platform.regBase + 4095) 4 1#32) :: []) ∧
    ((withEvent (.host (.regRead 4092 4))).agenda =
      .host (.regRead ((withEvent (.host (.regRead 4092 4))).platform.regBase + 4092) 4) :: []) := by decide

theorem witness_CtrlWriteKeepsReadOnlyFields :
    (validatedWith (.host (.regWrite 0x4 4 0xFFFFFFFF#32))).agenda =
      .host (.regWrite ((validatedWith (.host (.regWrite 0x4 4 0xFFFFFFFF#32))).platform.regBase + 0x004) 4
        0xFFFFFFFF#32) :: [] := by decide

theorem witness_StatusWriteOneToClear :
    ({ flagged with agenda := [.host (.regWrite 0x8 4 6#32)] } : State).agenda =
      .host (.regWrite (flagged.platform.regBase + 0x008) 4 6#32) :: [] := by decide

/-- The three ways a step can leave the error: kept, cleared by the host, cleared by a reset. -/
theorem witness_FirstErrorKeptUntilCleared : State.reset.error = none ∧ flagged.error = some .unsupportedChannelCount ∧
    (∃ t, step flagged = .next t ∧ t.error = some .unsupportedChannelCount) ∧
    (∃ t, step { flagged with agenda := [.host (.regWrite 0x8 4 4#32)] } = .next t ∧ t.error = none) ∧
    ∃ t, step { flagged with agenda := [.reset] } = .next t ∧ t.error = none :=
  ⟨rfl, rfl, ⟨_, rfl, rfl⟩, ⟨_, rfl, rfl⟩, ⟨_, rfl, rfl⟩⟩

/-- A step for each of the four changes: BUSY set, DONE set, BUSY cleared by an error, DONE cleared by the host. -/
theorem witness_BusyAndDoneFollowTheCommand :
    (∃ t, step (withEvent (.host (.regWrite 0xC 4 0#32))) = .next t ∧ State.reset.busy = false ∧ t.busy = true) ∧
    (∃ t, step noiseState = .next t ∧ noiseState.done = false ∧ t.done = true) ∧
    (∃ t, step (accepted 0#32 5#32 0#32 0#32 0#32) = .next t ∧ t.busy = false ∧
      (accepted 0#32 5#32 0#32 0#32 0#32).busy = true) ∧
    (∃ t, step { flagged with agenda := [.host (.regWrite 0x8 4 2#32)] } = .next t ∧ flagged.done = true ∧
      t.done = false) :=
  ⟨⟨_, rfl, rfl, rfl⟩, ⟨after (step noiseState), rfl, rfl, by decide⟩, ⟨_, rfl, rfl, rfl⟩,
    ⟨_, rfl, rfl, rfl⟩⟩

theorem witness_HostAccessLeavesRunningCommand : ∃ t,
    (validatedWith (.host (.regWrite 0x4 4 3#32))).phase = .busy adjacentValid ∧
    (∀ x, HostAction.regWrite 0x4 4 3#32 ≠ .memRead x) ∧ (∀ x v, HostAction.regWrite 0x4 4 3#32 ≠ .memWrite x v) ∧
    step (validatedWith (.host (.regWrite 0x4 4 3#32))) = .next t :=
  ⟨_, rfl, (by intro x h; cases h), (by intro x v h; cases h), rfl⟩

/-- Two states that differ in every register that a command does not read while it runs. -/
theorem witness_CommandReadsOnlyTheLatch :
    let u : State := { noiseState with ctrl := Ctrl.ofWord 0x303#32, arg0 := 9#32, frCh := 7#8, hostData := 5#32 }
    noiseState.busy = true ∧ u.phase = noiseState.phase ∧ u.mem = noiseState.mem ∧
    exec .noise noiseState = .next (after (exec .noise noiseState)) ∧ u ≠ noiseState := by
  refine ⟨rfl, rfl, rfl, rfl, by decide⟩

theorem witness_EngineStepFrame : exec .noise noiseState = .next (after (exec .noise noiseState)) := rfl

/-- A success that writes a result, and an error that writes none. -/
theorem witness_ResultsChangeOnlyOnSuccess :
    (exec .noise noiseState = .next (after (exec .noise noiseState)) ∧
      (after (exec .noise noiseState)).res0 ≠ noiseState.res0) ∧
    exec .noise (accepted 0#32 1#32 0x100000#32 0#32 0#32) =
      .next (after (exec .noise (accepted 0#32 1#32 0x100000#32 0#32 0#32))) :=
  ⟨⟨rfl, by decide⟩, rfl⟩

/-- 1 + 2^-24, a tie between 1 and 1 + 2^-23. -/
theorem witness_AdditionIsCorrectlyRounded :
    F32.isFinite 0x3F800000#32 = true ∧ F32.isFinite 0x33800000#32 = true ∧ F32.isFinite 0x3F800001#32 = true ∧
    F32.isFinite (fadd 0x3F800000#32 0x33800000#32) = true ∧
    (F32.scaled (fadd 0x3F800000#32 0x33800000#32) -
        (F32.scaled 0x3F800000#32 + F32.scaled 0x33800000#32)).natAbs =
      (F32.scaled 0x3F800001#32 - (F32.scaled 0x3F800000#32 + F32.scaled 0x33800000#32)).natAbs ∧
    F32.scaled 0x3F800001#32 ≠ F32.scaled (fadd 0x3F800000#32 0x33800000#32) := by decide

/-- (1 + 2^-23) × 1.5, a tie between 1.5 + 2^-23 and 1.5 + 2^-22. -/
theorem witness_MultiplicationIsCorrectlyRounded :
    F32.isFinite 0x3F800001#32 = true ∧ F32.isFinite 0x3FC00000#32 = true ∧ F32.isFinite 0x3FC00001#32 = true ∧
    F32.isFinite (fmul 0x3F800001#32 0x3FC00000#32) = true ∧
    (F32.scaled (fmul 0x3F800001#32 0x3FC00000#32) * (F32.unit : Int) -
        F32.scaled 0x3F800001#32 * F32.scaled 0x3FC00000#32).natAbs =
      (F32.scaled 0x3FC00001#32 * (F32.unit : Int) - F32.scaled 0x3F800001#32 * F32.scaled 0x3FC00000#32).natAbs ∧
    F32.scaled 0x3FC00001#32 ≠ F32.scaled (fmul 0x3F800001#32 0x3FC00000#32) := by decide

/-- 2^-149 / 2, a tie between 0 and 2^-149. -/
theorem witness_DivisionIsCorrectlyRounded :
    F32.isFinite 0x00000001#32 = true ∧ F32.isFinite 0x40000000#32 = true ∧ F32.scaled 0x40000000#32 ≠ 0 ∧
    F32.isFinite (fdiv 0x00000001#32 0x40000000#32) = true ∧
    (F32.scaled (fdiv 0x00000001#32 0x40000000#32) * F32.scaled 0x40000000#32 -
        F32.scaled 0x00000001#32 * (F32.unit : Int)).natAbs =
      (F32.scaled 0x00000001#32 * F32.scaled 0x40000000#32 - F32.scaled 0x00000001#32 * (F32.unit : Int)).natAbs ∧
    F32.scaled 0x00000001#32 ≠ F32.scaled (fdiv 0x00000001#32 0x40000000#32) := by decide

/-- 0.5, a tie. -/
theorem witness_RoundTieIsNearest : F32.isFinite 0x3F000000#32 = true ∧
    2 * (F32.scaled 0x3F000000#32 - roundTie .away 0x3F000000#32 * (F32.unit : Int)).natAbs = F32.unit ∧
    2 * (F32.scaled 0x3F000000#32 - roundTie .even 0x3F000000#32 * (F32.unit : Int)).natAbs = F32.unit := by
  decide

/-- 2.75 and the largest finite value. -/
theorem witness_FracIsExact : F32.isFinite 0x40300000#32 = true ∧ 0 ≤ F32.scaled 0x40300000#32 ∧
    F32.isFinite 0x7F7FFFFF#32 = true ∧ 0 ≤ F32.scaled 0x7F7FFFFF#32 := by decide

theorem witness_NoiseLiesInUnitInterval : (0 : Nat) < 2 ^ 20 ∧ 1048575 < 2 ^ 20 := by decide

/-- Both ends of the noise range, -0.0 and each STEP code. -/
theorem witness_NoiseBiasIsSymmetric : noiseValid 0#32 = true ∧ noiseValid 0x3F7FFFFF#32 = true ∧
    noiseValid 0x80000000#32 = true ∧ stepOfCode 0#2 = some 16 ∧ stepOfCode 1#2 = some 8 ∧
    stepOfCode 2#2 = some 4 := by decide

/-- Both ends of the threshold range. -/
theorem witness_QuantizerSaturates : thresholdValid 0xBF000000#32 = true ∧ thresholdValid 0x3EFFFFFF#32 = true := by
  decide

/-- -0.5 and 255.5, ties outside the clamp's range. -/
theorem witness_ClampAndRoundCommute : F32.isFinite 0xBF000000#32 = true ∧ F32.isFinite 0x437F8000#32 = true := by
  decide

/-- 1 - 0.75 is exact, and 0.5 is the least value of the second clause. -/
theorem witness_FlipNegatesWhenExactAndCanDiffer :
    noiseValid 0x3F400000#32 = true ∧ stepOfCode 0#2 = some 16 ∧
    F32.scaled (fsub (f32 1) 0x3F400000#32) = (F32.unit : Int) - F32.scaled 0x3F400000#32 ∧
    noiseValid 0x3F000000#32 = true ∧ (F32.unit : Int) ≤ 2 * F32.scaled 0x3F000000#32 := by decide

/-- NOP, and words of its opcode with the lowest or the highest other bit set. -/
theorem witness_NopCompletes : (∃ r, (accepted 0#32 0#32 0#32 0#32 0#32).phase = .busy r) ∧
    (0x100#32 : Word).toNat % 256 = 0 ∧ (0x100#32 : Word).toNat / 256 ≠ 0 ∧
    (0x80000000#32 : Word).toNat % 256 = 0 ∧ (0x80000000#32 : Word).toNat / 256 ≠ 0 := by
  refine ⟨⟨_, rfl⟩, ?_⟩
  simp

/-- A coordinate at the last legal value and at the first one that is refused (30_encoding.md R91). -/
theorem witness_NoiseCommandResult :
    (∃ r, (accepted 0#32 1#32 0xFFFFF#32 0xFFFFF#32 0#32).phase = .busy r ∧ r.latch.arg0.toNat < 2 ^ 20 ∧
      r.latch.arg1.toNat < 2 ^ 20) ∧
    ∃ r, (accepted 0#32 1#32 0#32 0x100000#32 0#32).phase = .busy r ∧ 2 ^ 20 ≤ r.latch.arg1.toNat :=
  ⟨⟨_, rfl, by decide, by decide⟩, ⟨_, rfl, by decide⟩⟩

theorem witness_BayerCommandResult :
    (∃ r, (accepted 0#32 0x802#32 0xFFFFF#32 0xFFFFF#32 0#32).phase = .busy r ∧ r.latch.arg0.toNat < 2 ^ 20 ∧
      r.latch.arg1.toNat < 2 ^ 20) ∧
    ∃ r, (accepted 0#32 2#32 0x100000#32 0#32 0#32).phase = .busy r ∧ 2 ^ 20 ≤ r.latch.arg0.toNat :=
  ⟨⟨_, rfl, by decide, by decide⟩, ⟨_, rfl, by decide⟩⟩

/-- The last legal noise pattern, -0.0, and the first patterns past each (30_encoding.md R93). -/
theorem witness_QnoiseCommandResult :
    (∃ r, (accepted 0#32 3#32 255#32 0x3F7FFFFF#32 0#32).phase = .busy r ∧ r.latch.arg0.toNat ≤ 255 ∧
      r.latch.arg1.toNat ≤ 0x3F7FFFFF) ∧
    (∃ r, (accepted 0#32 3#32 0#32 0x80000000#32 0#32).phase = .busy r ∧ r.latch.arg0.toNat ≤ 255 ∧
      r.latch.arg1 = 0x80000000#32) ∧
    (∃ r, (accepted 0#32 3#32 0#32 0x80000001#32 0#32).phase = .busy r ∧ 0x3F7FFFFF < r.latch.arg1.toNat ∧
      r.latch.arg1 ≠ 0x80000000#32) ∧
    ∃ r, (accepted 0#32 3#32 256#32 0#32 0#32).phase = .busy r ∧ 255 < r.latch.arg0.toNat :=
  ⟨⟨_, rfl, by decide, by decide⟩, ⟨_, rfl, by decide, by decide⟩, ⟨_, rfl, by decide, by decide⟩, ⟨_, rfl, by decide⟩⟩

/-- The ends of both threshold ranges, and the first patterns past them (30_encoding.md R93). -/
theorem witness_QordCommandResult :
    (∃ r, (accepted 0#32 4#32 255#32 0x3EFFFFFF#32 0#32).phase = .busy r ∧ r.latch.arg0.toNat ≤ 255 ∧
      r.latch.arg1.toNat ≤ 0x3EFFFFFF) ∧
    (∃ r, (accepted 0#32 4#32 0#32 0xBF000000#32 0#32).phase = .busy r ∧ 0x80000000 ≤ r.latch.arg1.toNat ∧
      r.latch.arg1.toNat ≤ 0xBF000000) ∧
    (∃ r, (accepted 0#32 4#32 0#32 0x3F000000#32 0#32).phase = .busy r ∧ 0x3EFFFFFF < r.latch.arg1.toNat ∧
      r.latch.arg1.toNat < 0x80000000) ∧
    ∃ r, (accepted 0#32 4#32 0#32 0xBF000001#32 0#32).phase = .busy r ∧ 0x3EFFFFFF < r.latch.arg1.toNat ∧
      0xBF000000 < r.latch.arg1.toNat :=
  ⟨⟨_, rfl, by decide, by decide⟩, ⟨_, rfl, by decide, by decide⟩, ⟨_, rfl, by decide, by decide⟩,
    ⟨_, rfl, by decide, by decide⟩⟩

theorem witness_Pack565CommandResult : ∃ r, (accepted 0#32 0x10#32 0xFFFFFFFF#32 0#32 0#32).phase = .busy r :=
  ⟨_, rfl⟩

theorem witness_Unpack565CommandResult :
    (∃ r, (accepted 0#32 0x11#32 0xFFFF#32 0#32 0#32).phase = .busy r ∧ r.latch.arg0.toNat < 65536) ∧
    ∃ r, (accepted 0#32 0x11#32 0x10000#32 0#32 0#32).phase = .busy r ∧ 65536 ≤ r.latch.arg0.toNat :=
  ⟨⟨_, rfl, by decide⟩, ⟨_, rfl, by decide⟩⟩

theorem witness_Pack4444CommandResult : ∃ r, (accepted 0#32 0x12#32 0xFFFFFFFF#32 0#32 0#32).phase = .busy r :=
  ⟨_, rfl⟩

theorem witness_Unpack4444CommandResult :
    (∃ r, (accepted 0#32 0x13#32 0xFFFF#32 0#32 0#32).phase = .busy r ∧ r.latch.arg0.toNat < 65536) ∧
    ∃ r, (accepted 0#32 0x13#32 0x10000#32 0#32 0#32).phase = .busy r ∧ 65536 ≤ r.latch.arg0.toNat :=
  ⟨⟨_, rfl, by decide⟩, ⟨_, rfl, by decide⟩⟩

theorem witness_ExpandCommandResult :
    (∃ r, (accepted 0#32 0x14#32 0xFFFFFF#32 0#32 0#32).phase = .busy r ∧ r.latch.arg0.toNat < 16777216) ∧
    ∃ r, (accepted 0#32 0x14#32 0x1000000#32 0#32 0#32).phase = .busy r ∧ 16777216 ≤ r.latch.arg0.toNat :=
  ⟨⟨_, rfl, by decide⟩, ⟨_, rfl, by decide⟩⟩

theorem witness_UnpackThenPackIsIdentity : ∀ bits ∈ [4, 5, 6], bits = 4 ∨ bits = 5 ∨ bits = 6 := by decide

/-- Both modes, with the coordinates at the last legal value, and the first one that is refused. -/
theorem witness_Dpix4444CommandResult :
    (∃ r, (accepted 0#32 0x20#32 0#32 0xFFFFF#32 0xFFFFF#32).phase = .busy r ∧ r.latch.ctrl.mode = .noise ∧
      r.latch.arg1.toNat < 2 ^ 20 ∧ r.latch.arg2.toNat < 2 ^ 20) ∧
    (∃ r, (accepted 3#32 0x20#32 0#32 0#32 0#32).phase = .busy r ∧ r.latch.ctrl.mode = .ordered ∧
      r.latch.arg1.toNat < 2 ^ 20 ∧ r.latch.arg2.toNat < 2 ^ 20) ∧
    ∃ r, (accepted 0#32 0x20#32 0#32 0#32 0x100000#32).phase = .busy r ∧ 2 ^ 20 ≤ r.latch.arg2.toNat :=
  ⟨⟨_, rfl, rfl, by decide, by decide⟩, ⟨_, rfl, rfl, by decide, by decide⟩, ⟨_, rfl, by decide⟩⟩

theorem witness_Dpix565CommandResult :
    (∃ r, (accepted 0#32 0x21#32 0#32 0xFFFFF#32 0xFFFFF#32).phase = .busy r ∧ r.latch.ctrl.mode = .noise ∧
      r.latch.arg1.toNat < 2 ^ 20 ∧ r.latch.arg2.toNat < 2 ^ 20) ∧
    (∃ r, (accepted 3#32 0x21#32 0#32 0#32 0#32).phase = .busy r ∧ r.latch.ctrl.mode = .ordered ∧
      r.latch.arg1.toNat < 2 ^ 20 ∧ r.latch.arg2.toNat < 2 ^ 20) ∧
    ∃ r, (accepted 0#32 0x21#32 0#32 0x100000#32 0#32).phase = .busy r ∧ 2 ^ 20 ≤ r.latch.arg1.toNat :=
  ⟨⟨_, rfl, rfl, by decide, by decide⟩, ⟨_, rfl, rfl, by decide, by decide⟩, ⟨_, rfl, by decide⟩⟩

/-- The outcome of each check, at the boundary of its range; the last two states differ by a device at byte 8. -/
theorem witness_FrameValidationChecksInOrder :
    (adjacent.phase = .busy adjacentRunning ∧ adjacentRunning.progress = none) ∧
    ([ acceptedFrame 0#32 4#32 8#32 0x00010001#32 5#8, acceptedFrame 0#32 4#32 8#32 0x00000001#32 3#8,
       acceptedFrame 0#32 0xFFFFFFFD#32 8#32 0x00010001#32 4#8, acceptedFrame 0#32 4#32 0xFFFFFFFF#32 0x00010001#32 3#8,
       acceptedFrame 0#32 4#32 9#32 0x00010001#32 4#8, acceptedFrame 0#32 4#32 2#32 0x00010001#32 3#8 ].map
        (fun s => (after (exec .frame s)).error) =
      [some .unsupportedChannelCount, some .badDimension, some .addressRange, some .addressRange, some .misaligned,
       some .bufferOverlap]) ∧
    refusal (exec .frame { adjacent with platform :=
      { State.reset.platform with devices := [{ base := 9, size := 1 }] } }) = some .deviceBuffer ∧
    after (exec .frame { adjacent with platform :=
      { State.reset.platform with devices := [{ base := 10, size := 1 }] } }) = { validated with
        platform := { State.reset.platform with devices := [{ base := 10, size := 1 }] } } := by
  refine ⟨⟨rfl, rfl⟩, by decide, by decide, by decide⟩

/-- The index left of `pairHalf` is 1. -/
theorem pair_pick (n : Nat) : pairJob.pick [0] n = 1 := by
  simp [Job.pick, nthFree, show pairJob.count = 2 by decide, Nat.mod_one]

/-- A frame whose accesses are all performed, and a step that stays BUSY although another index meets a bus error. -/
theorem witness_FramePixelStepStoresOnePixel :
    (validated.inv = true ∧ validated.phase = .busy adjacentValid ∧ adjacentValid.frame = some adjacentJob ∧
      adjacentValid.progress = some { done := [], before := [] } ∧ ([] : List Nat).length < adjacentJob.count ∧
      adjacentJob.busClear validated.platform = true) ∧
    (pairLeft.inv = true ∧ pairLeft.phase = .busy pairHalf ∧ pairHalf.frame = some pairJob ∧
      pairHalf.progress = some { done := [0], before := [] } ∧ [0].length < pairJob.count ∧
      pairJob.busClear pairLeft.platform = false ∧
      ∃ t, exec .frame pairLeft = .next t ∧ t.phase ≠ .idle) := by
  refine ⟨by decide, by decide, rfl, by decide, rfl, by decide, by decide,
    framePixel pairJob pairHalf { done := [0], before := [] } (pairJob.pick [0] 0) { pairLeft with freeCount := 1 },
    rfl, ?_⟩
  rw [pair_pick]
  simp [framePixel, show pairJob.readsOk pairLeft.platform 1 = true by decide,
    show pairJob.writesOk pairLeft.platform 1 = true by decide]

/-- The one index of `adjacent` is 0. -/
theorem adjacent_index {i : Nat} (hi : i < adjacentJob.count) : i = 0 := by
  rw [show adjacentJob.count = 1 by decide] at hi
  omega

/-- A complete FRAME, one that the host disturbed, and a disturbed one whose only index meets a bus error. -/
theorem witness_FrameEndsAlsoWhenDisturbed :
    (({ validated with phase := .busy adjacentDone } : State).phase = .busy adjacentDone ∧
      adjacentDone.frame = some adjacentJob ∧ adjacentDone.progress = some { done := [0], before := [] } ∧
      (∀ i, i < adjacentJob.count → i ∈ [0]) ∧ [0].Pairwise (· < ·) ∧ adjacentDone.disturbed = false) ∧
    (({ validated with phase := .busy adjacentDoneDisturbed } : State).inv = true ∧
      adjacentDoneDisturbed.frame = some adjacentJob ∧
      adjacentDoneDisturbed.progress = some { done := [0], before := [] } ∧ adjacentDoneDisturbed.disturbed = true) ∧
    let s : State := { validated with phase := .busy adjacentDisturbed, platform := faultyPlatform }
    s.inv = true ∧ s.phase = .busy adjacentDisturbed ∧ adjacentDisturbed.frame = some adjacentJob ∧
    adjacentDisturbed.progress = some { done := [], before := [] } ∧ adjacentDisturbed.disturbed = true ∧
    ([] : List Nat).length < adjacentJob.count ∧
    (∀ i, i < adjacentJob.count → i ∉ ([] : List Nat) →
      (adjacentJob.readsOk s.platform i && adjacentJob.writesOk s.platform i) = false) ∧
    ∃ t, exec .frame s = .next t ∧ t.phase = .idle := by
  refine ⟨⟨rfl, by decide, rfl, ?_, by decide, rfl⟩, ⟨by decide, by decide, rfl, rfl⟩,
    by decide, rfl, by decide, rfl, rfl, by decide, ?_, ?_⟩
  · intro i hi
    rw [adjacent_index hi]
    decide
  · intro i hi _
    rw [adjacent_index hi]
    decide
  · refine ⟨framePixel adjacentJob adjacentDisturbed { done := [], before := [] } (adjacentJob.pick [] 0)
      { validated with phase := .busy adjacentDisturbed, platform := faultyPlatform, freeCount := 1 }, rfl, ?_⟩
    have h : adjacentJob.pick [] 0 = 0 := by
      simp [Job.pick, nthFree, show adjacentJob.count = 1 by decide, Nat.mod_one]
    rw [h]
    rfl

theorem witness_FrameRunStoresTheImage :
    adjacent.inv = true ∧ adjacent.agenda = [] ∧ adjacent.phase = .busy adjacentRunning ∧
    adjacentRunning.frame = some adjacentJob ∧ adjacentRunning.progress = none ∧ adjacentRunning.disturbed = false ∧
    adjacentJob.touchesDevice adjacent.platform = false ∧ adjacentJob.busClear adjacent.platform = true := by
  decide

/-- A validation step, and an address that no output buffer holds. -/
theorem witness_FrameWritesOnlyItsOutputs :
    adjacent.inv = true ∧ adjacent.phase = .busy adjacentRunning ∧
    exec .frame adjacent = .next (after (exec .frame adjacent)) ∧
    ∀ j, frameJob adjacentRunning.latch = .ok j → j.dstRegion.has 10 = false ∧ j.pkRegion.has 10 = false := by
  refine ⟨by decide, rfl, rfl, ?_⟩
  intro j hj
  have h : frameJob adjacentRunning.latch = .ok adjacentJob := rfl
  rw [h] at hj
  cases hj
  decide

/-- `pairHalf` is exact over empty memory: its completed pixel's output bytes are all 0. -/
theorem pair_exact (s : State) (hm : s.mem = []) (hs : s.phase = .busy pairHalf) : s.frameExact := by
  intro r p j hr hp hj _
  rw [hs] at hr
  cases hr
  cases hp
  have h : pairHalf.frame = some pairJob := by decide
  rw [h] at hj
  cases hj
  rw [hm]
  refine ⟨?_, fun _ _ _ _ _ => rfl, fun _ _ => rfl⟩
  intro i hi c hc
  rw [List.mem_singleton.1 hi] at hc
  revert c
  decide

/-- V-E9 before its pixel step: every index that is left meets the bus error; and a FRAME with one pixel completed whose
other pixel meets one. -/
theorem witness_BusFaultLeavesOldOrNewBytes :
    let s : State := { validated with platform := faultyPlatform }
    let u : State := { pairLeft with
      platform := { State.reset.platform with busHoles := [{ kind := .write, base := 18, size := 2 }] } }
    (s.inv = true ∧ s.frameExact ∧ s.phase = .busy adjacentValid ∧ adjacentValid.frame = some adjacentJob ∧
      adjacentValid.progress = some { done := [], before := [] } ∧ adjacentValid.disturbed = false ∧
      ([] : List Nat).length < adjacentJob.count ∧
      (∀ i, i < adjacentJob.count → i ∉ ([] : List Nat) →
        (adjacentJob.readsOk s.platform i && adjacentJob.writesOk s.platform i) = false) ∧
      ∃ t, exec .frame s = .next t ∧ t.phase = .idle) ∧
    u.inv = true ∧ u.frameExact ∧ u.phase = .busy pairHalf ∧ pairHalf.frame = some pairJob ∧
    pairHalf.progress = some { done := [0], before := [] } ∧ pairHalf.disturbed = false ∧
    [0].length < pairJob.count ∧ (16, 0x00#8) ∈ pairJob.cells [] 0 ∧
    ∃ t, exec .frame u = .next t ∧ t.phase = .idle := by
  refine ⟨⟨by decide, ?_, rfl, by decide, rfl, rfl, by decide, ?_, ?_⟩, by decide, pair_exact _ rfl rfl, rfl, by decide,
    rfl, rfl, by decide, by decide, ?_⟩
  · refine State.frameExact_of_fresh _ ?_
    intro r p hr hp
    cases hr
    cases hp
    exact ⟨rfl, rfl⟩
  · intro i hi _
    rw [adjacent_index hi]
    decide
  · refine ⟨framePixel adjacentJob adjacentValid { done := [], before := [] } (adjacentJob.pick [] 0)
      { validated with platform := faultyPlatform, freeCount := 1 }, rfl, ?_⟩
    have h : adjacentJob.pick [] 0 = 0 := by
      simp [Job.pick, nthFree, show adjacentJob.count = 1 by decide, Nat.mod_one]
    rw [h]
    rfl
  · refine ⟨framePixel pairJob pairHalf { done := [0], before := [] } (pairJob.pick [0] 0) { pairLeft with
      freeCount := 1
      platform := { State.reset.platform with busHoles := [{ kind := .write, base := 18, size := 2 }] } }, rfl, ?_⟩
    rw [pair_pick]
    rfl

/-- The one pixel of `adjacent` (all bytes 0), and DPIX4444 on it. -/
theorem witness_FramePixelEqualsPixelCommand :
    frameJob adjacentRunning.latch = .ok adjacentJob ∧ 0 < adjacentJob.count ∧
    ∃ r, (accepted 0#32 0x20#32 0#32 0#32 0#32).phase = .busy r ∧ r.latch.ctrl = adjacentRunning.latch.ctrl ∧
      r.latch.arg0 = pixelWord (adjacentJob.input [] 0) ∧ r.latch.arg1 = BitVec.ofNat 32 (0 % adjacentJob.width) ∧
      r.latch.arg2 = BitVec.ofNat 32 (0 / adjacentJob.width) :=
  ⟨rfl, by decide, _, rfl, rfl, by decide, by decide, by decide⟩

/-- Each clause at a boundary: a store to the last DMA byte of an IDLE engine, to the last byte of the packed buffer of a
running FRAME and to the first byte past it; a read of the last input byte, of the first byte of the packed buffer before
and after validation, and at 2^32. -/
theorem witness_HostMemoryAccesses :
    (let s : State := withEvent (.host (.memWrite 0xFFFFFFFF 7#8));
      s.inv = true ∧ s.agenda = .host (.memWrite 0xFFFFFFFF 7#8) :: [] ∧ 0xFFFFFFFF < 2 ^ 32 ∧ s.phase = .idle) ∧
    (let s : State := validatedWith (.host (.memWrite 9 7#8));
      s.inv = true ∧ s.agenda = .host (.memWrite 9 7#8) :: [] ∧ s.phase = .busy adjacentValid ∧
      adjacentValid.frame = some adjacentJob ∧
      (adjacentJob.srcRegion.has 9 || adjacentJob.dstRegion.has 9 || adjacentJob.pkRegion.has 9) = true ∧
      (adjacentJob.srcRegion.has 10 || adjacentJob.dstRegion.has 10 || adjacentJob.pkRegion.has 10) = false) ∧
    (let s : State := validatedWith (.host (.memRead 3));
      s.inv = true ∧ s.agenda = .host (.memRead 3) :: [] ∧
      (adjacentJob.dstRegion.has 3 || adjacentJob.pkRegion.has 3) = false) ∧
    (let s : State := { adjacent with agenda := [.host (.memRead 8)] };
      s.inv = true ∧ s.phase = .busy adjacentRunning ∧ adjacentRunning.frame = some adjacentJob ∧
      adjacentRunning.disturbed = false ∧ 0 < adjacentJob.count ∧ adjacentRunning.progress = none ∧
      (8, 0x00#8) ∈ adjacentJob.cells s.mem 0) ∧
    (let s : State := validatedWith (.host (.memRead 8));
      s.inv = true ∧ s.frameExact ∧ s.phase = .busy adjacentValid ∧ adjacentValid.disturbed = false ∧
      adjacentValid.progress = some { done := [], before := [] } ∧ (8, 0x00#8) ∈ adjacentJob.cells [] 0) ∧
    (2 ^ 32 ≤ 0x100000000 ∧ faultOf (step (withEvent (.host (.memRead 0x100000000)))) = some .outsideDmaSpace) := by
  refine ⟨⟨by decide, rfl, by decide, rfl⟩, ⟨by decide, rfl, rfl, by decide, by decide, by decide⟩,
    ⟨by decide, rfl, by decide⟩, ⟨by decide, rfl, by decide, rfl, by decide, rfl, by decide⟩,
    ⟨by decide, ?_, rfl, rfl, rfl, by decide⟩, by decide⟩
  refine State.frameExact_of_fresh _ ?_
  intro r p hr hp
  cases hr
  cases hp
  exact ⟨rfl, rfl⟩

/-- A reset of a FRAME before validation, after it and with its pixel completed, of a command that is no FRAME, and of an
IDLE engine. -/
theorem witness_ResetInputAborts :
    let s := validatedWith .reset
    (s.inv = true ∧ s.frameExact ∧ s.agenda = .reset :: [] ∧ s.phase = .busy adjacentValid ∧
      adjacentValid.frame = some adjacentJob ∧ adjacentValid.progress = some { done := [], before := [] } ∧
      adjacentValid.disturbed = false) ∧
    (let u : State := { adjacent with agenda := [.reset] };
      u.inv = true ∧ u.frameExact ∧ u.phase = .busy adjacentRunning ∧ adjacentRunning.frame = some adjacentJob ∧
      adjacentRunning.progress = none ∧ adjacentRunning.disturbed = false) ∧
    (let u : State := { pair with phase := .busy pairHalf, agenda := [.reset] };
      u.inv = true ∧ u.frameExact ∧ pairHalf.frame = some pairJob ∧
      pairHalf.progress = some { done := [0], before := [] } ∧ pairHalf.disturbed = false) ∧
    (({ noiseState with agenda := [.reset] } : State).inv = true ∧
      ∃ r, ({ noiseState with agenda := [.reset] } : State).phase = .busy r ∧ r.frame = none) ∧
    ((withEvent .reset).inv = true ∧ (withEvent .reset).phase = .idle) := by
  refine ⟨⟨by decide, ?_, rfl, rfl, by decide, rfl, rfl⟩, ⟨by decide, ?_, rfl, by decide, rfl, rfl⟩,
    ⟨by decide, pair_exact _ rfl rfl, by decide, rfl, rfl⟩, ⟨by decide, _, rfl, by decide⟩, by decide, rfl⟩
  · refine State.frameExact_of_fresh _ ?_
    intro r p hr hp
    cases hr
    cases hp
    exact ⟨rfl, rfl⟩
  · refine State.frameExact_of_fresh _ ?_
    intro r p hr hp
    cases hr
    cases hp

/-- The validation step of `adjacent`. -/
theorem witness_EveryStepKeepsInvariant : adjacent.inv = true ∧ step adjacent = .next validated := ⟨by decide, rfl⟩

theorem witness_EveryStepKeepsFrameExact :
    adjacent.inv = true ∧ adjacent.frameExact ∧ step adjacent = .next validated := by
  refine ⟨by decide, ?_, rfl⟩
  refine State.frameExact_of_fresh _ ?_
  intro r p hr hp
  cases hr
  cases hp

/-- A host line that runs NOISE, and an access outside the window. -/
theorem witness_LegalRunsNeverStop :
    ({ State.reset with agenda := HostLine.events 0 (.run .noise) ++ [.host (.regRead 4097 1), .reset] } :
      State).legal = true := by decide

theorem witness_EveryCommandEnds :
    (adjacent.inv = true ∧ adjacent.agenda = [] ∧ adjacent.platform.devices = [] ∧
      adjacent.phase = .busy adjacentRunning ∧ adjacentRunning.frame = some adjacentJob) ∧
    (noiseState.inv = true ∧ noiseState.agenda = [] ∧ noiseState.platform.devices = [] ∧
      ∃ r, noiseState.phase = .busy r ∧ r.frame = none) := by
  refine ⟨by decide, by decide, rfl, rfl, _, rfl, by decide⟩

end Sys2Proof.Machine.Tests
end

section
/-! The arithmetic of 00_scope.md: rounding to an integer (R10) and the exact fractional part (R14). -/

namespace Sys2Proof.Machine

/-! ### Rounding to an integer -/

/-- The distance of a value q * U + r to the multiple of U at or below it. -/
theorem abs_sub_lower_multiple {q r U : Int} (h0 : 0 ≤ r) : |q * U + r - q * U| = r := by
  rw [add_sub_cancel_left, abs_of_nonneg h0]

/-- The distance of a value q * U + r to the multiple of U above it. -/
theorem abs_sub_upper_multiple {q r U : Int} (h1 : r ≤ U) : |q * U + r - (q + 1) * U| = U - r := by
  rw [Int.add_mul, Int.one_mul, add_sub_add_left_eq_sub, abs_sub_comm, abs_of_nonneg (by omega)]

/-- Of the two multiples of U around a value strictly between them, the one away from zero is larger in magnitude. -/
theorem abs_lt_abs_multiple_away {q r U : Int} (h0 : 0 < r) (h1 : r < U) :
    |q * U + r| < |(if 0 < q * U + r then q + 1 else q) * U| := by
  split
  · next hpos =>
    rw [Int.add_mul, Int.one_mul, abs_of_pos hpos, abs_of_pos (by omega)]
    omega
  · next hneg =>
    rw [abs_of_nonpos (by omega), abs_of_neg (by omega)]
    omega

/-- On a tie `roundTie` answers one of the two neighbours, whatever the rule. -/
theorem roundTie_tie_neighbour {tie : TieRule} {u : F32} {q : Int}
    (haway : tie = .away → roundTie tie u = if 0 < F32.scaled u then q + 1 else q)
    (heven : tie = .even → roundTie tie u = if q % 2 = 0 then q else q + 1) :
    roundTie tie u = q ∨ roundTie tie u = q + 1 := by
  cases tie with
  | away => rw [haway rfl]; split <;> simp
  | even => rw [heven rfl]; split <;> simp

/-- Settles O23: the integer part and the remainder of the operand tell the three cases (nearer below, nearer above,
halfway) apart. -/
theorem roundTieIsNearest : Obligations.RoundTieIsNearest := by
  intro tie u hf
  dsimp only
  generalize hU : (F32.unit : Int) = U
  obtain ⟨q, r, hu, h0, h1, ⟨hlow, hr⟩ | ⟨hhigh, hr⟩ | ⟨htie, haway, heven⟩⟩ := roundTie_cases tie u hf U hU.symm
  case inl =>
    rw [hr, hu, abs_sub_lower_multiple h0]
    omega
  case inr.inl =>
    rw [hr, hu, abs_sub_upper_multiple h1.le]
    omega
  case inr.inr =>
    have hhalf : |F32.scaled u - roundTie tie u * U| = r := by
      rcases roundTie_tie_neighbour haway heven with hr | hr
      · rw [hr, hu, abs_sub_lower_multiple h0]
      · rw [hr, hu, abs_sub_upper_multiple h1.le]
        omega
    refine ⟨by omega, fun _ => ⟨fun h => ?_, fun h => ?_⟩⟩
    · rw [haway h, hu]
      exact abs_lt_abs_multiple_away (by omega) h1
    · rw [heven h]
      split <;> omega

/-! ### The fractional part -/

/-- A finite pattern of value 0 or more has its magnitude as its value, -0.0 included. -/
theorem F32.scaled_eq_magnitude {v : F32} (h0 : 0 ≤ F32.scaled v) : F32.scaled v = F32.magnitude v := by
  rw [← F32.natAbs_scaled, Int.natAbs_of_nonneg h0]

/-- `ftrunc` of a finite non-negative value is its integer part. -/
theorem scaled_ftrunc_of_nonneg (v : F32) (hf : F32.isFinite v = true) (h0 : 0 ≤ F32.scaled v) :
    F32.scaled (ftrunc v) = F32.scaled v / (F32.unit : Int) * (F32.unit : Int) := by
  obtain ⟨_, hsign, hmag⟩ := ftrunc_spec v hf
  have hv := F32.scaled_eq_magnitude h0
  rw [hv]
  unfold F32.scaled at hv ⊢
  rw [hsign, hmag]
  split
  · next hneg =>
    rw [if_pos hneg] at hv
    have hzero : F32.magnitude v = 0 := by omega
    simp [hzero]
  · push_cast
    rfl

/-- The exact difference v - trunc(v) is v modulo 1. -/
theorem scaled_sub_ftrunc (v : F32) (hf : F32.isFinite v = true) (h0 : 0 ≤ F32.scaled v) :
    F32.scaled v + F32.scaled (fneg (ftrunc v)) = F32.scaled v % (F32.unit : Int) := by
  rw [scaled_fneg, scaled_ftrunc_of_nonneg v hf h0, Int.emod_def, Int.mul_comm, Int.sub_eq_add_neg]

/-- `ffrac` of a finite non-negative value is exact, because the fractional part of a binary32 is again a binary32
(00_scope.md R14). -/
theorem ffrac_spec (v : F32) (hf : F32.isFinite v = true) (h0 : 0 ≤ F32.scaled v) :
    F32.isFinite (ffrac v) = true ∧ F32.scaled (ffrac v) = F32.scaled v % (F32.unit : Int) := by
  obtain ⟨e, m, hform, hm, _⟩ := F32.magnitude_form v hf
  obtain ⟨m', k, hfrac, hm', hk⟩ := F32.mod_unit_form m e hm
  have hfin : F32.isFinite (fneg (ftrunc v)) = true := by
    rw [isFinite_fneg]
    exact (ftrunc_spec v hf).1
  have hrep : (F32.scaled v + F32.scaled (fneg (ftrunc v))).natAbs = m' * 2 ^ k := by
    rw [scaled_sub_ftrunc v hf h0, F32.scaled_eq_magnitude h0, ← Int.natCast_emod, Int.natAbs_natCast, hform, hfrac]
  rw [← scaled_sub_ftrunc v hf h0]
  exact fadd_exact v (fneg (ftrunc v)) hf hfin m' k hm' (by omega) hrep

/-- Settles O24: the value is a remainder modulo 1. -/
theorem fracIsExact : Obligations.FracIsExact := by
  intro v hf h0
  obtain ⟨hfin, hval⟩ := ffrac_spec v hf h0
  have hunit : (0 : Int) < F32.unit := Int.natCast_pos.2 F32.unit_pos
  rw [hval]
  exact ⟨hfin, rfl, Int.emod_nonneg _ hunit.ne', Int.emod_lt_of_pos _ hunit⟩

end Sys2Proof.Machine
end

section
/-! The registers of 10_state.md: CTRL, STATUS, the error record, CMD and IRQ, and the form of a register access. -/

namespace Sys2Proof.Machine

/-! ### Register accesses -/

theorem accessLegal_iff (off width : Nat) : accessLegal off width = true ↔ width = 4 ∧ off % 4 = 0 := by
  simp [accessLegal]

/-- A host read at an offset of the window: the register's value for the host when the access is an aligned 32-bit one,
else a refusal. -/
theorem step_regRead {s : State} {off width : Nat} {rest : List Event} (ho : off < 4096)
    (h : s.agenda = .host (.regRead (s.platform.regBase + off) width) :: rest) :
    step s = if accessLegal off width then .next { s with agenda := rest, hostData := s.readReg off }
      else .refused .registerAccess := by
  rw [step_host h]
  simp only [hostStep, Platform.inWindow_offset _ ho, Nat.add_sub_cancel_left, if_true]
  rfl

/-- A host write at an offset of the window: the register written when the access is an aligned 32-bit one, else a
refusal. -/
theorem step_regWrite {s : State} {off width : Nat} {w : Word} {rest : List Event} (ho : off < 4096)
    (h : s.agenda = .host (.regWrite (s.platform.regBase + off) width w) :: rest) :
    step s = if accessLegal off width then .next (State.writeReg { s with agenda := rest } off w)
      else .refused .registerAccess := by
  rw [step_host h]
  simp only [hostStep, Platform.inWindow_offset _ ho, Nat.add_sub_cancel_left, if_true]

/-- Settles O10: a register access is a meaningful one exactly when it is 4 bytes wide and aligned. -/
theorem registerAccessForm : Obligations.RegisterAccessForm := by
  intro s off width w rest ho
  refine ⟨fun hbad => ?_, fun hwidth halign h => ?_⟩
  · have hill : ¬ accessLegal off width = true := by
      rw [accessLegal_iff]
      omega
    exact ⟨fun h => by rw [step_regRead ho h, if_neg hill], fun h => by rw [step_regWrite ho h, if_neg hill]⟩
  · rw [step_regRead ho h, if_pos ((accessLegal_iff _ _).2 ⟨hwidth, halign⟩)]

@[simp] theorem State.readReg_ctrl (s : State) : s.readReg 0x004 = s.ctrl.word := rfl
@[simp] theorem State.readReg_status (s : State) : s.readReg 0x008 = s.status := rfl

/-- A host write of CTRL. -/
theorem step_writeCtrl {s : State} {w : Word} {rest : List Event}
    (h : s.agenda = .host (.regWrite (s.platform.regBase + 0x004) 4 w) :: rest) :
    step s = .next { s with agenda := rest, ctrl := Ctrl.ofWord w } :=
  step_regWrite (by decide) h

/-- A host write of STATUS. -/
theorem step_writeStatus {s : State} {w : Word} {rest : List Event}
    (h : s.agenda = .host (.regWrite (s.platform.regBase + 0x008) 4 w) :: rest) :
    step s = .next (State.writeStatus { s with agenda := rest } w) :=
  step_regWrite (by decide) h

/-- A host write of CMD. -/
theorem step_writeCmd {s : State} {w : Word} {rest : List Event}
    (h : s.agenda = .host (.regWrite (s.platform.regBase + 0x00C) 4 w) :: rest) :
    step s = .next (State.writeCmd { s with agenda := rest } w) :=
  step_regWrite (by decide) h

/-! ### CMD -/

theorem State.busy_of_idle {s : State} (h : s.phase = .idle) : s.busy = false := by
  simp only [State.busy, h]

theorem State.busy_of_running {s : State} {r : Running} (h : s.phase = .busy r) : s.busy = true := by
  simp only [State.busy, h]

theorem State.writeCmd_of_idle {s : State} (h : s.phase = .idle) (w : Word) : s.writeCmd w = s.accept w := by
  simp [State.writeCmd, State.busy_of_idle h]

theorem State.writeCmd_of_running {s : State} {r : Running} (h : s.phase = .busy r) (w : Word) :
    s.writeCmd w = s.recordError .busyReject := by
  simp [State.writeCmd, State.busy_of_running h]

/-- Settles O8: the phase decides between acceptance and BUSY_REJECT. -/
theorem cmdWriteAcceptsOrRejects : Obligations.CmdWriteAcceptsOrRejects := by
  refine ⟨rfl, fun s w rest h => ⟨fun hidle => ?_, fun r hbusy => ?_, rfl⟩⟩
  · rw [step_writeCmd h, State.writeCmd_of_idle (by exact hidle)]
    rfl
  · rw [step_writeCmd h, State.writeCmd_of_running (by exact hbusy)]
    rfl

/-! ### The bits of CTRL and STATUS -/

/-- The layout of CTRL (10_state.md R25): the four writable fields, and the bits of 0x94 set for good. -/
theorem Ctrl.getLsbD_word (c : Ctrl) (i : Nat) : c.word.getLsbD i =
    if i = 0 then c.mode.bit else if i = 1 then c.bayerN.bit else if i = 8 then c.doneIE else if i = 9 then c.errIE
    else decide (i = 2 ∨ i = 4 ∨ i = 7) := by
  unfold Ctrl.word
  rcases Nat.lt_or_ge i 10 with hlow | hhigh
  · simp only [BitVec.getLsbD_append]
    interval_cases i <;> simp [pFlip565, pFlip4444, pAlphaDither]
  · simp (disch := omega) only [BitVec.getLsbD_append, BitVec.getLsbD_zero, if_neg, decide_eq_false]

/-- The layout of STATUS (10_state.md R36). -/
theorem State.getLsbD_status (s : State) (i : Nat) : s.status.getLsbD i =
    if i = 0 then s.busy else if i = 1 then s.done else if i = 2 then s.error.isSome
    else decide (8 ≤ i) && s.errCode.getLsbD (i - 8) := by
  unfold State.status
  simp only [BitVec.getLsbD_append, BitVec.getLsbD_ofBool, BitVec.getLsbD_zero]
  grind

/-- Settles O15: both registers show the four flags in the bits named. -/
theorem interruptFollowsFlags : Obligations.InterruptFollowsFlags := by
  refine ⟨rfl, fun s => ?_⟩
  simp only [State.readReg_ctrl, State.readReg_status, State.getLsbD_status, Ctrl.getLsbD_word]
  rfl

/-! ### Host writes of CTRL -/

theorem Mode.bit_ofBit (b : Bool) : (Mode.ofBit b).bit = b := by cases b <;> rfl

theorem MatrixSize.bit_ofBit (b : Bool) : (MatrixSize.ofBit b).bit = b := by cases b <;> rfl

/-- The writable bits of CTRL, as a mask (10_state.md R25). -/
theorem getLsbD_ctrlWritable : ∀ i < 32, (0x00000303#32).getLsbD i = decide (i = 0 ∨ i = 1 ∨ i = 8 ∨ i = 9) := by decide

/-- The bits of CTRL that read 1 for good, as a mask (10_state.md R25). -/
theorem getLsbD_ctrlConstant : ∀ i < 32, (0x00000094#32).getLsbD i = decide (i = 2 ∨ i = 4 ∨ i = 7) := by decide

/-- What CTRL reads after a host write of `w`. -/
theorem Ctrl.word_ofWord (w : Word) : (Ctrl.ofWord w).word = (w &&& 0x00000303#32) ||| 0x00000094#32 := by
  refine BitVec.eq_of_getLsbD_eq fun i hi => ?_
  rw [Ctrl.getLsbD_word, BitVec.getLsbD_or, BitVec.getLsbD_and, getLsbD_ctrlWritable i hi, getLsbD_ctrlConstant i hi]
  simp only [Ctrl.ofWord, Mode.bit_ofBit, MatrixSize.bit_ofBit]
  grind

/-- Settles O11: the write stores the four fields, and CTRL reads back what they make of it. -/
theorem ctrlWriteKeepsReadOnlyFields : Obligations.CtrlWriteKeepsReadOnlyFields :=
  ⟨by decide, fun _ w _ h => ⟨Ctrl.ofWord w, step_writeCtrl h, rfl, rfl, rfl, rfl, Ctrl.word_ofWord w⟩⟩

/-! ### Host writes of STATUS -/

/-- A concatenation as a number. -/
theorem toNat_append_eq_add {m n : Nat} (x : BitVec m) (y : BitVec n) :
    (x ++ y).toNat = x.toNat * 2 ^ n + y.toNat := by
  rw [BitVec.toNat_append, ← Nat.shiftLeft_add_eq_or_of_lt y.isLt, Nat.shiftLeft_eq]

/-- STATUS as a number (10_state.md R36). -/
theorem State.status_eq_ofNat (s : State) : s.status = BitVec.ofNat 32
    (s.busy.toNat + 2 * s.done.toNat + (4 * s.error.isSome.toNat + 256 * s.errCode.toNat)) := by
  refine BitVec.eq_of_toNat_eq ?_
  have hbusy := s.busy.toNat_lt
  have hdone := s.done.toNat_lt
  have herr := s.error.isSome.toNat_lt
  have hcode := s.errCode.isLt
  simp only [State.status, toNat_append_eq_add, BitVec.toNat_ofBool, BitVec.toNat_ofNat]
  omega

theorem State.toNat_busy (s : State) : s.busy.toNat = if s.phase = .idle then 0 else 1 := by
  unfold State.busy
  cases s.phase <;> rfl

theorem State.errCode_writeStatus (s : State) (w : Word) :
    (s.writeStatus w).errCode = if w.getLsbD 2 then 0#4 else s.errCode := by
  unfold State.errCode
  rw [State.writeStatus_error]
  cases w.getLsbD 2 <;> rfl

/-- The bit of STATUS that bit 1 of a write clears, as a mask: DONE (10_state.md R36). -/
theorem getLsbD_statusDoneMask : ∀ i < 32, (2#32).getLsbD i = decide (i = 1) := by decide

/-- The bits of STATUS that bit 2 of a write clears, as a mask: ERR and ERRCODE (10_state.md R36). -/
theorem getLsbD_statusErrorMask : ∀ i < 32, (0x00000F04#32).getLsbD i = decide (i = 2 ∨ 8 ≤ i ∧ i < 12) := by decide

theorem State.busy_writeStatus (s : State) (w : Word) : (s.writeStatus w).busy = s.busy := rfl

/-- What STATUS reads after a host write of `w`: bit 1 clears DONE, bit 2 clears ERR and ERRCODE. -/
theorem State.status_writeStatus (s : State) (w : Word) : (s.writeStatus w).status =
    s.status &&& ~~~ ((w &&& 2#32) ||| (if w.getLsbD 2 then 0x00000F04#32 else 0#32)) := by
  refine BitVec.eq_of_getLsbD_eq fun i hi => ?_
  have hcode : 4 ≤ i - 8 → s.errCode.getLsbD (i - 8) = false := BitVec.getLsbD_of_ge _ _
  simp only [BitVec.getLsbD_and, BitVec.getLsbD_not, BitVec.getLsbD_or, getLsbD_statusDoneMask i hi,
    State.getLsbD_status, State.busy_writeStatus,
    State.writeStatus_done, State.writeStatus_error, State.errCode_writeStatus]
  cases w.getLsbD 2 with
  | false => grind
  | true => grind [getLsbD_statusErrorMask i hi]

/-- Settles O12: the flags as a number give the layout, and their bits give what a write clears. -/
theorem statusWriteOneToClear : Obligations.StatusWriteOneToClear := by
  refine ⟨by decide, fun s w rest h => ⟨?_, _, step_writeStatus h, rfl, State.status_writeStatus _ w⟩⟩
  rw [State.status_eq_ofNat, State.toNat_busy, State.errCode]
  cases s.error <;> cases s.done <;> rfl

/-! ### The error record -/

/-- A FRAME's engine step keeps the error record or records an error. -/
theorem execFrame_error {s t : State} (h : execFrame s = .next t) :
    t.error = s.error ∨ ∃ e, t.error = some (s.error.getD e) := by
  rcases execFrame_cases h with ⟨_, rfl⟩ | ⟨r, _, ⟨e, _, rfl⟩ | ⟨j, _, ⟨_, _, rfl⟩ | ⟨p, _, ⟨_, rfl⟩ | ⟨_, rfl⟩⟩⟩⟩
  case inl => exact .inl rfl
  case inr.inl => exact .inr ⟨e, rfl⟩
  case inr.inr.inl => exact .inl rfl
  case inr.inr.inr.inl =>
    rcases framePixel_cases j r p (j.pick p.done s.freeCount) { s with freeCount := s.freeCount + 1 } with
      ⟨_, _, hstored⟩ | ⟨_, hfault⟩
    · rw [hstored]
      exact .inl rfl
    · rw [hfault, State.endError_error, Job.abandon_eq]
      exact .inr ⟨_, rfl⟩
  case inr.inr.inr.inr =>
    rw [frameComplete, State.endOk_error]
    split <;> exact .inl rfl

/-- An engine step keeps the error record or records an error. -/
theorem exec_error {i : Instr} {s t : State} (h : exec i s = .next t) :
    t.error = s.error ∨ ∃ e, t.error = some (s.error.getD e) := by
  by_cases hi : i = .frame
  case pos =>
    subst hi
    exact execFrame_error h
  case neg =>
    obtain ⟨f, hf⟩ := exec_single hi
    rcases runCommand_cases ((hf s).symm.trans h) with ⟨_, rfl⟩ | ⟨_, _, ⟨e, _, rfl⟩ | ⟨_, _, rfl⟩⟩
    · exact .inl rfl
    · exact .inr ⟨e, rfl⟩
    · exact .inl rfl

/-- A host write of the window keeps the error record, records BUSY_REJECT, or is a write of STATUS that clears it. -/
theorem State.writeReg_error (s : State) (off : Nat) (w : Word) :
    (s.writeReg off w).error = s.error ∨ (s.writeReg off w).error = some (s.error.getD .busyReject) ∨
      ((s.writeReg off w).error = none ∧ off = 0x008 ∧ w.getLsbD 2 = true) := by
  unfold State.writeReg
  split
  case h_2 =>
    rw [State.writeStatus_error]
    split
    · next hbit => exact .inr (.inr ⟨rfl, rfl, hbit⟩)
    · exact .inl rfl
  case h_3 =>
    unfold State.writeCmd
    split
    · exact .inr (.inl rfl)
    · exact .inl rfl
  all_goals exact .inl rfl

/-- A host access keeps the error record, records BUSY_REJECT, or is a write of STATUS that clears it. -/
theorem hostStep_error {a : HostAction} {s t : State} (h : hostStep a s = .next t) :
    t.error = s.error ∨ (∃ e, t.error = some (s.error.getD e)) ∨
      (t.error = none ∧ ∃ w, w.getLsbD 2 = true ∧ a = .regWrite (s.platform.regBase + 0x008) 4 w) := by
  unfold hostStep at h
  split at h
  case h_1 =>
    split at h
    · split at h <;> cases h
      exact .inl rfl
    · cases h
      exact .inl rfl
  case h_2 addr width w =>
    split at h
    case isTrue hin =>
      split at h
      case isTrue hlegal =>
        cases h
        obtain hkeep | hreject | ⟨hclear, hoff, hbit⟩ := s.writeReg_error (addr - s.platform.regBase) w
        · exact .inl hkeep
        · exact .inr (.inl ⟨_, hreject⟩)
        · have haddr : addr = s.platform.regBase + 0x008 := by omega
          obtain ⟨rfl, _⟩ := (accessLegal_iff _ _).1 hlegal
          exact .inr (.inr ⟨hclear, w, hbit, by rw [haddr]⟩)
      case isFalse => cases h
    case isFalse =>
      cases h
      exact .inl rfl
  case h_3 addr =>
    split at h <;> cases h
    rw [State.hostRead_eq]
    exact .inl rfl
  case h_4 =>
    split at h <;> cases h
    exact .inl rfl

/-- What one step from `s` can leave in the error record: the record as it was, or an error recorded, or nothing after
one of the two events that clear it (10_state.md R35). -/
def State.errorMayBecome (s : State) (error : Option ErrorCode) : Prop :=
  error = s.error ∨ (∃ e, error = some (s.error.getD e)) ∨
    (error = none ∧ ∃ rest w, w.getLsbD 2 = true ∧
      s.agenda = .host (.regWrite (s.platform.regBase + 0x008) 4 w) :: rest) ∨
    (error = none ∧ ∃ rest, s.agenda = .reset :: rest)

/-- The move of another agent on the error record. -/
theorem nextMove_other_error {s t : State} (h : nextMove s = .other (.next t)) : s.errorMayBecome t.error := by
  unfold nextMove at h
  split at h
  case h_1 => cases h
  case h_2 => cases h
  case h_3 a rest hagenda =>
    injection h with h
    obtain hkeep | hrecord | ⟨hclear, w, hbit, rfl⟩ := hostStep_error h
    · exact .inl hkeep
    · exact .inr (.inl hrecord)
    · exact .inr (.inr (.inl ⟨hclear, rest, w, hbit, hagenda⟩))
  case h_4 =>
    split at h <;> cases h
    exact .inl rfl
  case h_5 rest hagenda =>
    cases h
    exact .inr (.inr (.inr ⟨rfl, rest, hagenda⟩))

/-- A step on the error record. -/
theorem step_error {s t : State} (h : step s = .next t) : s.errorMayBecome t.error := by
  rcases step_cases s with ⟨o, hmove, ho⟩ | ⟨u, hmove, hturn⟩
  case inl => exact nextMove_other_error (by rw [hmove, ← ho, h])
  case inr =>
    have hu : u.error = s.error := by rw [nextMove_engine hmove]
    rw [State.errorMayBecome, ← hu]
    rcases hturn with ⟨_, hstep⟩ | ⟨e, _, hstep⟩ | ⟨i, _, hstep⟩
    · cases hstep.symm.trans h
      exact .inl rfl
    · cases hstep.symm.trans h
      exact .inr (.inl ⟨_, rfl⟩)
    · obtain hkeep | hrecord := exec_error (hstep.symm.trans h)
      · exact .inl hkeep
      · exact .inr (.inl hrecord)

/-- Settles O13: an error recorded over a recorded one leaves the first, so only the two clearing events remove it. -/
theorem firstErrorKeptUntilCleared : Obligations.FirstErrorKeptUntilCleared := by
  refine ⟨rfl, fun s e => ⟨fun h => ?_, fun e0 h => ?_⟩, fun s w rest hbit h => ?_, fun s t e h hstep => ?_⟩
  · rw [State.endError_error, h, Option.getD_none]
  · rw [State.endError_error, h, Option.getD_some]
  · refine ⟨_, step_writeStatus h, ?_, ?_⟩
    · rw [State.writeStatus_error, if_pos hbit]
    · rw [State.errCode_writeStatus, if_pos hbit]
  · obtain hkeep | ⟨e', hrecord⟩ | hcleared := step_error hstep
    · exact .inl (hkeep.trans h)
    · exact .inl (by rw [hrecord, h, Option.getD_some])
    · exact .inr hcleared

end Sys2Proof.Machine
end

section
/-! BayerMap (40_lookup.md): the ranks as the tables' rows, and the exact threshold of a rank (R102). -/

namespace Sys2Proof.Machine

/-! ### Ranks -/

/-- The rows of a table laid end to end: entry (a, b) stands at b * n + a when every row has n entries. -/
theorem getD_flatten_of_uniform {n a : Nat} (ha : a < n) (rows : List (List Nat)) (hrows : ∀ r ∈ rows, r.length = n)
    (b : Nat) : rows.flatten.getD (b * n + a) 0 = (rows.getD b []).getD a 0 := by
  induction rows generalizing b with
  | nil => rfl
  | cons r rows ih =>
    obtain ⟨hr, hrest⟩ := List.forall_mem_cons.1 hrows
    rw [List.flatten_cons]
    cases b with
    | zero => rw [Nat.zero_mul, Nat.zero_add, List.getD_append _ _ _ _ (by omega), List.getD_cons_zero]
    | succ b =>
      have hindex : (b + 1) * n + a = r.length + (b * n + a) := by rw [hr]; ring
      rw [hindex, List.getD_append_right _ _ _ _ (Nat.le_add_right _ _), Nat.add_sub_cancel_left, List.getD_cons_succ,
        ih hrest]

theorem matrixN_pos (m : MatrixSize) : 0 < matrixN m := by cases m <;> decide

/-- The rank of (x, y) is the entry at row y mod n and column x mod n (40_lookup.md R102). -/
theorem bayerRank_eq_of_rows (m : MatrixSize) (rows : List (List Nat)) (htable : bayerTable m = rows.flatten)
    (hrows : ∀ r ∈ rows, r.length = matrixN m) (x y : Nat) :
    bayerRank m x y = (rows.getD (y % matrixN m) []).getD (x % matrixN m) 0 := by
  rw [bayerRank, htable, getD_flatten_of_uniform (Nat.mod_lt x (matrixN_pos m)) rows hrows]

theorem bayerTable_lt (m : MatrixSize) : ∀ k ∈ bayerTable m, k < matrixN m * matrixN m := by cases m <;> decide

theorem bayerRank_lt (m : MatrixSize) (x y : Nat) : bayerRank m x y < matrixN m * matrixN m := by
  unfold bayerRank
  generalize y % matrixN m * matrixN m + x % matrixN m = i
  rw [List.getD_eq_getElem?_getD]
  cases hi : (bayerTable m)[i]? with
  | none => exact Nat.mul_pos (matrixN_pos m) (matrixN_pos m)
  | some k => exact bayerTable_lt m k (List.mem_of_getElem? hi)

theorem bayerRank_mod (m : MatrixSize) (x y : Nat) :
    bayerRank m x y = bayerRank m (x % matrixN m) (y % matrixN m) := by
  simp only [bayerRank, Nat.mod_mod]

/-! ### Thresholds -/

/-- A quotient whose exact value is representable is exact. -/
theorem fdiv_exact (a b : F32) (ha : F32.isFinite a = true) (hb : F32.isFinite b = true)
    (h0 : 0 < F32.magnitude b) (m k : Nat) (hm : m < 2 ^ 24) (hk : k ≤ 253)
    (hs : F32.magnitude a * F32.unit = m * 2 ^ k * F32.magnitude b) :
    F32.isFinite (fdiv a b) = true ∧ F32.sign (fdiv a b) = (F32.sign a != F32.sign b) ∧
      F32.magnitude (fdiv a b) = m * 2 ^ k := by
  have h := F32.ofRatio_exact (F32.sign a != F32.sign b) m k (F32.magnitude b) h0 hm hk
  have he : fdiv a b = F32.ofRatio (F32.sign a != F32.sign b) (m * 2 ^ k * F32.magnitude b) (F32.magnitude b) := by
    simp [fdiv, ha, hb, hs, h0.ne']
  rw [he]
  exact ⟨h.1, F32.sign_ofRatio _ _ _, h.2⟩

/-- A natural number divided by a power of two is exact (40_lookup.md R102). -/
theorem fdiv_f32_two_pow (k p : Nat) (hk : k < 2 ^ 24) (hp : p < 24) :
    F32.isFinite (fdiv (f32 k) (f32 (2 ^ p))) = true ∧
      F32.scaled (fdiv (f32 k) (f32 (2 ^ p))) = k * 2 ^ (149 - p) := by
  obtain ⟨hfa, hsa, hma⟩ := f32_exact k hk
  obtain ⟨hfb, hsb, hmb⟩ := f32_exact (2 ^ p) (Nat.pow_lt_pow_right (by decide) hp)
  have hpos : 0 < F32.magnitude (f32 (2 ^ p)) := by
    rw [hmb]
    exact Nat.mul_pos (Nat.two_pow_pos p) F32.unit_pos
  have hquot : F32.magnitude (f32 k) * F32.unit = k * 2 ^ (149 - p) * F32.magnitude (f32 (2 ^ p)) := by
    have hunit := F32.unit_split p (by omega)
    calc F32.magnitude (f32 k) * F32.unit = k * F32.unit * (2 ^ (149 - p) * 2 ^ p) := by rw [hma, ← hunit]
      _ = k * 2 ^ (149 - p) * F32.magnitude (f32 (2 ^ p)) := by rw [hmb]; ring
  obtain ⟨hfin, hsign, hmag⟩ := fdiv_exact _ _ hfa hfb hpos k (149 - p) hk (by omega) hquot
  refine ⟨hfin, ?_⟩
  simp [F32.scaled, hsign, hsa, hsb, hmag]

/-- The constant 0.5 is half of 1. -/
theorem f32Half_spec : F32.isFinite f32Half = true ∧ F32.scaled f32Half = 2 ^ 148 := by decide

/-- n² is a power of two. -/
theorem matrixN_sq_eq_two_pow (m : MatrixSize) : ∃ p < 24, matrixN m * matrixN m = 2 ^ p := by
  cases m with
  | n4 => exact ⟨4, by decide, rfl⟩
  | n8 => exact ⟨6, by decide, rfl⟩

/-- k / 2^p - 1/2 is exact for k < 2^p: in units of 2^-149 it is (2 k - 2^p) * 2^(148 - p), a binary32 again. -/
theorem scaled_fdiv_sub_half (k p : Nat) (hk : k < 2 ^ p) (hp : p < 24) :
    F32.isFinite (fsub (fdiv (f32 k) (f32 (2 ^ p))) f32Half) = true ∧
      F32.scaled (fsub (fdiv (f32 k) (f32 (2 ^ p))) f32Half) = (2 * k - 2 ^ p : Int) * 2 ^ (148 - p) := by
  have hbound : (2 : Nat) ^ p < 2 ^ 24 := Nat.pow_lt_pow_right (by decide) hp
  obtain ⟨hfin, hquot⟩ := fdiv_f32_two_pow k p (by omega) hp
  obtain ⟨hhfin, hhalf⟩ := f32Half_spec
  have hdiff : F32.scaled (fdiv (f32 k) (f32 (2 ^ p))) + F32.scaled (fneg f32Half) =
      (2 * k - 2 ^ p : Int) * 2 ^ (148 - p) := by
    obtain ⟨e, he⟩ : ∃ e, 148 = p + e := ⟨148 - p, by omega⟩
    rw [scaled_fneg, hquot, hhalf, show 149 - p = e + 1 by omega, he, Nat.add_sub_cancel_left]
    ring
  have hrep : ((2 * k - 2 ^ p : Int) * 2 ^ (148 - p)).natAbs = (2 * k - 2 ^ p : Int).natAbs * 2 ^ (148 - p) := by
    rw [Int.natAbs_mul, Int.natAbs_pow]
    rfl
  have hsmall : (2 * k - 2 ^ p : Int).natAbs < 2 ^ 24 := by
    zify at hk hbound
    omega
  rw [← hdiff]
  exact fadd_exact _ _ hfin ((isFinite_fneg _).trans hhfin) _ (148 - p) hsmall (by omega)
    ((congrArg Int.natAbs hdiff).trans hrep)

/-- The threshold of a rank k < n² is exactly k / n² - 1/2 (40_lookup.md R102). -/
theorem scaled_rankThreshold (m : MatrixSize) (k : Nat) (hk : k < matrixN m * matrixN m) :
    F32.isFinite (rankThreshold m k) = true ∧
    (matrixN m * matrixN m : Int) * 2 * F32.scaled (rankThreshold m k) =
      (2 * k - matrixN m * matrixN m : Int) * (F32.unit : Int) := by
  obtain ⟨p, hp, hsq⟩ := matrixN_sq_eq_two_pow m
  obtain ⟨hfin, hval⟩ := scaled_fdiv_sub_half k p (hsq ▸ hk) hp
  rw [rankThreshold, hsq]
  refine ⟨hfin, ?_⟩
  have hsqInt : (matrixN m * matrixN m : Int) = 2 ^ p := by exact_mod_cast hsq
  have hunit : (F32.unit : Int) = 2 * (2 ^ p * 2 ^ (148 - p)) := by
    rw [← pow_add, Nat.add_sub_cancel' (by omega)]
    rfl
  rw [hval, hsqInt, hunit]
  ring

/-- Settles O26: the flat tables are their rows laid end to end, and the threshold of a rank is exact. -/
theorem thresholdIsExact : Obligations.ThresholdIsExact :=
  ⟨bayerRank_eq_of_rows .n4 _ rfl (by decide), bayerRank_eq_of_rows .n8 _ rfl (by decide), fun m x y =>
    ⟨bayerRank_lt m x y, bayerRank_mod m x y, (scaled_rankThreshold m _ (bayerRank_lt m x y)).2⟩⟩

end Sys2Proof.Machine
end

section
/-! The memory of 20_memory.md: the bytes that a pixel step of FRAME stores, and the host's stores and reads. -/

namespace Sys2Proof.Machine

/-! ### A pixel step of FRAME -/

/-- The index stored by a pixel step, with its accesses performed. -/
theorem framePixel_stores {j : Job} {r : Running} {p : Progress} {i : Nat} {s : State}
    (hreads : j.readsOk s.platform i = true) (hwrites : j.writesOk s.platform i = true) :
    framePixel j r p i s = { s with
      mem := s.mem.writeCells (j.cells s.mem i)
      phase := .busy { r with progress := some { p with done := insertIndex i p.done } } } :=
  if_pos (by rw [hreads, hwrites]; rfl)

/-- A pixel step with an access that is not performed ends the command, so one that stays BUSY performed them all. -/
theorem accessesOk_of_framePixel_busy {j : Job} {r : Running} {p : Progress} {i : Nat} {s : State}
    (hbusy : (framePixel j r p i s).phase ≠ .idle) :
    j.readsOk s.platform i = true ∧ j.writesOk s.platform i = true := by
  rcases framePixel_cases j r p i s with ⟨hreads, hwrites, _⟩ | ⟨_, hfault⟩
  · exact ⟨hreads, hwrites⟩
  · exact absurd (by rw [hfault, State.endError_phase]) hbusy

/-- The writes of a pixel leave every byte that is no output byte of it alone. -/
theorem Job.read_writeCells_of_not_outAddr {j : Job} {m : Memory} {i a : Nat} (hm : m.wf) (ha : a ∉ j.outAddrs i) :
    (m.writeCells (j.cells m i)).read a = m.read a :=
  Memory.read_writeCells_of_not_mem _ a (fun _ hc heq => ha (heq ▸ Job.cell_addr hc)) m hm

/-- Settles O47: the step takes the picked index, which is not completed, and stays BUSY exactly by storing it. -/
theorem framePixelStepStoresOnePixel : Obligations.FramePixelStepStoresOnePixel := by
  intro s r j p hinv hr hj hp hleft
  have hwf : s.mem.wf := ((State.inv_iff s).1 hinv).1
  have valid : j.Valid := (frameJob_ok (Running.frame_some hj).2).1
  obtain ⟨hsorted, -⟩ := State.inv_progress hinv hr hj hp
  obtain ⟨hi, hnew⟩ := Job.pick_spec j p.done s.freeCount hsorted hleft
  refine ⟨_, execFrame_pixel hr hj hp hleft, fun hclear => ?_, fun hbusy => ?_⟩
  · obtain ⟨hreads, hwrites⟩ := Job.busClear_at hclear hi
    rw [framePixel_stores (s := { s with freeCount := s.freeCount + 1 }) hreads hwrites]
    exact nofun
  · obtain ⟨hreads, hwrites⟩ := accessesOk_of_framePixel_busy hbusy
    rw [framePixel_stores (s := { s with freeCount := s.freeCount + 1 }) hreads hwrites]
    exact ⟨_, _, hi, hnew, hreads, hwrites, fun k => mem_insertIndex _ k p.done, rfl,
      fun c hc => Memory.read_writeCells_of_mem _ (valid.cells_distinct _ hi) c hc _ hwf,
      fun a ha => Job.read_writeCells_of_not_outAddr hwf ha⟩

/-! ### The host's stores -/

theorem step_memWrite {s : State} {x : Nat} {v : Byte} {rest : List Event} (hx : x < 2 ^ 32)
    (h : s.agenda = .host (.memWrite x v) :: rest) :
    step s = .next (State.hostWrite { s with agenda := rest } x v) := by
  rw [step_host h]
  exact if_pos hx

theorem State.hostWrite_phase_idle {s : State} (h : s.phase = .idle) (a : Nat) (v : Byte) :
    (s.hostWrite a v).phase = .idle := by
  simp only [State.hostWrite, h]

theorem State.hostWrite_phase_busy {s : State} {r : Running} (h : s.phase = .busy r) (a : Nat) (v : Byte) :
    (s.hostWrite a v).phase = .busy (r.disturb a) := by
  simp only [State.hostWrite, h]

/-- A host store into a buffer of a running FRAME marks it. -/
theorem State.hostWrite_disturbs {s : State} {r : Running} {j : Job} {a : Nat} (hr : s.phase = .busy r)
    (hj : r.frame = some j) (ha : (j.srcRegion.has a || j.dstRegion.has a || j.pkRegion.has a) = true) (v : Byte) :
    (s.hostWrite a v).phase = .busy { r with disturbed := true } := by
  rw [State.hostWrite_phase_busy hr, Running.disturb_frame hj, if_pos ha]

/-- A host store outside the buffers of a running FRAME leaves the phase alone. -/
theorem State.hostWrite_keeps_phase {s : State} {a : Nat} (h : ∀ r j, s.phase = .busy r → r.frame = some j →
    (j.srcRegion.has a || j.dstRegion.has a || j.pkRegion.has a) = false) (v : Byte) :
    (s.hostWrite a v).phase = s.phase := by
  cases hphase : s.phase with
  | idle => exact State.hostWrite_phase_idle hphase a v
  | busy r =>
    rw [State.hostWrite_phase_busy hphase]
    cases hframe : r.frame with
    | none => rw [Running.disturb_none hframe]
    | some j =>
      have hout := h r j hphase hframe
      rw [Running.disturb_frame hframe, if_neg (by rw [hout]; exact Bool.false_ne_true)]

/-! ### The host's reads -/

theorem step_memRead {s : State} {x : Nat} {rest : List Event} (hx : x < 2 ^ 32)
    (h : s.agenda = .host (.memRead x) :: rest) :
    step s = .next (State.hostRead { s with agenda := rest } x) := by
  rw [step_host h]
  exact if_pos hx

/-- The address of an output byte of a pixel lies in an output buffer. -/
theorem Job.cell_inOutput {j : Job} {m : Memory} {i : Nat} {c : Host.Cell} (hi : i < j.count) (hc : c ∈ j.cells m i) :
    (j.dstRegion.has c.1 || j.pkRegion.has c.1) = true :=
  Bool.or_eq_true_iff.2 (Job.outAddrs_region hi (Job.cell_addr hc)).symm

/-- Before validation, a host read of an output byte of an undisturbed FRAME gives the computed value or memory's. -/
theorem State.hostRead_unvalidated {s : State} {r : Running} {j : Job} {i : Nat} {c : Host.Cell}
    (hr : s.phase = .busy r) (hj : r.frame = some j) (hd : r.disturbed = false) (hp : r.progress = none)
    (hi : i < j.count) (hc : c ∈ j.cells s.mem i) :
    (s.hostRead c.1).hostData = c.2.setWidth 32 ∨ (s.hostRead c.1).hostData = (s.mem.read c.1).setWidth 32 := by
  have valid : j.Valid := (frameJob_ok (Running.frame_some hj).2).1
  rcases State.hostRead_output hr hj hd (Job.cell_inOutput hi hc) with hnew | ⟨_, hold⟩ | ⟨p, hsome, _⟩
  · exact .inl (by rw [hnew, valid.finalByte_eq hi hc])
  · exact .inr hold
  · exact nomatch hp.symm.trans hsome

/-- After validation and with exact memory, whose input is as it was, a host read of an output byte of an undisturbed
FRAME gives the value computed from the memory at validation, or that memory's. -/
theorem State.hostRead_validated {s : State} {r : Running} {j : Job} {p : Progress} {i : Nat} {c : Host.Cell}
    (hr : s.phase = .busy r) (hj : r.frame = some j) (hd : r.disturbed = false) (hp : r.progress = some p)
    (hexact : s.frameExact) (hi : i < j.count) (hc : c ∈ j.cells p.before i) :
    (s.hostRead c.1).hostData = c.2.setWidth 32 ∨ (s.hostRead c.1).hostData = (p.before.read c.1).setWidth 32 := by
  have valid : j.Valid := (frameJob_ok (Running.frame_some hj).2).1
  obtain ⟨-, -, hinput⟩ := hexact r p j hr hp hj hd
  have hcells : c ∈ j.cells s.mem i := by rwa [Job.cells_congr hi hinput]
  rcases State.hostRead_output hr hj hd (Job.cell_inOutput hi hc) with hnew | ⟨hnone, _⟩ | ⟨q, hq, hold⟩
  · exact .inl (by rw [hnew, valid.finalByte_eq hi hcells])
  · exact nomatch hnone.symm.trans hp
  · cases hp.symm.trans hq
    exact .inr hold

/-! ### Accesses past the space -/

/-- The host's access of an address past the last DMA byte stops the machine. -/
theorem step_outsideDmaSpace {s : State} {x : Nat} {v : Byte} {rest : List Event} (hx : 2 ^ 32 ≤ x)
    (h : s.agenda = .host (.memWrite x v) :: rest ∨ s.agenda = .host (.memRead x) :: rest) :
    step s = .fault .outsideDmaSpace := by
  rcases h with h | h <;> rw [step_host h] <;> exact if_neg (Nat.not_lt.2 hx)

/-- Settles O53: a store and a read each as the laws of `hostWrite` and `hostRead` give them, with the event used up. -/
theorem hostMemoryAccesses : Obligations.HostMemoryAccesses := by
  intro s x v rest hinv
  have hwf : s.mem.wf := ((State.inv_iff s).1 hinv).1
  refine ⟨fun h hx => ⟨_, step_memWrite hx h, rfl, fun a => Memory.read_write s.mem x a v hwf,
    fun r j hr hj ha => State.hostWrite_disturbs hr hj ha v, fun hout => State.hostWrite_keeps_phase hout v⟩,
    fun h hx => ⟨_, step_memRead hx h, State.hostRead_eq _ x, ?_, ?_⟩, step_outsideDmaSpace⟩
  · intro hout
    rw [BitVec.ofNat_toNat]
    exact State.hostRead_plain hout
  · rintro r j i c hr hj hd hi rfl
    simp only [BitVec.ofNat_toNat]
    exact ⟨fun hp hc => State.hostRead_unvalidated hr hj hd hp hi hc,
      fun p hp hexact hc => State.hostRead_validated hr hj hd hp (State.frameExact_congr rfl rfl hexact) hi hc⟩

end Sys2Proof.Machine
end

section
/-! The command words of 30_encoding.md: what the decoder answers by the word's bits, and the assembler's words. -/

namespace Sys2Proof

/-! ### The decoder -/

/-- The opcodes of 30_encoding.md R86. -/
def legalOpcodes : List Nat :=
  [0x00, 0x01, 0x02, 0x03, 0x04, 0x10, 0x11, 0x12, 0x13, 0x14, 0x20, 0x21, 0x30]

/-- A check of 30_encoding.md R87 after the one of the opcode fails, by arithmetic on the word. -/
abbrev ReservedSet (w : Nat) : Prop :=
  w / 4096 ≠ 0 ∨ (w % 256 ≠ 3 ∧ w / 256 % 8 ≠ 0) ∨ (w % 256 = 3 ∧ w / 512 % 4 = 3) ∨
    (w % 256 ≠ 2 ∧ w % 256 ≠ 4 ∧ w / 2048 % 2 ≠ 0)

/-- The opcode and the fields of a command are the bits of the word. -/
def Instr.ReadFrom (i : Instr) (w : Nat) : Prop :=
  i.opcode.toNat = w % 256 ∧
    (∀ flip step, i = .qnoise flip step → flip = decide (w / 256 % 2 = 1) ∧ step.toNat = w / 512 % 4) ∧
    (∀ n, i = .bayer n ∨ i = .qord n → n = if w / 2048 % 2 = 1 then .n8 else .n4)

theorem flipField_eq (w : Word) : flipField w = decide (w.toNat / 256 % 2 = 1) := by
  rw [flipField, ← BitVec.testBit_toNat, Nat.testBit_eq_decide_div_mod_eq]

theorem MatrixSize.ofBit_nselField (w : Word) :
    MatrixSize.ofBit (nselField w) = if w.toNat / 2048 % 2 = 1 then .n8 else .n4 := by
  simp only [MatrixSize.ofBit, nselField_eq, decide_eq_true_eq]

/-- QNOISE is the command that uses FLIP and STEP. -/
theorem Instr.usesFlipStep_eq (i : Instr) : i.usesFlipStep = decide (i.opcode.toNat = 3) := by
  cases i <;> rfl

/-- BAYER and QORD are the commands that use NSEL. -/
theorem Instr.usesNsel_eq (i : Instr) : i.usesNsel = decide (i.opcode.toNat = 2 ∨ i.opcode.toNat = 4) := by
  cases i <;> rfl

theorem Instr.opcode_mem_legalOpcodes (i : Instr) : i.opcode.toNat ∈ legalOpcodes := by
  cases i <;> simp [Instr.opcode, legalOpcodes]

/-- The command selected by an opcode reads its opcode and its fields from the word. -/
theorem instrOfOpc_readFrom {w : Word} {i : Instr} (h : instrOfOpc w = some i) : i.ReadFrom w.toNat := by
  have hstep := stepField_toNat w
  have hflip := flipField_eq w
  have hsize := MatrixSize.ofBit_nselField w
  unfold instrOfOpc at h
  rw [opcField_toNat] at h
  split at h
  case h_14 => exact nomatch h
  all_goals
    cases h
    next hopc => simp [Instr.ReadFrom, Instr.opcode, hopc, hstep, hflip, hsize]

theorem instrOfOpc_isSome {w : Word} (h : w.toNat % 256 ∈ legalOpcodes) : (instrOfOpc w).isSome := by
  simp only [legalOpcodes, List.mem_cons, List.not_mem_nil, or_false] at h
  rcases h with h | h | h | h | h | h | h | h | h | h | h | h | h <;>
    simp only [instrOfOpc, opcField_toNat, h, Option.isSome_some]

theorem decode_illegal {w : Word} (h : w.toNat % 256 ∉ legalOpcodes) : decode w = .reject .illegalOpcode := by
  cases hi : instrOfOpc w with
  | none => simp only [decode, hi]
  | some i => exact absurd ((instrOfOpc_readFrom hi).1 ▸ i.opcode_mem_legalOpcodes) h

/-- For a legal opcode, the checks that are left reject exactly by `ReservedSet`. -/
theorem decode_legal {w : Word} {i : Instr} (hi : instrOfOpc w = some i) :
    decode w = if ReservedSet w.toNat then .reject .reservedField else .instr i := by
  have hopc : i.opcode.toNat = w.toNat % 256 := (instrOfOpc_readFrom hi).1
  simp only [decode, hi, ReservedSet, ite_or, rsvdField_ne_zero, flipStepBits_ne_zero, stepField_eq_three,
    nselField_eq, i.usesFlipStep_eq, i.usesNsel_eq, hopc]
  simp [and_assoc]

/-! ### The assembler -/

/-- The lines with a word are those of the table of 30_encoding.md R95. -/
theorem assemble_eq_none_iff (line : String) : assemble line = none ↔ line ∉ asmTable.map (·.1) := by
  simp only [assemble, Option.map_eq_none_iff, List.find?_eq_none, List.mem_map, beq_iff_eq, not_exists, not_and]

/-- Settles O3: the rows by evaluation, and any other line by the search of the table that fails. -/
theorem assemblerSpellings : Obligations.AssemblerSpellings :=
  ⟨by decide, by decide, fun line => (assemble_eq_none_iff line).2⟩

end Sys2Proof

namespace Sys2Proof.Machine

/-- A BUSY engine rejects what the decoder rejects of the latched word. -/
theorem State.fetch_reject {s : State} {r : Running} {e : DecodeError} (hr : s.phase = .busy r)
    (hd : decode r.latch.word = .reject e) : s.fetch = .reject e := by
  simp only [State.fetch, hr, hd]

/-- A BUSY engine takes the command that the decoder answers for the latched word. -/
theorem State.fetch_instr {s : State} {r : Running} {i : Instr} (hr : s.phase = .busy r)
    (hd : decode r.latch.word = .instr i) : s.fetch = .instr i := by
  simp only [State.fetch, hr, hd]

/-- Settles O2: the opcode selects a command or none, and then the checks that are left fail or the command is
fetched. -/
theorem decodeChecksInOrder : Obligations.DecodeChecksInOrder := by
  intro s r hr
  refine ⟨fun hillegal => State.fetch_reject hr (decode_illegal hillegal), fun hlegal hbad => ?_,
    fun hlegal hgood => ?_⟩
  all_goals obtain ⟨i, hi⟩ := Option.isSome_iff_exists.1 (instrOfOpc_isSome hlegal)
  · exact State.fetch_reject hr ((decode_legal hi).trans (if_pos hbad))
  · exact ⟨i, State.fetch_instr hr ((decode_legal hi).trans (if_neg hgood)), instrOfOpc_readFrom hi⟩

end Sys2Proof.Machine
end

section
/-! NoiseField (40_lookup.md): the noise of all coordinates below 2^20 lies in [0, 1) (R104), and its pattern has a
clear sign bit (R101). -/

namespace Sys2Proof.Machine

/-! ### Non-negative patterns under a bound -/

/-- A finite pattern with a clear sign bit whose value is at most the integer `n`. -/
def F32.InRange (n : Nat) (f : F32) : Prop :=
  F32.isFinite f = true ∧ F32.sign f = false ∧ F32.magnitude f ≤ n * F32.unit

/-- The value of a pattern with a clear sign bit is its magnitude. -/
theorem F32.scaled_of_sign_clear {f : F32} (h : F32.sign f = false) : F32.scaled f = F32.magnitude f :=
  F32.scaled_eq_magnitude (F32.scaled_nonneg h)

theorem f32_inRange {i n : Nat} (hi : i ≤ n) (hn : n < 2 ^ 24) : F32.InRange n (f32 i) := by
  obtain ⟨hfin, hsign, hmag⟩ := f32_exact i (by omega)
  exact ⟨hfin, hsign, hmag.le.trans (Nat.mul_le_mul_right _ hi)⟩

theorem fmul_inRange {a b : F32} {p q : Nat} (ha : F32.InRange p a) (hb : F32.InRange q b) (hpq : p * q < 2 ^ 24) :
    F32.InRange (p * q) (fmul a b) := by
  obtain ⟨hfa, hsa, hma⟩ := ha
  obtain ⟨hfb, hsb, hmb⟩ := hb
  have hprod : F32.magnitude a * F32.magnitude b ≤ p * q * F32.unit * F32.unit :=
    calc F32.magnitude a * F32.magnitude b ≤ p * F32.unit * (q * F32.unit) := Nat.mul_le_mul hma hmb
      _ = p * q * F32.unit * F32.unit := by ring
  obtain ⟨hfin, hsign, hmag⟩ := fmul_bound a b hfa hfb (p * q) 149 hpq (by decide) hprod
  exact ⟨hfin, by rw [hsign, hsa, hsb]; rfl, hmag⟩

theorem fadd_inRange {a b : F32} {p q : Nat} (ha : F32.InRange p a) (hb : F32.InRange q b) (hpq : p + q < 2 ^ 24) :
    F32.InRange (p + q) (fadd a b) := by
  obtain ⟨hfa, hsa, hma⟩ := ha
  obtain ⟨hfb, hsb, hmb⟩ := hb
  have hsum : F32.scaled a + F32.scaled b = (F32.magnitude a + F32.magnitude b : Nat) := by
    rw [F32.scaled_of_sign_clear hsa, F32.scaled_of_sign_clear hsb, Nat.cast_add]
  have hbound : (F32.scaled a + F32.scaled b).natAbs ≤ (p + q) * F32.unit := by
    rw [hsum, Int.natAbs_natCast, Nat.add_mul]
    exact Nat.add_le_add hma hmb
  obtain ⟨hfin, hmag, _, _⟩ := fadd_bound a b hfa hfb (p + q) 149 hpq (by decide) hbound
  rw [F32.natAbs_scaled] at hmag
  exact ⟨hfin, sign_fadd_of_nonneg a b hfa hfb (.inl hsa) (hsum ▸ Int.natCast_nonneg _), hmag⟩

/-- The fractional part of a pattern with a clear sign bit has a clear sign bit too, and lies below 1
(00_scope.md R14). -/
theorem ffrac_inUnit {v : F32} {n : Nat} (hv : F32.InRange n v) :
    F32.isFinite (ffrac v) = true ∧ F32.sign (ffrac v) = false ∧ F32.magnitude (ffrac v) < F32.unit := by
  obtain ⟨hfin, hsign, _⟩ := hv
  have hnonneg := F32.scaled_nonneg hsign
  obtain ⟨hffin, _, _, hlt⟩ := fracIsExact v hfin hnonneg
  have hdiff : 0 ≤ F32.scaled v + F32.scaled (fneg (ftrunc v)) := by
    rw [scaled_sub_ftrunc v hfin hnonneg]
    exact Int.emod_nonneg _ (Int.natCast_pos.2 F32.unit_pos).ne'
  have hfsign : F32.sign (ffrac v) = false :=
    sign_fadd_of_nonneg _ _ hfin ((isFinite_fneg _).trans (ftrunc_spec v hfin).1) (.inl hsign) hdiff
  rw [F32.scaled_of_sign_clear hfsign] at hlt
  exact ⟨hffin, hfsign, Int.ofNat_lt.1 hlt⟩

theorem ffrac_inRange {v : F32} {n : Nat} (hv : F32.InRange n v) : F32.InRange 1 (ffrac v) := by
  obtain ⟨hfin, hsign, hlt⟩ := ffrac_inUnit hv
  exact ⟨hfin, hsign, by omega⟩

/-! ### The noise -/

/-- The constants of 10_state.md R48 under integer bounds. -/
theorem noiseConstants_inRange : F32.InRange 1 noiseC0 ∧ F32.InRange 1 noiseC1 ∧ F32.InRange 53 noiseC2 := by
  unfold F32.InRange
  decide

/-- No operation overflows for coordinates below 2^20: the sum stays at or below 2^21. -/
theorem noiseSum_inRange {x y : Nat} (hx : x < 2 ^ 20) (hy : y < 2 ^ 20) : F32.InRange (2 ^ 21) (noiseSum x y) := by
  obtain ⟨h0, h1, _⟩ := noiseConstants_inRange
  have hxC0 := fmul_inRange (f32_inRange hx.le (by decide)) h0 (by decide)
  have hyC1 := fmul_inRange (f32_inRange hy.le (by decide)) h1 (by decide)
  exact fadd_inRange hxC0 hyC1 (by decide)

/-- Settles O25: the noise is the fractional part of a bounded value with a clear sign bit. -/
theorem noiseLiesInUnitInterval : Obligations.NoiseLiesInUnitInterval := by
  intro x y hx hy
  obtain ⟨_, _, h2⟩ := noiseConstants_inRange
  have hscaled := fmul_inRange h2 (ffrac_inRange (noiseSum_inRange hx hy)) (by decide)
  obtain ⟨hfin, hsign, hlt⟩ : F32.isFinite (noiseField x y) = true ∧ F32.sign (noiseField x y) = false ∧
    F32.magnitude (noiseField x y) < F32.unit := ffrac_inUnit hscaled
  refine ⟨hfin, F32.scaled_nonneg hsign, ?_, F32.toNat_le_of_lt_unit _ hsign hlt⟩
  rw [F32.scaled_of_sign_clear hsign]
  exact Int.ofNat_lt.2 hlt

end Sys2Proof.Machine
end

section
/-! BayerMap's windows (40_lookup.md R105) and the command BAYER (R103). -/

namespace Sys2Proof.Machine

/-! ### Windows -/

/-- A list of `n` distinct numbers below `n` is 0 .. n-1 in some order. -/
theorem perm_range_of_nodup {n : Nat} {l : List Nat} (hnodup : l.Nodup) (hlt : ∀ k ∈ l, k < n) (hlen : l.length = n) :
    l.Perm (List.range n) :=
  (hnodup.subperm fun k hk => List.mem_range.2 (hlt k hk)).perm_of_length_le (by rw [List.length_range, hlen])

/-- The index of (x, y) in the table of an n×n matrix (40_lookup.md R102). -/
def matrixIndex (n x y : Nat) : Nat := y % n * n + x % n

theorem bayerRank_eq_getD (m : MatrixSize) (x y : Nat) :
    bayerRank m x y = (bayerTable m).getD (matrixIndex (matrixN m) x y) 0 := rfl

theorem matrixIndex_lt {n : Nat} (hn : 0 < n) (x y : Nat) : matrixIndex n x y < n * n := by
  have hx := Nat.mod_lt x hn
  calc y % n * n + x % n < (y % n + 1) * n := by rw [Nat.add_mul]; omega
    _ ≤ n * n := Nat.mul_le_mul_right n (Nat.mod_lt y hn)

/-- Equal indices have congruent coordinates. -/
theorem modEq_of_matrixIndex_eq {n x y x' y' : Nat} (hn : 0 < n) (h : matrixIndex n x y = matrixIndex n x' y') :
    x ≡ x' [MOD n] ∧ y ≡ y' [MOD n] := by
  have hmod (a b : Nat) : matrixIndex n a b % n = a % n := by
    rw [matrixIndex, Nat.mul_add_mod', Nat.mod_mod]
  have hdiv (a b : Nat) : matrixIndex n a b / n = b % n := by
    rw [matrixIndex, Nat.mul_comm, Nat.mul_add_div hn, Nat.div_eq_of_lt (Nat.mod_lt a hn), Nat.add_zero]
  exact ⟨by rw [Nat.ModEq, ← hmod x y, h, hmod], by rw [Nat.ModEq, ← hdiv x y, h, hdiv]⟩

/-- The cells of a window, row by row, have distinct indices. -/
theorem matrixIndex_window_injective {n i j : Nat} (x0 y0 : Nat) (hi : i < n * n) (hj : j < n * n)
    (h : matrixIndex n (x0 + i % n) (y0 + i / n) = matrixIndex n (x0 + j % n) (y0 + j / n)) : i = j := by
  have hn : 0 < n := Nat.pos_of_mul_pos_left (Nat.zero_lt_of_lt hi)
  obtain ⟨hx, hy⟩ := modEq_of_matrixIndex_eq hn h
  have hcol : i % n = j % n := (Nat.ModEq.add_left_cancel' x0 hx).eq_of_lt_of_lt (Nat.mod_lt i hn) (Nat.mod_lt j hn)
  have hrow : i / n = j / n :=
    (Nat.ModEq.add_left_cancel' y0 hy).eq_of_lt_of_lt (Nat.div_lt_of_lt_mul hi) (Nat.div_lt_of_lt_mul hj)
  rw [← Nat.div_add_mod i n, ← Nat.div_add_mod j n, hcol, hrow]

/-- A window meets every index of the table exactly once. -/
theorem matrixIndex_window_perm {n : Nat} (hn : 0 < n) (x0 y0 : Nat) :
    ((List.range (n * n)).map fun i => matrixIndex n (x0 + i % n) (y0 + i / n)).Perm (List.range (n * n)) := by
  refine perm_range_of_nodup (List.nodup_range.map_on fun i hi j hj => ?_) (List.forall_mem_map.2 fun i _ => ?_)
    (by rw [List.length_map, List.length_range])
  · exact matrixIndex_window_injective x0 y0 (List.mem_range.1 hi) (List.mem_range.1 hj)
  · exact matrixIndex_lt hn _ _

/-- A table holds each rank exactly once. -/
theorem bayerTable_perm (m : MatrixSize) : (bayerTable m).Perm (List.range (matrixN m * matrixN m)) :=
  perm_range_of_nodup (by cases m <;> decide) (bayerTable_lt m) (by cases m <;> rfl)

/-- The table is its entries in the order of their indices. -/
theorem map_getD_bayerTable (m : MatrixSize) :
    (List.range (matrixN m * matrixN m)).map ((bayerTable m).getD · 0) = bayerTable m := by cases m <;> rfl

/-- A window sees each rank exactly once: it meets every index of the table once, and the table holds every rank once. -/
theorem bayerRank_window_perm (m : MatrixSize) (x0 y0 : Nat) :
    ((List.range (matrixN m * matrixN m)).map
      fun i => bayerRank m (x0 + i % matrixN m) (y0 + i / matrixN m)).Perm
        (List.range (matrixN m * matrixN m)) := by
  have hindex := (matrixIndex_window_perm (matrixN_pos m) x0 y0).map ((bayerTable m).getD · 0)
  rw [List.map_map, map_getD_bayerTable] at hindex
  simp only [bayerRank_eq_getD]
  exact hindex.trans (bayerTable_perm m)

/-- A threshold lies in [-0.5, 0.5), as its rank lies in [0, n²). -/
theorem rankThreshold_bounds (m : MatrixSize) {k : Nat} (hk : k < matrixN m * matrixN m) :
    - (F32.unit : Int) ≤ 2 * F32.scaled (rankThreshold m k) ∧ 2 * F32.scaled (rankThreshold m k) < (F32.unit : Int) := by
  have hval := (scaled_rankThreshold m k hk).2
  have hunit : (0 : Int) < F32.unit := Int.natCast_pos.2 F32.unit_pos
  have hsq : (0 : Int) < matrixN m * matrixN m := by exact_mod_cast Nat.zero_lt_of_lt hk
  zify at hk
  generalize (matrixN m * matrixN m : Int) = sq at *
  rw [mul_assoc] at hval
  constructor
  · refine le_of_mul_le_mul_left ?_ hsq
    rw [hval, mul_neg, ← neg_mul]
    exact mul_le_mul_of_nonneg_right (by omega) hunit.le
  · refine lt_of_mul_lt_mul_left ?_ hsq.le
    rw [hval]
    exact mul_lt_mul_of_pos_right (by omega) hunit

/-- Settles O27: the thresholds of a window are those of its ranks. -/
theorem bayerWindowSeesEachRankOnce : Obligations.BayerWindowSeesEachRankOnce := by
  intro m x0 y0
  have hthresholds := (bayerRank_window_perm m x0 y0).map (rankThreshold m)
  rw [List.map_map] at hthresholds
  exact ⟨bayerRank_window_perm m x0 y0, hthresholds, fun k hk => (scaled_rankThreshold m k hk).2,
    rankThreshold_bounds m (bayerRank_lt m x0 y0)⟩

/-! ### Commands that check their coordinates -/

/-- A successful end with two results, as a state. -/
theorem State.endOk_two (s : State) (a b : Word) :
    s.endOk (Results.two a b) = { s with phase := .idle, done := true, res0 := a, res1 := b } := rfl

/-- The check of both coordinates passes exactly when both are below 2^20 (30_encoding.md R91). -/
theorem coordsValid_iff (a b : Word) :
    (coordValid a && coordValid b) = true ↔ a.toNat < 2 ^ 20 ∧ b.toNat < 2 ^ 20 :=
  Bool.and_eq_true_iff.trans (and_congr decide_eq_true_iff decide_eq_true_iff)

/-- A command that checks its two coordinates and finds them valid writes its results. -/
theorem runCommand_coordsValid {s : State} {r : Running} (res : Latch → Results) (hr : s.phase = .busy r)
    (h0 : r.latch.arg0.toNat < 2 ^ 20) (h1 : r.latch.arg1.toNat < 2 ^ 20) :
    runCommand s (fun l => checked (coordValid l.arg0 && coordValid l.arg1) (res l)) =
      .next (s.endOk (res r.latch)) :=
  runCommand_ok hr (by rw [(coordsValid_iff _ _).2 ⟨h0, h1⟩, checked_true])

/-- A command that checks its two coordinates and finds one past its range ends with OPERAND_RANGE
(60_exceptions.md R204). -/
theorem runCommand_coordsInvalid {s : State} {r : Running} (res : Latch → Results) (hr : s.phase = .busy r)
    (h : 2 ^ 20 ≤ r.latch.arg0.toNat ∨ 2 ^ 20 ≤ r.latch.arg1.toNat) :
    runCommand s (fun l => checked (coordValid l.arg0 && coordValid l.arg1) (res l)) =
      .next (s.endError .operandRange) := by
  have hinvalid : (coordValid r.latch.arg0 && coordValid r.latch.arg1) = false := by
    rw [Bool.eq_false_iff, ne_eq, coordsValid_iff]
    omega
  exact runCommand_error hr (by rw [hinvalid, checked_false])

/-! ### BAYER -/

/-- A rank depends on the coordinates modulo n only (40_lookup.md R102). -/
theorem bayerRank_congr (m : MatrixSize) {x y x' y' : Nat} (hx : x ≡ x' [MOD matrixN m])
    (hy : y ≡ y' [MOD matrixN m]) : bayerRank m x y = bayerRank m x' y' := by
  rw [bayerRank_mod m x y, hx, hy, ← bayerRank_mod]

/-- Coordinates wrap modulo n (40_lookup.md R103). -/
theorem bayerRank_wrap (m : MatrixSize) (x y : Nat) :
    bayerRank m (x + matrixN m) y = bayerRank m x y ∧ bayerRank m x (y + matrixN m) = bayerRank m x y :=
  ⟨bayerRank_congr m (Nat.add_mod_right _ _) rfl, bayerRank_congr m rfl (Nat.add_mod_right _ _)⟩

theorem threshold_wrap (m : MatrixSize) (x y : Nat) :
    threshold m (x + matrixN m) y = threshold m x y ∧ threshold m x (y + matrixN m) = threshold m x y :=
  ⟨congrArg (rankThreshold m) (bayerRank_wrap m x y).1, congrArg (rankThreshold m) (bayerRank_wrap m x y).2⟩

theorem rankThreshold_corner (m : MatrixSize) :
    rankThreshold m 0 = 0xBF000000#32 ∧ rankThreshold m (matrixN m * matrixN m / 2) = 0#32 := by
  cases m <;> decide

/-- Settles O34: the check of the coordinates selects the end; a coordinate wraps as the rank does, and the corner
values are computed. -/
theorem bayerCommandResult : Obligations.BayerCommandResult := by
  refine ⟨by decide, by decide, fun m s r hr => ⟨fun h0 h1 => ?_, fun h => ?_⟩, fun m x y => ?_, rankThreshold_corner,
    by decide, by decide, by decide, by decide⟩
  case refine_1 =>
    rw [← State.endOk_two]
    exact (execBayer.eq_def m s).trans (runCommand_coordsValid _ hr h0 h1)
  case refine_2 => exact (execBayer.eq_def m s).trans (runCommand_coordsInvalid _ hr h)
  case refine_3 =>
    obtain ⟨hx, hy⟩ := threshold_wrap m x y
    exact ⟨hx, hy, bayerRank_wrap m x y⟩

end Sys2Proof.Machine
end

section
/-! The quantizer (41_quantizer.md): both variants saturate (R125), clamping and rounding commute (R126), the flipped
bias is the negated one where 1 - noise is exact (R127), and the commands QNOISE (R122) and QORD (R124). -/

namespace Sys2Proof.Machine

/-! ### Rounding to an integer keeps bounds and is odd -/

theorem F32.unit_pos_int : (0 : Int) < F32.unit := Int.natCast_pos.2 F32.unit_pos

/-- A value at most an integer rounds to at most it. -/
theorem roundTie_le {tie : TieRule} {u : F32} {n : Int} (hf : F32.isFinite u = true)
    (h : F32.scaled u ≤ n * F32.unit) : roundTie tie u ≤ n := by
  have hnear := (roundTieIsNearest tie u hf).1
  by_contra hgt
  have hstep : (n + 1) * (F32.unit : Int) ≤ roundTie tie u * F32.unit :=
    mul_le_mul_of_nonneg_right (by omega) F32.unit_pos_int.le
  have hdist := neg_le_abs (F32.scaled u - roundTie tie u * F32.unit)
  have hunit := F32.unit_pos_int
  rw [add_mul, one_mul] at hstep
  omega

/-- A value at least an integer rounds to at least it. -/
theorem le_roundTie {tie : TieRule} {u : F32} {n : Int} (hf : F32.isFinite u = true)
    (h : n * F32.unit ≤ F32.scaled u) : n ≤ roundTie tie u := by
  have hnear := (roundTieIsNearest tie u hf).1
  by_contra hlt
  have hstep : (roundTie tie u + 1) * (F32.unit : Int) ≤ n * F32.unit :=
    mul_le_mul_of_nonneg_right (by omega) F32.unit_pos_int.le
  have hdist := le_abs_self (F32.scaled u - roundTie tie u * F32.unit)
  have hunit := F32.unit_pos_int
  rw [add_mul, one_mul] at hstep
  omega

/-- An integer rounds to itself. -/
theorem roundTie_f32 (tie : TieRule) {i : Nat} (hi : i < 2 ^ 24) : roundTie tie (f32 i) = i := by
  have hfin := (f32_exact i hi).1
  have hval := f32_scaled i hi
  exact le_antisymm (roundTie_le hfin hval.le) (le_roundTie hfin hval.ge)

/-- Settles O30: below the range both orders give 0, above it both give 255, and inside it rounding stays inside. -/
theorem clampAndRoundCommute : Obligations.ClampAndRoundCommute := by
  intro tie s hf
  have hlow := f32_scaled 0 (by decide)
  have hhigh := f32_scaled 255 (by decide)
  rw [fclamp, if_pos hf]
  split
  · next hneg =>
    have hround : roundTie tie s ≤ 0 := roundTie_le hf (by omega)
    rw [roundTie_f32 tie (by decide)]
    omega
  · next hnonneg =>
    have hround0 : 0 ≤ roundTie tie s := le_roundTie hf (by omega)
    split
    · next hover =>
      have hround : 255 ≤ roundTie tie s := le_roundTie hf (by omega)
      rw [roundTie_f32 tie (by decide)]
      omega
    · next hle =>
      have hround : roundTie tie s ≤ 255 := roundTie_le hf (by omega)
      omega

/-- `roundTie` by an integer q and a remainder r of one's own choice: the decomposition of `roundTie_cases` is the only
one. -/
theorem roundTie_of_eq_add {tie : TieRule} {u : F32} (hf : F32.isFinite u = true) {q r : Int}
    (hu : F32.scaled u = q * F32.unit + r) (h0 : 0 ≤ r) (h1 : r < F32.unit) :
    (2 * r < F32.unit ∧ roundTie tie u = q) ∨ ((F32.unit : Int) < 2 * r ∧ roundTie tie u = q + 1) ∨
      (2 * r = F32.unit ∧ (tie = .away → roundTie tie u = if 0 < F32.scaled u then q + 1 else q) ∧
        (tie = .even → roundTie tie u = if q % 2 = 0 then q else q + 1)) := by
  obtain ⟨q', r', hu', h0', h1', hcases⟩ := roundTie_cases tie u hf F32.unit rfl
  obtain ⟨hq, hr⟩ :=
    (Int.ediv_emod_unique F32.unit_pos_int).2 ⟨(by rw [hu]; ring : r + F32.unit * q = F32.scaled u), h0, h1⟩
  obtain ⟨hq', hr'⟩ :=
    (Int.ediv_emod_unique F32.unit_pos_int).2 ⟨(by rw [hu']; ring : r' + F32.unit * q' = F32.scaled u), h0', h1'⟩
  rwa [← hq', hq, ← hr', hr] at hcases

/-- Both tie rules are symmetric about zero (41_quantizer.md R127). -/
theorem roundTie_neg {tie : TieRule} {u v : F32} (hu : F32.isFinite u = true) (hv : F32.isFinite v = true)
    (h : F32.scaled v = - F32.scaled u) : roundTie tie v = - roundTie tie u := by
  obtain ⟨q, r, hform, h0, h1, hcases⟩ := roundTie_cases tie u hu F32.unit rfl
  by_cases hr : r = 0
  · have hneg : F32.scaled v = -q * F32.unit + 0 := by rw [h, hform, hr]; ring
    have hcases' := roundTie_of_eq_add (tie := tie) hv hneg le_rfl F32.unit_pos_int
    omega
  · have hneg : F32.scaled v = (-q - 1) * F32.unit + (F32.unit - r) := by rw [h, hform]; ring
    have hne : F32.scaled u ≠ 0 := fun hzero =>
      hr (Int.eq_zero_of_dvd_of_nonneg_of_lt h0 h1 ⟨-q, by linear_combination hzero - hform⟩)
    have hcases' := roundTie_of_eq_add (tie := tie) hv hneg (by omega) (by omega)
    cases tie <;> simp only [true_imp_iff] at hcases hcases' <;> omega

/-! ### Saturation -/

theorem iclamp_byte (v : Int) : iclamp v 0 255 = max 0 (min 255 v) := by
  unfold iclamp
  split
  · omega
  · split <;> omega

/-- An integer in 0..255 is its own channel value. -/
theorem toNat_ofInt_byte {x : Int} (h0 : 0 ≤ x) (h1 : x ≤ 255) : ((BitVec.ofInt 8 x).toNat : Int) = x := by
  rw [BitVec.toNat_ofInt]
  omega

/-- `saturate` clamps and never wraps (00_scope.md R11). -/
theorem toNat_saturate (v : Int) : ((saturate v).toNat : Int) = max 0 (min 255 v) := by
  rw [saturate, iclamp_byte]
  exact toNat_ofInt_byte (by omega) (by omega)

theorem toNat_qnoise (tie : TieRule) (v : Byte) (noise : F32) (step : Nat) (flip : Bool) :
    ((qnoise tie v noise step flip).toNat : Int) = max 0 (min 255 ((v.toNat : Int) + qnoiseBias tie noise step flip)) :=
  toNat_saturate _

/-- A channel value in a result register is its integer as a word. -/
theorem setWidth_eq_ofInt {b : Byte} {x : Int} (h : (b.toNat : Int) = x) : b.setWidth 32 = BitVec.ofInt 32 x := by
  rw [← h, BitVec.ofInt_natCast, BitVec.ofNat_toNat]

/-! ### Magnitudes of operands -/

/-- A magnitude field up to that of 2^(e + 23) stands for a magnitude up to 2^(e + 23). -/
theorem magOf_le {g e : Nat} (h : g ≤ (e + 1) * 2 ^ 23) : magOf g ≤ 2 ^ (e + 23) := by
  obtain ⟨e', m, hval, hm, hnormal, hg⟩ := magOf_form g
  rw [hval, Nat.add_comm, Nat.pow_add]
  rcases Nat.lt_or_ge e' e with hlt | hge
  · obtain ⟨d, rfl⟩ := Nat.exists_eq_add_of_lt hlt
    calc m * 2 ^ e' ≤ 2 ^ 24 * 2 ^ e' := Nat.mul_le_mul_right _ hm.le
      _ ≤ 2 ^ 24 * 2 ^ (e' + d) := Nat.mul_le_mul_left _ (Nat.pow_le_pow_right (by decide) (by omega))
      _ = 2 ^ 23 * 2 ^ (e' + d + 1) := by ring
  · have he : e' = e := by omega
    rw [he]
    exact Nat.mul_le_mul_right _ (by omega)

/-- A magnitude up to 1 is a significand below 2^24 times a power of two up to 2^149. -/
theorem F32.magnitude_form_of_le_unit {f : F32} (hf : F32.isFinite f = true) (h : F32.magnitude f ≤ F32.unit) :
    ∃ e m, F32.magnitude f = m * 2 ^ e ∧ m < 2 ^ 24 ∧ e ≤ 149 := by
  obtain ⟨e, m, hval, hm, _⟩ := F32.magnitude_form f hf
  rcases Nat.eq_zero_or_pos m with hzero | hpos
  · exact ⟨0, 0, by rw [hval, hzero, Nat.zero_mul, Nat.zero_mul], by decide, by decide⟩
  · have hpow : 2 ^ e ≤ 2 ^ 149 := (Nat.le_mul_of_pos_left _ hpos).trans (hval ▸ h)
    exact ⟨e, m, hval, hm, (Nat.pow_le_pow_iff_right (by decide)).1 hpow⟩

/-- The patterns 30_encoding.md R93 takes as noise. -/
theorem noiseValid_iff (b : F32) : noiseValid b = true ↔ b.toNat ≤ 0x3F7FFFFF ∨ b = 0x80000000#32 := by
  rw [noiseValid, Bool.or_eq_true, decide_eq_true_iff, beq_iff_eq]

/-- The patterns 30_encoding.md R93 takes as a threshold. -/
theorem thresholdValid_iff (b : F32) : thresholdValid b = true ↔
    b.toNat ≤ 0x3EFFFFFF ∨ (0x80000000 ≤ b.toNat ∧ b.toNat ≤ 0xBF000000) := by
  rw [thresholdValid, Bool.or_eq_true, Bool.and_eq_true, decide_eq_true_iff, decide_eq_true_iff, decide_eq_true_iff]

theorem channelValid_iff (w : Word) : channelValid w = true ↔ w.toNat ≤ 255 := decide_eq_true_iff

/-- A finite pattern whose value lies in [0, 1], -0.0 among them. -/
def F32.InUnit (f : F32) : Prop :=
  F32.isFinite f = true ∧ 0 ≤ F32.scaled f ∧ F32.scaled f ≤ F32.unit

theorem F32.InUnit.magnitude_le {f : F32} (h : F32.InUnit f) : F32.magnitude f ≤ F32.unit := by
  obtain ⟨_, h0, h1⟩ := h
  rw [← F32.natAbs_scaled]
  omega

theorem noiseValid_inUnit {b : F32} (h : noiseValid b = true) : F32.InUnit b := by
  rcases (noiseValid_iff b).1 h with hle | rfl
  · have hsign : F32.sign b = false := by
      rw [F32.sign_eq, decide_eq_false_iff_not]
      omega
    have hfield : F32.magField b ≤ 0x3F7FFFFF := (Nat.mod_le _ _).trans hle
    have hmag : F32.magnitude b ≤ F32.unit := by
      rw [F32.magnitude_eq]
      exact magOf_le (e := 126) (by omega)
    refine ⟨(F32.isFinite_iff b).2 (by omega), F32.scaled_nonneg hsign, ?_⟩
    rw [F32.scaled_of_sign_clear hsign]
    exact Int.ofNat_le.2 hmag
  · exact ⟨by decide, by decide, by decide⟩

/-- A threshold operand is finite and at most 1/2 in magnitude. -/
theorem thresholdValid_bound {t : F32} (h : thresholdValid t = true) :
    F32.isFinite t = true ∧ F32.magnitude t ≤ 2 ^ 148 := by
  have hfield : F32.magField t ≤ 0x3F000000 := by
    have hrange := (thresholdValid_iff t).1 h
    unfold F32.magField
    omega
  rw [F32.isFinite_iff, F32.magnitude_eq]
  exact ⟨by omega, magOf_le (e := 125) (by omega)⟩

/-! ### Sums, and products with a step -/

/-- The magnitude of a rounded quotient does not depend on its sign. -/
theorem F32.magnitude_ofRatio_sign (neg : Bool) (num den : Nat) :
    F32.magnitude (F32.ofRatio neg num den) = F32.magnitude (F32.ofRatio false num den) := by
  simp only [F32.ofRatio_eq, F32.magnitude_eq, F32.magField_pack]

/-- A finite sum by the sign and the rounded magnitude of its exact value. -/
theorem scaled_fadd {a b : F32} (ha : F32.isFinite a = true) (hb : F32.isFinite b = true) :
    F32.scaled (fadd a b) = (F32.scaled a + F32.scaled b).sign *
      F32.magnitude (F32.ofRatio false (F32.scaled a + F32.scaled b).natAbs 1) := by
  by_cases h0 : F32.scaled a + F32.scaled b = 0
  · rw [(fadd_exact a b ha hb 0 0 (by decide) (by decide) (by rw [h0]; rfl)).2, h0, Int.sign_zero, Int.zero_mul]
  · have he : fadd a b = F32.ofRatio (decide (F32.scaled a + F32.scaled b < 0))
        (F32.scaled a + F32.scaled b).natAbs 1 := by
      simp only [fadd, ha, hb, Bool.and_self, if_true, if_neg h0]
    rw [he, F32.scaled_ofRatio, F32.magnitude_ofRatio_sign]
    rcases lt_or_gt_of_ne h0 with hneg | hpos
    · rw [if_pos (decide_eq_true hneg), Int.sign_eq_neg_one_of_neg hneg, Int.neg_one_mul]
    · rw [if_neg (by simpa using hpos.le), Int.sign_eq_one_of_pos hpos, Int.one_mul]

/-- Rounding is symmetric: two sums whose exact values are opposite are opposite. -/
theorem scaled_fadd_neg {a b c d : F32} (ha : F32.isFinite a = true) (hb : F32.isFinite b = true)
    (hc : F32.isFinite c = true) (hd : F32.isFinite d = true)
    (h : F32.scaled c + F32.scaled d = - (F32.scaled a + F32.scaled b)) :
    F32.scaled (fadd c d) = - F32.scaled (fadd a b) := by
  rw [scaled_fadd ha hb, scaled_fadd hc hd, h, Int.sign_neg, Int.natAbs_neg, Int.neg_mul]

/-- A value up to 1 times a power of two is exact (41_quantizer.md R121). -/
theorem fmul_f32_two_pow {a : F32} {p : Nat} (hf : F32.isFinite a = true) (ha : F32.magnitude a ≤ F32.unit)
    (hp : p < 24) :
    F32.isFinite (fmul a (f32 (2 ^ p))) = true ∧ F32.scaled (fmul a (f32 (2 ^ p))) = F32.scaled a * 2 ^ p := by
  obtain ⟨e, m, hval, hm, he⟩ := F32.magnitude_form_of_le_unit hf ha
  obtain ⟨hfb, hsb, hmb⟩ := f32_exact (2 ^ p) (Nat.pow_lt_pow_right (by decide) hp)
  have hprod : F32.magnitude a * F32.magnitude (f32 (2 ^ p)) = m * 2 ^ (e + p) * F32.unit := by
    rw [hval, hmb]
    ring
  obtain ⟨hfin, hsign, hmag⟩ := fmul_exact a _ hf hfb m (e + p) hm (by omega) hprod
  refine ⟨hfin, ?_⟩
  rw [F32.scaled, F32.scaled, hsign, hsb, hmag, hval, Bool.bne_false]
  split <;> push_cast <;> ring

/-! ### The bias of the noise-dither variant -/

/-- The steps are powers of two (41_quantizer.md R120). -/
theorem stepOfCode_two_pow {code : BitVec 2} {step : Nat} (h : stepOfCode code = some step) :
    ∃ p < 23, step = 2 ^ (p + 1) := by
  unfold stepOfCode at h
  split at h <;> cases h
  · exact ⟨3, by decide, rfl⟩
  · exact ⟨2, by decide, rfl⟩
  · exact ⟨1, by decide, rfl⟩

/-- The flipped variant is the unflipped one of the rounded 1 - noise (41_quantizer.md R121). -/
theorem qnoiseU_flip (noise : F32) (step : Nat) : qnoiseU noise step true = qnoiseU (fsub (f32 1) noise) step false := rfl

theorem qnoiseU_two_pow (m : F32) (p : Nat) :
    qnoiseU m (2 ^ (p + 1)) false = fsub (fmul m (f32 (2 ^ (p + 1)))) (f32 (2 ^ p)) := by
  rw [qnoiseU, Nat.pow_succ, Nat.mul_div_cancel _ (by decide)]
  rfl

/-- The exact value that `fsub (f32 1) noise` rounds. -/
theorem scaled_one_add_fneg (noise : F32) :
    F32.scaled (f32 1) + F32.scaled (fneg noise) = F32.unit - F32.scaled noise := by
  rw [f32_scaled 1 (by decide), scaled_fneg]
  ring

/-- 1 - noise, rounded, lies in [0, 1] again. -/
theorem fsub_one_inUnit {noise : F32} (h : F32.InUnit noise) : F32.InUnit (fsub (f32 1) noise) := by
  obtain ⟨hf, h0, h1⟩ := h
  obtain ⟨hone, _⟩ := f32_exact 1 (by decide)
  have hfneg : F32.isFinite (fneg noise) = true := (isFinite_fneg noise).trans hf
  have hsum := scaled_one_add_fneg noise
  obtain ⟨hfin, hmag, _⟩ := fadd_bound _ _ hone hfneg 1 149 (by decide) (by decide)
    (by rw [hsum, ← F32.unit_eq]; omega)
  have hnonneg : 0 ≤ F32.scaled (fsub (f32 1) noise) := by
    rw [fsub, scaled_fadd hone hfneg, hsum]
    exact mul_nonneg (Int.sign_nonneg_iff.2 (by omega)) (Int.natCast_nonneg _)
  rw [← F32.unit_eq] at hmag
  exact ⟨hfin, hnonneg, Int.le_natAbs.trans (Int.ofNat_le.2 hmag)⟩

/-- The exact value that `qnoiseU` rounds once: m * step - step/2, with the product exact. -/
theorem qnoiseU_sum {m : F32} {p : Nat} (h : F32.InUnit m) (hp : p < 23) :
    F32.scaled (fmul m (f32 (2 ^ (p + 1)))) + F32.scaled (fneg (f32 (2 ^ p))) =
      2 ^ p * (2 * F32.scaled m - F32.unit) := by
  rw [(fmul_f32_two_pow h.1 h.magnitude_le (by omega)).2, scaled_fneg,
    f32_scaled _ (Nat.pow_lt_pow_right (by decide) (by omega))]
  push_cast
  ring

/-- `qnoiseU` is finite and within half a step (41_quantizer.md R121). -/
theorem qnoiseU_bound {m : F32} {p : Nat} (h : F32.InUnit m) (hp : p < 23) :
    F32.isFinite (qnoiseU m (2 ^ (p + 1)) false) = true ∧
      (F32.scaled (qnoiseU m (2 ^ (p + 1)) false)).natAbs ≤ 2 ^ p * F32.unit := by
  have ⟨hf, h0, h1⟩ := h
  have hhalf : (2 : Nat) ^ p < 2 ^ 24 := Nat.pow_lt_pow_right (by decide) (by omega)
  have hmul := (fmul_f32_two_pow hf h.magnitude_le (by omega : p + 1 < 24)).1
  have hneg := (isFinite_fneg _).trans (f32_exact (2 ^ p) hhalf).1
  have hsum : (F32.scaled (fmul m (f32 (2 ^ (p + 1)))) + F32.scaled (fneg (f32 (2 ^ p)))).natAbs ≤ 2 ^ p * 2 ^ 149 := by
    rw [qnoiseU_sum h hp, Int.natAbs_mul, Int.natAbs_pow]
    exact Nat.mul_le_mul_left _ (by rw [← F32.unit_eq]; omega)
  obtain ⟨hfin, hmag, _⟩ := fadd_bound _ _ hmul hneg (2 ^ p) 149 hhalf (by decide) hsum
  rw [qnoiseU_two_pow]
  exact ⟨hfin, hmag⟩

/-- Opposite distances of m from 1/2 give opposite biases (41_quantizer.md R127). -/
theorem qnoiseBias_complement (tie : TieRule) {m m' : F32} {p : Nat} (h : F32.InUnit m) (h' : F32.InUnit m') (hp : p < 23)
    (hcompl : F32.scaled m' = F32.unit - F32.scaled m) :
    qnoiseBias tie m' (2 ^ (p + 1)) false = - qnoiseBias tie m (2 ^ (p + 1)) false := by
  have hneg := (isFinite_fneg _).trans (f32_exact (2 ^ p) (Nat.pow_lt_pow_right (by decide) (by omega))).1
  refine roundTie_neg (qnoiseU_bound h hp).1 (qnoiseU_bound h' hp).1 ?_
  rw [qnoiseU_two_pow, qnoiseU_two_pow]
  refine scaled_fadd_neg (fmul_f32_two_pow h.1 h.magnitude_le (by omega)).1 hneg
    (fmul_f32_two_pow h'.1 h'.magnitude_le (by omega)).1 hneg ?_
  rw [qnoiseU_sum h hp, qnoiseU_sum h' hp, hcompl]
  ring

/-- 1 - noise is exact for noise in [1/2, 1]: at the exponent of noise, the significand of the difference is at most
that of noise. -/
theorem fsub_one_exact {noise : F32} (h : F32.InUnit noise) (hhalf : (F32.unit : Int) ≤ 2 * F32.scaled noise) :
    F32.scaled (fsub (f32 1) noise) = F32.unit - F32.scaled noise := by
  have ⟨hf, h0, h1⟩ := h
  obtain ⟨e, m, hval, hm, he⟩ := F32.magnitude_form_of_le_unit hf h.magnitude_le
  have hmag : F32.scaled noise = (m * 2 ^ e : Nat) := by rw [← hval, F32.scaled_eq_magnitude h0]
  have hunit := F32.unit_split e he
  have hpos : 0 < m := by
    have := F32.unit_pos
    by_contra hzero
    rw [Nat.eq_zero_of_not_pos hzero, Nat.zero_mul] at hmag
    omega
  have hsmall : 2 ^ (149 - e) - m < 2 ^ 24 := by
    have htwice : 2 ^ (149 - e) ≤ 2 * m := by
      refine Nat.le_of_mul_le_mul_right ?_ (Nat.two_pow_pos e)
      rw [← hunit, Nat.mul_assoc]
      omega
    omega
  have hsum := scaled_one_add_fneg noise
  rw [fsub, ← hsum]
  refine (fadd_exact _ _ (f32_exact 1 (by decide)).1 ((isFinite_fneg noise).trans hf) (2 ^ (149 - e) - m) e hsmall
    (by omega) ?_).2
  rw [hsum, hmag, Nat.sub_mul, ← hunit]
  omega

/-- Settles O31: an exact complement has the opposite distance from 1/2, and everything after it is symmetric; where
the complement rounds, the rule's example is computed. -/
theorem flipNegatesWhenExactAndCanDiffer : Obligations.FlipNegatesWhenExactAndCanDiffer := by
  refine ⟨fun tie noise code step hvalid hstep hexact => ?_,
    fun noise hvalid hhalf => fsub_one_exact (noiseValid_inUnit hvalid) hhalf,
    by decide, by decide, by decide, by decide⟩
  have hnoise := noiseValid_inUnit hvalid
  obtain ⟨p, hp, rfl⟩ := stepOfCode_two_pow hstep
  rw [qnoiseBias, qnoiseU_flip]
  exact qnoiseBias_complement tie hnoise (fsub_one_inUnit hnoise) hp hexact

/-! ### The sum of the ordered-dither variant -/

theorem matrixN_eq_two_pow (m : MatrixSize) : ∃ p < 24, matrixN m = 2 ^ p := by
  cases m with
  | n4 => exact ⟨2, by decide, rfl⟩
  | n8 => exact ⟨3, by decide, rfl⟩

/-- The ordered-dither bias t * (255 / n) is at most half of 255 / n in magnitude (41_quantizer.md R124). -/
theorem fmul_scale_bound {t : F32} (h : thresholdValid t = true) (m : MatrixSize) :
    F32.isFinite (fmul t (fdiv (f32 255) (f32 (matrixN m)))) = true ∧
      2 * matrixN m * F32.magnitude (fmul t (fdiv (f32 255) (f32 (matrixN m)))) ≤ 255 * F32.unit := by
  obtain ⟨hf, hmag⟩ := thresholdValid_bound h
  obtain ⟨p, hp, hn⟩ := matrixN_eq_two_pow m
  rw [hn]
  obtain ⟨hfscale, hscale⟩ := fdiv_f32_two_pow 255 p (by decide) hp
  have hmagscale : F32.magnitude (fdiv (f32 255) (f32 (2 ^ p))) = 255 * 2 ^ (149 - p) := by
    rw [← F32.natAbs_scaled, hscale, Int.natAbs_mul, Int.natAbs_pow]
    rfl
  have hpow : F32.unit = 2 * (2 ^ p * 2 ^ (148 - p)) := by
    rw [← pow_add, Nat.add_sub_cancel' (by omega)]
    rfl
  have hprod : F32.magnitude t * F32.magnitude (fdiv (f32 255) (f32 (2 ^ p))) ≤ 255 * 2 ^ (148 - p) * F32.unit :=
    calc F32.magnitude t * F32.magnitude (fdiv (f32 255) (f32 (2 ^ p)))
        ≤ 2 ^ 148 * (255 * 2 ^ (149 - p)) := hmagscale ▸ Nat.mul_le_mul_right _ hmag
      _ = 255 * 2 ^ (148 - p) * F32.unit := by
        rw [F32.unit_eq, show 149 - p = 148 - p + 1 by omega]
        ring
  obtain ⟨hfin, _, hbound⟩ := fmul_bound _ _ hf hfscale 255 (148 - p) (by decide) (by omega) hprod
  refine ⟨hfin, ?_⟩
  calc 2 * 2 ^ p * F32.magnitude (fmul t (fdiv (f32 255) (f32 (2 ^ p))))
      ≤ 2 * 2 ^ p * (255 * 2 ^ (148 - p)) := Nat.mul_le_mul_left _ hbound
    _ = 255 * F32.unit := by rw [hpow]; ring

/-- A channel value plus an ordered-dither bias does not overflow. -/
theorem isFinite_qordSum {t : F32} (h : thresholdValid t = true) (v : Byte) (m : MatrixSize) :
    F32.isFinite (fadd (f32 v.toNat) (fmul t (fdiv (f32 255) (f32 (matrixN m))))) = true := by
  obtain ⟨hfin, hbias⟩ := fmul_scale_bound h m
  have hv : v.toNat < 2 ^ 8 := v.isLt
  have hmag : F32.magnitude (fmul t (fdiv (f32 255) (f32 (matrixN m)))) ≤ 255 * F32.unit :=
    (Nat.le_mul_of_pos_left _ (Nat.mul_pos (by decide) (matrixN_pos m))).trans hbias
  rw [← F32.natAbs_scaled] at hmag
  have hchannel : v.toNat * F32.unit ≤ 255 * F32.unit := Nat.mul_le_mul_right _ (by omega)
  refine (fadd_bound _ _ (f32_exact v.toNat (by omega)).1 hfin 510 149 (by decide) (by decide) ?_).1
  refine (Int.natAbs_add_le _ _).trans ?_
  rw [f32_scaled _ (by omega), ← F32.unit_eq, ← Nat.cast_mul, Int.natAbs_natCast]
  omega

/-- The ordered-dither integer is the rounded sum, clamped (41_quantizer.md R126). -/
theorem qordInt_eq {t : F32} (h : thresholdValid t = true) (tie : TieRule) (v : Byte) (m : MatrixSize) :
    qordInt tie v t m =
      max 0 (min 255 (roundTie tie (fadd (f32 v.toNat) (fmul t (fdiv (f32 255) (f32 (matrixN m))))))) :=
  clampAndRoundCommute tie _ (isFinite_qordSum h v m)

theorem qordInt_range {t : F32} (h : thresholdValid t = true) (tie : TieRule) (v : Byte) (m : MatrixSize) :
    0 ≤ qordInt tie v t m ∧ qordInt tie v t m ≤ 255 := by
  rw [qordInt_eq h]
  omega

theorem toNat_qord {t : F32} (h : thresholdValid t = true) (tie : TieRule) (v : Byte) (m : MatrixSize) :
    ((qord tie v t m).toNat : Int) = qordInt tie v t m :=
  toNat_ofInt_byte (qordInt_range h tie v m).1 (qordInt_range h tie v m).2

/-- Settles O29: the noise variant ends in `saturate`; the ordered variant is a clamped sum (R126), so it fits 8 bits. -/
theorem quantizerSaturates : Obligations.QuantizerSaturates := by
  refine ⟨toNat_qnoise, fun tie v t m h => ?_⟩
  obtain ⟨h0, h1⟩ := qordInt_range h tie v m
  exact ⟨h0, h1, toNat_qord h tie v m⟩

/-! ### The commands QNOISE and QORD -/

/-- A successful end with one result, as a state. -/
theorem State.endOk_one (s : State) (a : Word) :
    s.endOk (Results.one a) = { s with phase := .idle, done := true, res0 := a } := rfl

/-- An error end, as a state (60_exceptions.md R200). -/
theorem State.endError_eq (s : State) (e : ErrorCode) :
    s.endError e = { s with phase := .idle, error := some (s.error.getD e) } := rfl

/-- A command with one operand check: the check alone selects the end (60_exceptions.md R204). -/
theorem runCommand_checked {s : State} {r : Running} (valid : Latch → Bool) (res : Latch → Results)
    (hr : s.phase = .busy r) :
    runCommand s (fun l => checked (valid l) (res l)) =
      .next (if valid r.latch then s.endOk (res r.latch) else s.endError .operandRange) := by
  split
  · next h => exact runCommand_ok hr (by rw [h, checked_true])
  · next h => exact runCommand_error hr (by rw [Bool.eq_false_iff.2 h, checked_false])

/-- A channel-value operand in range is its own low byte (30_encoding.md R92). -/
theorem toNat_channelOf {w : Word} (h : w.toNat ≤ 255) : (channelOf w).toNat = w.toNat := by
  rw [channelOf, BitVec.extractLsb'_toNat, Nat.shiftRight_zero]
  omega

/-- QNOISE of a step code other than 3: the checks of both operands select the end (41_quantizer.md R122). -/
theorem execQnoise_step {s : State} {r : Running} {code : BitVec 2} {step : Nat} (flip : Bool) (hr : s.phase = .busy r)
    (hstep : stepOfCode code = some step) :
    exec (.qnoise flip code) s = .next (
      if channelValid r.latch.arg0 && noiseValid r.latch.arg1 then
        s.endOk (Results.two ((qnoise .away (channelOf r.latch.arg0) r.latch.arg1 step flip).setWidth 32)
          (sext32 (qnoiseBias .away r.latch.arg1 step flip)))
      else s.endError .operandRange) := by
  refine (execQnoise.eq_def flip code s).trans ?_
  rw [hstep]
  exact runCommand_checked (fun l => channelValid l.arg0 && noiseValid l.arg1) _ hr

/-- QNOISE of the reserved step code (log 11). -/
theorem execQnoise_reserved {s : State} {r : Running} (flip : Bool) (hr : s.phase = .busy r) :
    exec (.qnoise flip 3#2) s = .next (s.endError .reservedField) :=
  (execQnoise.eq_def flip 3#2 s).trans (runCommand_error hr rfl)

/-- QORD: the checks of both operands select the end (41_quantizer.md R124). -/
theorem execQord_eq {s : State} {r : Running} (m : MatrixSize) (hr : s.phase = .busy r) :
    exec (.qord m) s = .next (
      if channelValid r.latch.arg0 && thresholdValid r.latch.arg1 then
        s.endOk (Results.one ((qord .away (channelOf r.latch.arg0) r.latch.arg1 m).setWidth 32))
      else s.endError .operandRange) :=
  (execQord.eq_def m s).trans (runCommand_checked (fun l => channelValid l.arg0 && thresholdValid l.arg1) _ hr)

/-- The step of each code that is not reserved (30_encoding.md R84). -/
theorem stepOfCode_of_table {code : BitVec 2} {step : Nat}
    (h : (code = 0#2 ∧ step = 16) ∨ (code = 1#2 ∧ step = 8) ∨ (code = 2#2 ∧ step = 4)) :
    stepOfCode code = some step := by
  rcases h with ⟨rfl, rfl⟩ | ⟨rfl, rfl⟩ | ⟨rfl, rfl⟩ <;> rfl

/-- Noise +0.0 gives a bias of half a step, downward without the flip and upward with it (41_quantizer.md R122). -/
theorem qnoiseBias_zero {step : Nat} (h : step = 16 ∨ step = 8 ∨ step = 4) :
    qnoiseBias .away 0#32 step false = - (step / 2 : Int) ∧ qnoiseBias .away 0#32 step true = (step / 2 : Int) := by
  rcases h with rfl | rfl | rfl <;> decide

/-- Noise -0.0 gives the bias of +0.0 (41_quantizer.md R122). -/
theorem qnoiseBias_negZero {step : Nat} (flip : Bool) (h : step = 16 ∨ step = 8 ∨ step = 4) :
    qnoiseBias .away 0x80000000#32 step flip = qnoiseBias .away 0#32 step flip := by
  rcases h with rfl | rfl | rfl <;> cases flip <;> decide

theorem encode_qnoise (flip : Bool) (step : BitVec 2) :
    encode (.qnoise flip step) = BitVec.ofNat 32 (3 + 256 * flip.toNat + 512 * step.toNat) := by
  revert flip step
  decide

/-- Settles O35: the operand checks select the end, and `saturate` gives the clamped sum. -/
theorem qnoiseCommandResult : Obligations.QnoiseCommandResult := by
  refine ⟨encode_qnoise, by decide, by decide, fun flip code s r hr => ⟨?reserved, fun step hcode =>
    ⟨?valid, ?invalid⟩⟩, by decide, fun step => qnoiseBias_zero, fun step flip => qnoiseBias_negZero flip,
    by decide, by decide, by decide, by decide⟩
  case reserved =>
    rintro rfl
    exact execQnoise_reserved flip hr
  case valid =>
    intro h0 h1
    have hvalid : (channelValid r.latch.arg0 && noiseValid r.latch.arg1) = true := by
      rw [(channelValid_iff _).2 h0, (noiseValid_iff _).2 h1, Bool.and_self]
    rw [execQnoise_step flip hr (stepOfCode_of_table hcode), if_pos hvalid, State.endOk_two,
      setWidth_eq_ofInt (toNat_qnoise _ _ _ _ _), toNat_channelOf h0]
    rfl
  case invalid =>
    intro h
    have hinvalid : ¬ (channelValid r.latch.arg0 && noiseValid r.latch.arg1) = true := by
      rw [Bool.and_eq_true, channelValid_iff, noiseValid_iff]
      rintro ⟨hchannel, hnoise⟩
      rcases h with hover | ⟨hover, hne⟩
      · exact Nat.not_le_of_lt hover hchannel
      · exact hnoise.elim (Nat.not_le_of_lt hover) hne
    rw [execQnoise_step flip hr (stepOfCode_of_table hcode), if_neg hinvalid, State.endError_eq]

/-- The ordered-dither bias of a threshold operand, in the numbers of 41_quantizer.md R124: at most 255 / (2 n). -/
theorem abs_qordBias_le {t : F32} (h : thresholdValid t = true) (m : MatrixSize) :
    2 * matrixN m * |F32.scaled (fmul t (fdiv (f32 255) (f32 (matrixN m))))| ≤ 255 * (F32.unit : Int) := by
  rw [Int.abs_eq_natAbs, F32.natAbs_scaled]
  exact_mod_cast (fmul_scale_bound h m).2

/-- Settles O36: the operand checks select the end, the ordered-dither integer fits 8 bits (R125), and the bias is at
most half of 255 / n. -/
theorem qordCommandResult : Obligations.QordCommandResult := by
  refine ⟨by decide, by decide, fun m s r hr => ⟨?valid, ?invalid⟩, by decide, by decide, by decide,
    fun t h => ⟨abs_qordBias_le h .n4, abs_qordBias_le h .n8⟩, by decide, by decide⟩
  case valid =>
    intro h0 h1
    have hthreshold := (thresholdValid_iff _).2 h1
    have hvalid : (channelValid r.latch.arg0 && thresholdValid r.latch.arg1) = true := by
      rw [(channelValid_iff _).2 h0, hthreshold, Bool.and_self]
    rw [execQord_eq m hr, if_pos hvalid, State.endOk_one, setWidth_eq_ofInt (toNat_qord hthreshold _ _ _), qordInt,
      qordClamped, toNat_channelOf h0]
    cases m <;> rfl
  case invalid =>
    intro h
    have hinvalid : ¬ (channelValid r.latch.arg0 && thresholdValid r.latch.arg1) = true := by
      rw [Bool.and_eq_true, channelValid_iff, thresholdValid_iff]
      omega
    rw [execQord_eq m hr, if_neg hinvalid, State.endError_eq]

end Sys2Proof.Machine
end

section
/-! PixelCodec (42_codec.md): the two packed formats in numbers, unpacking then packing (R151), packing then unpacking
(R152), and the commands PACK565, UNPACK565, PACK4444, UNPACK4444 and EXPAND (R141 to R149). -/

namespace Sys2Proof.Machine

/-! ### A field expanded to 8 bits -/

theorem fieldMax_pos {bits : Nat} (hbits : 0 < bits) : 0 < 2 ^ bits - 1 :=
  Nat.sub_pos_of_lt (Nat.one_lt_two_pow hbits.ne')

/-- An expanded field fits a byte, so its number is the rounded quotient itself (42_codec.md R151). -/
theorem toNat_expandField {bits f : Nat} (hbits : 0 < bits) (hf : f < 2 ^ bits) :
    (expandField bits f).toNat = (f * 255 + (2 ^ bits - 1) / 2) / (2 ^ bits - 1) := by
  have hmax := fieldMax_pos hbits
  refine Nat.mod_eq_of_lt ((Nat.div_lt_iff_lt_mul hmax).2 ?_)
  omega

/-- A 4-bit field expands to 17 times itself (42_codec.md R146). -/
theorem toNat_expandField_four {f : Nat} (hf : f < 16) : (expandField 4 f).toNat = f * 17 := by
  rw [toNat_expandField (by decide) hf]
  omega

theorem expandField_zero {bits : Nat} (hbits : 0 < bits) : expandField bits 0 = 0#8 := by
  refine BitVec.eq_of_toNat_eq ((toNat_expandField hbits Nat.one_le_two_pow).trans ?_)
  have hmax := fieldMax_pos hbits
  exact Nat.div_eq_of_lt (by omega)

theorem expandField_max {bits : Nat} (hbits : 0 < bits) : expandField bits (2 ^ bits - 1) = 255#8 := by
  have hmax := fieldMax_pos hbits
  refine BitVec.eq_of_toNat_eq ((toNat_expandField hbits (by omega)).trans ?_)
  rw [Nat.mul_add_div hmax, Nat.div_eq_of_lt (by omega)]
  rfl

/-- The top bits of an expanded field are the field (42_codec.md R151). -/
theorem expandField_div {bits f : Nat} (hbits : 0 < bits) (hle : bits ≤ 8) (hf : f < 2 ^ bits) :
    (expandField bits f).toNat / 2 ^ (8 - bits) = f := by
  rw [toNat_expandField hbits hf]
  interval_cases bits <;> omega

/-- Expanding the top bits of a channel moves it by less than one quantization step (42_codec.md R152). -/
theorem abs_expandField_sub_lt {bits : Nat} (hbits : 0 < bits) (hle : bits ≤ 8) (v : Byte) :
    |((expandField bits (v.toNat / 2 ^ (8 - bits))).toNat : Int) - v.toNat| < 2 ^ (8 - bits) := by
  have hv := v.isLt
  have hf : v.toNat / 2 ^ (8 - bits) < 2 ^ bits := by
    rw [Nat.div_lt_iff_lt_mul (Nat.two_pow_pos _), ← Nat.pow_add, Nat.add_sub_cancel' hle]
    exact hv
  rw [toNat_expandField hbits hf, abs_lt]
  interval_cases bits <;> omega

/-! ### Pixels, words and packed words as numbers -/

theorem extractLsb'_toNat_div {w : Nat} (x : BitVec w) (start len : Nat) :
    (x.extractLsb' start len).toNat = x.toNat / 2 ^ start % 2 ^ len := by
  rw [BitVec.extractLsb'_toNat, Nat.shiftRight_eq_div_pow]

theorem extractLsb'_zero_toNat {w : Nat} (x : BitVec w) (len : Nat) :
    (x.extractLsb' 0 len).toNat = x.toNat % 2 ^ len := by
  rw [extractLsb'_toNat_div, Nat.pow_zero, Nat.div_one]

@[simp] theorem toNat_pixelOf_r (w : Word) : (pixelOf w).r.toNat = w.toNat % 256 :=
  extractLsb'_zero_toNat w 8

@[simp] theorem toNat_pixelOf_g (w : Word) : (pixelOf w).g.toNat = w.toNat / 256 % 256 := extractLsb'_toNat_div w 8 8

@[simp] theorem toNat_pixelOf_b (w : Word) : (pixelOf w).b.toNat = w.toNat / 65536 % 256 := extractLsb'_toNat_div w 16 8

@[simp] theorem toNat_pixelOf_a (w : Word) : (pixelOf w).a.toNat = w.toNat / 16777216 :=
  (extractLsb'_toNat_div w 24 8).trans (Nat.mod_eq_of_lt (by have := w.isLt; omega))

/-- A pixel word as a number (30_encoding.md R88). -/
theorem pixelWord_eq_ofNat (p : Pixel) : pixelWord p =
    BitVec.ofNat 32 (p.r.toNat + p.g.toNat * 256 + p.b.toNat * 65536 + p.a.toNat * 16777216) := by
  refine BitVec.eq_of_toNat_eq ?_
  simp only [pixelWord, toNat_append_eq_add, BitVec.toNat_ofNat]
  omega

theorem packedWord_eq_ofNat (k : Half) : packedWord k = BitVec.ofNat 32 k.toNat := (BitVec.ofNat_toNat 32 k).symm

theorem toNat_halfOf {w : Word} (h : w.toNat < 65536) : (halfOf w).toNat = w.toNat := by
  rw [halfOf, extractLsb'_zero_toNat]
  exact Nat.mod_eq_of_lt h

/-- `pack565` as a number (42_codec.md R140). -/
theorem toNat_pack565 (p : Pixel) :
    (pack565 p).toNat = p.r.toNat / 8 * 2048 + p.g.toNat / 4 * 32 + p.b.toNat / 8 := by
  simp only [pack565, toNat_append_eq_add, extractLsb'_toNat_div]
  omega

/-- `pack4444` as a number (42_codec.md R144). -/
theorem toNat_pack4444 (p : Pixel) : (pack4444 p).toNat =
    p.r.toNat / 16 * 4096 + p.g.toNat / 16 * 256 + p.b.toNat / 16 * 16 + p.a.toNat / 16 := by
  simp only [pack4444, toNat_append_eq_add, extractLsb'_toNat_div]
  omega

/-- The fields that `unpack565` expands, as numbers (42_codec.md R142). -/
theorem unpack565_eq (p : Half) : unpack565 p =
    { r := expandField 5 (p.toNat / 2048), g := expandField 6 (p.toNat / 32 % 64), b := expandField 5 (p.toNat % 32),
      a := 255#8 } := by
  have hr : p.toNat / 2 ^ 11 % 2 ^ 5 = p.toNat / 2048 := by omega
  rw [unpack565, extractLsb'_zero_toNat, extractLsb'_toNat_div, extractLsb'_toNat_div, hr]
  rfl

/-- The fields that `unpack4444` expands, as numbers (42_codec.md R146). -/
theorem unpack4444_eq (p : Half) : unpack4444 p =
    { r := expandField 4 (p.toNat / 4096), g := expandField 4 (p.toNat / 256 % 16),
      b := expandField 4 (p.toNat / 16 % 16), a := expandField 4 (p.toNat % 16) } := by
  have hr : p.toNat / 2 ^ 12 % 2 ^ 4 = p.toNat / 4096 := by omega
  rw [unpack4444, extractLsb'_zero_toNat, extractLsb'_toNat_div, extractLsb'_toNat_div, extractLsb'_toNat_div, hr]
  rfl

/-- The result of UNPACK565 as a number (42_codec.md R143). -/
theorem pixelWord_unpack565 (p : Half) : pixelWord (unpack565 p) =
    BitVec.ofNat 32 ((p.toNat / 2048 * 255 + 15) / 31 + (p.toNat / 32 % 64 * 255 + 31) / 63 * 256 +
      (p.toNat % 32 * 255 + 15) / 31 * 65536 + 255 * 16777216) := by
  rw [pixelWord_eq_ofNat, unpack565_eq, toNat_expandField (by decide) (by omega),
    toNat_expandField (by decide) (by omega), toNat_expandField (by decide) (by omega)]
  rfl

/-- The result of UNPACK4444 as a number (42_codec.md R147). -/
theorem pixelWord_unpack4444 (p : Half) : pixelWord (unpack4444 p) =
    BitVec.ofNat 32 (p.toNat / 4096 * 17 + p.toNat / 256 % 16 * 17 * 256 + p.toNat / 16 % 16 * 17 * 65536 +
      p.toNat % 16 * 17 * 16777216) := by
  rw [pixelWord_eq_ofNat, unpack4444_eq, toNat_expandField_four (by omega), toNat_expandField_four (by omega),
    toNat_expandField_four (by omega), toNat_expandField_four (by omega)]

/-- Expanding a word below 2^24 puts 255 above it (42_codec.md R148). -/
theorem pixelWord_expandPixel {w : Word} (h : w.toNat < 16777216) :
    pixelWord (expandPixel (pixelOf w).r (pixelOf w).g (pixelOf w).b) = BitVec.ofNat 32 (w.toNat + 255 * 16777216) := by
  have hbytes : w.toNat % 256 + w.toNat / 256 % 256 * 256 + w.toNat / 65536 % 256 * 65536 = w.toNat := by omega
  rw [pixelWord_eq_ofNat, expandPixel, toNat_pixelOf_r, toNat_pixelOf_g, toNat_pixelOf_b, hbytes]
  rfl

/-! ### Packing and unpacking -/

/-- Packing and then unpacking expands the top bits of each channel, and alpha becomes 255. -/
theorem unpack565_pack565 (p : Pixel) : unpack565 (pack565 p) =
    { r := expandField 5 (p.r.toNat / 8), g := expandField 6 (p.g.toNat / 4), b := expandField 5 (p.b.toNat / 8),
      a := 255#8 } := by
  rw [unpack565_eq, toNat_pack565]
  congr 2 <;> omega

/-- Packing and then unpacking expands the top 4 bits of each channel. -/
theorem unpack4444_pack4444 (p : Pixel) : unpack4444 (pack4444 p) =
    { r := expandField 4 (p.r.toNat / 16), g := expandField 4 (p.g.toNat / 16), b := expandField 4 (p.b.toNat / 16),
      a := expandField 4 (p.a.toNat / 16) } := by
  rw [unpack4444_eq, toNat_pack4444]
  congr 2 <;> omega

theorem pack565_unpack565 (p : Half) : pack565 (unpack565 p) = p := by
  have hr : (expandField 5 (p.toNat / 2048)).toNat / 8 = p.toNat / 2048 :=
    expandField_div (by decide) (by decide) (by omega)
  have hg : (expandField 6 (p.toNat / 32 % 64)).toNat / 4 = p.toNat / 32 % 64 :=
    expandField_div (by decide) (by decide) (by omega)
  have hb : (expandField 5 (p.toNat % 32)).toNat / 8 = p.toNat % 32 :=
    expandField_div (by decide) (by decide) (by omega)
  refine BitVec.eq_of_toNat_eq ?_
  rw [toNat_pack565, unpack565_eq, hr, hg, hb]
  omega

theorem pack4444_unpack4444 (p : Half) : pack4444 (unpack4444 p) = p := by
  have hfield {f : Nat} (hf : f < 16) : (expandField 4 f).toNat / 16 = f := expandField_div (by decide) (by decide) hf
  refine BitVec.eq_of_toNat_eq ?_
  rw [toNat_pack4444, unpack4444_eq, hfield (by omega), hfield (by omega), hfield (by omega), hfield (by omega)]
  omega

/-- Settles O43: each channel is the expansion of its own top bits, which moves it by less than a step. -/
theorem packThenUnpackErrorBounds : Obligations.PackThenUnpackErrorBounds := by
  have h5 (v : Byte) : |((expandField 5 (v.toNat / 8)).toNat : Int) - v.toNat| ≤ 7 :=
    Int.lt_add_one_iff.1 (abs_expandField_sub_lt (by decide) (by decide) v)
  have h6 (v : Byte) : |((expandField 6 (v.toNat / 4)).toNat : Int) - v.toNat| ≤ 3 :=
    Int.lt_add_one_iff.1 (abs_expandField_sub_lt (by decide) (by decide) v)
  have h4 (v : Byte) : |((expandField 4 (v.toNat / 16)).toNat : Int) - v.toNat| ≤ 15 :=
    Int.lt_add_one_iff.1 (abs_expandField_sub_lt (by decide) (by decide) v)
  refine ⟨fun p => ?_, by decide, by decide, by decide, by decide⟩
  rw [unpack565_pack565, unpack4444_pack4444]
  exact ⟨⟨h5 p.r, h6 p.g, h5 p.b, rfl⟩, h4 p.r, h4 p.g, h4 p.b, h4 p.a⟩

/-- Settles O42: the top bits of an expanded field are the field. -/
theorem unpackThenPackIsIdentity : Obligations.UnpackThenPackIsIdentity := by
  refine ⟨fun p => ⟨pack565_unpack565 p, pack4444_unpack4444 p⟩, fun bits hbits => ?_⟩
  have hpos : 0 < bits := by omega
  exact ⟨expandField_zero hpos, expandField_max hpos⟩

/-! ### The commands -/

/-- The check of a 16-bit word operand (30_encoding.md R92). -/
theorem word16Valid_iff (w : Word) : word16Valid w = true ↔ w.toNat < 65536 := by
  rw [word16Valid, beq_iff_eq, ← BitVec.toNat_inj, extractLsb'_toNat_div, BitVec.toNat_ofNat]
  omega

/-- The check of a 3-channel pixel operand (30_encoding.md R92). -/
theorem rgb888Valid_iff (w : Word) : rgb888Valid w = true ↔ w.toNat < 16777216 := by
  rw [rgb888Valid, beq_iff_eq, ← BitVec.toNat_inj, extractLsb'_toNat_div, BitVec.toNat_ofNat]
  omega

/-- A command that checks ARG0 against a bound: below it, one result; from it on, OPERAND_RANGE
(60_exceptions.md R204). -/
theorem exec_checked_arg0 (i : Instr) {s : State} {r : Running} {valid : Word → Bool} {bound : Nat} (res : Word → Word)
    (hvalid : ∀ w, valid w = true ↔ w.toNat < bound) (hr : s.phase = .busy r)
    (hexec : exec i s = runCommand s fun l => checked (valid l.arg0) (Results.one (res l.arg0))) :
    (r.latch.arg0.toNat < bound →
      exec i s = .next { s with phase := .idle, done := true, res0 := res r.latch.arg0 }) ∧
    (bound ≤ r.latch.arg0.toNat →
      exec i s = .next { s with phase := .idle, error := some (s.error.getD .operandRange) }) := by
  rw [hexec, runCommand_checked (fun l => valid l.arg0) _ hr]
  constructor
  · intro h
    rw [if_pos ((hvalid _).2 h), State.endOk_one]
  · intro h
    rw [if_neg (fun hv => Nat.not_lt_of_le h ((hvalid _).1 hv)), State.endError_eq]

/-- Settles O37: PACK565 has no check, and its result is `pack565` as a number. -/
theorem pack565CommandResult : Obligations.Pack565CommandResult := by
  refine ⟨by decide, fun s r hr => ((execPack565.eq_def s).trans (runCommand_ok hr rfl)).trans ?_⟩
  rw [State.endOk_one, packedWord_eq_ofNat, toNat_pack565, toNat_pixelOf_r, toNat_pixelOf_g, toNat_pixelOf_b]

/-- Settles O39: PACK4444 has no check, and its result is `pack4444` as a number. -/
theorem pack4444CommandResult : Obligations.Pack4444CommandResult := by
  refine ⟨by decide, fun s r hr => ((execPack4444.eq_def s).trans (runCommand_ok hr rfl)).trans ?_⟩
  rw [State.endOk_one, packedWord_eq_ofNat, toNat_pack4444, toNat_pixelOf_r, toNat_pixelOf_g, toNat_pixelOf_b,
    toNat_pixelOf_a]

/-- Settles O38: the check of ARG0 selects the end, and the result is `unpack565` of the low half. -/
theorem unpack565CommandResult : Obligations.Unpack565CommandResult := by
  refine ⟨by decide, fun s r hr => ?_⟩
  obtain ⟨hok, herror⟩ := exec_checked_arg0 .unpack565 (fun w => pixelWord (unpack565 (halfOf w)))
    word16Valid_iff hr (execUnpack565.eq_def s)
  exact ⟨fun h => by rw [hok h, pixelWord_unpack565, toNat_halfOf h], herror⟩

/-- Settles O40: the check of ARG0 selects the end, and the result is `unpack4444` of the low half. -/
theorem unpack4444CommandResult : Obligations.Unpack4444CommandResult := by
  refine ⟨by decide, fun s r hr => ?_⟩
  obtain ⟨hok, herror⟩ := exec_checked_arg0 .unpack4444 (fun w => pixelWord (unpack4444 (halfOf w)))
    word16Valid_iff hr (execUnpack4444.eq_def s)
  exact ⟨fun h => by rw [hok h, pixelWord_unpack4444, toNat_halfOf h], herror⟩

/-- Settles O41: the check of ARG0 selects the end, and alpha 255 stands above the 24 bits. -/
theorem expandCommandResult : Obligations.ExpandCommandResult := by
  refine ⟨by decide, fun s r hr => ?_⟩
  obtain ⟨hok, herror⟩ := exec_checked_arg0 .expand
    (fun w => pixelWord (expandPixel (pixelOf w).r (pixelOf w).g (pixelOf w).b)) rgb888Valid_iff hr
    (execExpand.eq_def s)
  exact ⟨fun h => by rw [hok h, pixelWord_expandPixel h], herror⟩

end Sys2Proof.Machine
end

section
/-! The single-pixel commands of 43_pipeline.md: NOP (R170), DPIX565 (R164), and that a pixel of FRAME stores what the
command of its path computes (R171). -/

namespace Sys2Proof.Machine

/-! ### NOP -/

/-- A word with NOP's opcode and another bit set has a reserved or unused field that is not zero
(43_pipeline.md R170). -/
theorem decode_nopOpcode_reserved {w : Word} (hopc : w.toNat % 256 = 0) (hrest : w.toNat / 256 ≠ 0) :
    decode w = .reject .reservedField := by
  obtain ⟨i, hi⟩ := Option.isSome_iff_exists.1 (instrOfOpc_isSome (w := w) (by rw [hopc]; decide))
  refine (decode_legal hi).trans (if_pos ?_)
  unfold ReservedSet
  omega

/-- A successful end without results, as a state. -/
theorem State.endOk_none (s : State) : s.endOk Results.none = { s with phase := .idle, done := true } := rfl

/-- Settles O32: NOP has no check and no result, and its run from reset is evaluated. -/
theorem nopCompletes : Obligations.NopCompletes :=
  ⟨by decide, fun _ => decode_nopOpcode_reserved, ⟨_, rfl, by decide⟩,
    fun s _ hr => ((execNop.eq_def s).trans (runCommand_ok hr rfl)).trans (by rw [State.endOk_none])⟩

/-! ### DPIX4444 and DPIX565 -/

/-- A successful end with the three results of a pixel command, as a state. -/
theorem State.endOk_pixelResults (s : State) (q : PixelResult) : s.endOk (pixelResults q) = { s with
    phase := .idle, done := true, res0 := pixelWord q.dithered, res1 := packedWord q.packed,
    res2 := pixelWord q.preview } := rfl

/-- DPIX4444: the check of the coordinates selects the end (43_pipeline.md R163). -/
theorem execDpix4444_eq {s : State} {r : Running} (hr : s.phase = .busy r) : exec .dpix4444 s = .next (
    if coordValid r.latch.arg1 && coordValid r.latch.arg2 then
      s.endOk (pixelResults (path4444 pRoundTie r.latch.ctrl.cfg (pixelOf r.latch.arg0) r.latch.arg1.toNat
        r.latch.arg2.toNat))
    else s.endError .operandRange) :=
  (execDpix4444.eq_def s).trans (runCommand_checked (fun l => coordValid l.arg1 && coordValid l.arg2) _ hr)

/-- DPIX565: the check of the coordinates selects the end (43_pipeline.md R164). -/
theorem execDpix565_eq {s : State} {r : Running} (hr : s.phase = .busy r) : exec .dpix565 s = .next (
    if coordValid r.latch.arg1 && coordValid r.latch.arg2 then
      s.endOk (pixelResults (path565 pRoundTie r.latch.ctrl.cfg (pixelOf r.latch.arg0) r.latch.arg1.toNat
        r.latch.arg2.toNat))
    else s.endError .operandRange) :=
  (execDpix565.eq_def s).trans (runCommand_checked (fun l => coordValid l.arg1 && coordValid l.arg2) _ hr)

/-- Settles O45: the check of the coordinates selects the end, and each channel of the dithered pixel has its step and
flip. -/
theorem dpix565CommandResult : Obligations.Dpix565CommandResult := by
  refine ⟨by decide, fun s r hr => ⟨fun hx hy => ?valid, fun hrange => ?invalid⟩⟩
  case valid =>
    rw [execDpix565_eq hr, if_pos ((coordsValid_iff _ _).2 ⟨hx, hy⟩), State.endOk_pixelResults, packedWord_eq_ofNat]
    rfl
  case invalid =>
    rw [execDpix565_eq hr, if_neg (by rw [coordsValid_iff]; omega), State.endError_eq]

/-! ### A pixel of FRAME -/

theorem toNat_pixelWord (p : Pixel) : (pixelWord p).toNat =
    p.r.toNat + p.g.toNat * 256 + p.b.toNat * 65536 + p.a.toNat * 16777216 := by
  rw [pixelWord_eq_ofNat, BitVec.toNat_ofNat, Nat.mod_eq_of_lt (by omega)]

/-- Pixels with the same channels as numbers are the same. -/
theorem Pixel.eq_of_toNat_eq {p q : Pixel} (hr : p.r.toNat = q.r.toNat) (hg : p.g.toNat = q.g.toNat)
    (hb : p.b.toNat = q.b.toNat) (ha : p.a.toNat = q.a.toNat) : p = q := by
  cases p
  cases q
  rw [Pixel.mk.injEq]
  exact ⟨BitVec.eq_of_toNat_eq hr, BitVec.eq_of_toNat_eq hg, BitVec.eq_of_toNat_eq hb, BitVec.eq_of_toNat_eq ha⟩

theorem pixelOf_pixelWord (p : Pixel) : pixelOf (pixelWord p) = p := by
  apply Pixel.eq_of_toNat_eq
  case hr => rw [toNat_pixelOf_r, toNat_pixelWord]; omega
  case hg => rw [toNat_pixelOf_g, toNat_pixelWord]; omega
  case hb => rw [toNat_pixelOf_b, toNat_pixelWord]; omega
  case ha => rw [toNat_pixelOf_a, toNat_pixelWord]; omega

/-- The bytes of a pixel word, low byte first, are its pixel's R, G, B and A (30_encoding.md R88). -/
theorem pixelOf_eq_ofNat (w : Word) : pixelOf w =
    { r := BitVec.ofNat 8 (w.toNat % 256), g := BitVec.ofNat 8 (w.toNat / 256 % 256),
      b := BitVec.ofNat 8 (w.toNat / 65536 % 256), a := BitVec.ofNat 8 (w.toNat / 16777216) } := by
  rw [← toNat_pixelOf_r, ← toNat_pixelOf_g, ← toNat_pixelOf_b, ← toNat_pixelOf_a]
  simp only [BitVec.ofNat_toNat, BitVec.setWidth_eq]

theorem toNat_packedWord (k : Half) : (packedWord k).toNat = k.toNat := by
  rw [packedWord_eq_ofNat, BitVec.toNat_ofNat, Nat.mod_eq_of_lt (by omega)]

/-- The low byte of a packed word as a number (20_memory.md R61). -/
theorem packed_lowByte (k : Half) : k.extractLsb' 0 8 = BitVec.ofNat 8 ((packedWord k).toNat % 256) := by
  refine BitVec.eq_of_toNat_eq ?_
  rw [extractLsb'_zero_toNat, toNat_packedWord, BitVec.toNat_ofNat]
  exact (Nat.mod_mod _ 256).symm

/-- The high byte of a packed word as a number (20_memory.md R61). -/
theorem packed_highByte (k : Half) : k.extractLsb' 8 8 = BitVec.ofNat 8 ((packedWord k).toNat / 256) := by
  refine BitVec.eq_of_toNat_eq ?_
  rw [extractLsb'_toNat_div, toNat_packedWord, BitVec.toNat_ofNat]
  rfl

/-- The six output bytes of a pixel are its packed word and its preview word, low byte first (20_memory.md R61, R63,
R64). -/
theorem Job.cells_eq_words (j : Job) (m : Memory) (i : Nat) {packed preview : Word}
    (hpacked : packed = packedWord (j.result m i).packed) (hpreview : preview = pixelWord (j.result m i).preview) :
    j.cells m i =
      [ (j.pk + 2 * i, BitVec.ofNat 8 (packed.toNat % 256)), (j.pk + 2 * i + 1, BitVec.ofNat 8 (packed.toNat / 256)),
        (j.dst + 4 * i, BitVec.ofNat 8 (preview.toNat % 256)),
        (j.dst + 4 * i + 1, BitVec.ofNat 8 (preview.toNat / 256 % 256)),
        (j.dst + 4 * i + 2, BitVec.ofNat 8 (preview.toNat / 65536 % 256)),
        (j.dst + 4 * i + 3, BitVec.ofNat 8 (preview.toNat / 16777216)) ] := by
  have hlow := packed_lowByte (j.result m i).packed
  have hhigh := packed_highByte (j.result m i).packed
  have hbytes : (j.result m i).preview = pixelOf preview := by rw [hpreview, pixelOf_pixelWord]
  rw [Job.cells, hlow, hhigh, ← hpacked, hbytes, pixelOf_eq_ofNat]

/-- The coordinates of a pixel of a valid frame are below 2^16 (10_state.md R41). -/
theorem Job.Valid.coords_lt {j : Job} (v : j.Valid) {i : Nat} (hi : i < j.count) :
    i % j.width < 2 ^ 16 ∧ i / j.width < 2 ^ 16 :=
  ⟨(Nat.mod_lt i v.width_pos).trans v.width_lt, (Nat.div_lt_of_lt_mul hi).trans v.height_lt⟩

theorem frameJob_cfg {l : Latch} {j : Job} (h : frameJob l = .ok j) : j.cfg = l.ctrl.cfg := by
  obtain ⟨-, path, -, rfl⟩ := frameJob_ok h
  rfl

/-- The single-pixel command of a path (43_pipeline.md R171). -/
def FramePath.command : FramePath → Instr
  | .rgba4444 => .dpix4444
  | .rgb565 => .dpix565

/-- The single-pixel command of a frame's path, on the input pixel and the coordinates of an index and the same
settings, ends with the results that FRAME computes for the index (43_pipeline.md R171). -/
theorem Job.exec_pixelCommand {j : Job} {m : Memory} {i : Nat} {s : State} {r : Running} (v : j.Valid)
    (hi : i < j.count) (hr : s.phase = .busy r) (hcfg : j.cfg = r.latch.ctrl.cfg)
    (h0 : r.latch.arg0 = pixelWord (j.input m i)) (h1 : r.latch.arg1 = BitVec.ofNat 32 (i % j.width))
    (h2 : r.latch.arg2 = BitVec.ofNat 32 (i / j.width)) :
    exec j.path.command s = .next (s.endOk (pixelResults (j.result m i))) := by
  obtain ⟨hx, hy⟩ := v.coords_lt hi
  have hpixel : pixelOf r.latch.arg0 = j.input m i := by rw [h0, pixelOf_pixelWord]
  have harg1 : r.latch.arg1.toNat = i % j.width := by
    rw [h1, BitVec.toNat_ofNat, Nat.mod_eq_of_lt (by omega)]
  have harg2 : r.latch.arg2.toNat = i / j.width := by
    rw [h2, BitVec.toNat_ofNat, Nat.mod_eq_of_lt (by omega)]
  have hvalid : (coordValid r.latch.arg1 && coordValid r.latch.arg2) = true :=
    (coordsValid_iff _ _).2 (by omega)
  cases hpath : j.path with
  | rgba4444 =>
    rw [FramePath.command, execDpix4444_eq hr, if_pos hvalid, hpixel, harg1, harg2, ← hcfg]
    simp only [Job.result, hpath]
  | rgb565 =>
    rw [FramePath.command, execDpix565_eq hr, if_pos hvalid, hpixel, harg1, harg2, ← hcfg]
    simp only [Job.result, hpath]

/-- Settles O52: the command's results are those of the index, whose output bytes are the bytes of RES1 and RES2. -/
theorem framePixelEqualsPixelCommand : Obligations.FramePixelEqualsPixelCommand := by
  intro l j m i s r hj hi hr hctrl h0 h1 h2
  have hcfg : j.cfg = r.latch.ctrl.cfg := by rw [hctrl, frameJob_cfg hj]
  exact ⟨_, Job.exec_pixelCommand (frameJob_ok hj).1 hi hr hcfg h0 h1 h2, packedWord_eq_ofNat _, rfl,
    Job.cells_eq_words j m i rfl rfl⟩

end Sys2Proof.Machine
end

section
/-! FRAME (43_pipeline.md): its validation step (R165) and its end, also when the host disturbed its buffers (R167;
20_memory.md R74). -/

namespace Sys2Proof.Machine

/-! ### The engine steps by progress -/

/-- A FRAME that fails validation ends with the error of the check that fails. -/
theorem execFrame_rejected {s : State} {r : Running} {e : ErrorCode} (hr : s.phase = .busy r)
    (hj : frameJob r.latch = .error e) : execFrame s = .next (s.endError e) := by
  unfold execFrame
  rw [hr]
  simp only [hj]

/-- A FRAME that passes validation and has no progress takes its validation step. -/
theorem execFrame_validate {s : State} {r : Running} {j : Job} (hr : s.phase = .busy r)
    (hj : frameJob r.latch = .ok j) (hp : r.progress = none) : execFrame s = frameValidate j r s := by
  unfold execFrame
  rw [hr]
  simp only [hj, hp]

/-- With no index left, the next engine step of FRAME is the completion step. -/
theorem execFrame_complete {s : State} {r : Running} {j : Job} {p : Progress} (hr : s.phase = .busy r)
    (hj : r.frame = some j) (hp : r.progress = some p) (hfull : j.count ≤ p.done.length) :
    execFrame s = .next (frameComplete j r s) := by
  unfold execFrame
  rw [hr]
  simp only [(Running.frame_some hj).2, hp, if_neg (Nat.not_lt.2 hfull)]

/-! ### The validation step -/

/-- Two regions meet exactly when they share an address (60_exceptions.md R209). -/
theorem Region.meets_iff (g h : Region) : g.meets h = true ↔ ∃ a, g.has a = true ∧ h.has a = true := by
  simp only [Region.meets, Bool.and_eq_true, decide_eq_true_eq, Region.has_iff]
  constructor
  · rintro ⟨⟨⟨hg, hh⟩, hgh⟩, hhg⟩
    exact ⟨max g.base h.base, by omega⟩
  · rintro ⟨a, ha⟩
    omega

/-- The path of a channel count of 3 or 4 has that many channels (43_pipeline.md R168). -/
theorem framePath_some {ch : Byte} (h : ch.toNat = 3 ∨ ch.toNat = 4) :
    ∃ path, framePath ch = some path ∧ path.channels = ch.toNat := by
  rcases h with h | h
  · obtain rfl : ch = 3#8 := BitVec.eq_of_toNat_eq h
    exact ⟨.rgb565, rfl, rfl⟩
  · obtain rfl : ch = 4#8 := BitVec.eq_of_toNat_eq h
    exact ⟨.rgba4444, rfl, rfl⟩

/-- No other channel count has a path (60_exceptions.md R205). -/
theorem framePath_none {ch : Byte} (h3 : ch.toNat ≠ 3) (h4 : ch.toNat ≠ 4) : framePath ch = none := by
  have hne3 : ch ≠ 3#8 := fun h => h3 (congrArg BitVec.toNat h)
  have hne4 : ch ≠ 4#8 := fun h => h4 (congrArg BitVec.toNat h)
  simp only [framePath, if_neg hne3, if_neg hne4]

/-- The check of FRAME for an overlap of two of its buffers (60_exceptions.md R209). -/
def Job.buffersMeet (j : Job) : Bool :=
  j.srcRegion.meets j.dstRegion || j.srcRegion.meets j.pkRegion || j.dstRegion.meets j.pkRegion

/-- The check of the channel count (60_exceptions.md R205). -/
theorem frameJob_of_noPath {l : Latch} (hpath : framePath l.frCh = none) :
    frameJob l = .error .unsupportedChannelCount := by
  simp only [frameJob, hpath]

/-- The checks after the one of the channel count, on the frame that the latch describes (43_pipeline.md R165). -/
theorem frameJob_of_path {l : Latch} {path : FramePath} (hpath : framePath l.frCh = some path) :
    frameJob l =
      if (frameJobOf l path).width = 0 ∨ (frameJobOf l path).height = 0 then .error .badDimension
      else if (frameJobOf l path).regions.any Region.tooFar then .error .addressRange
      else if l.frPk.toNat % 2 = 1 then .error .misaligned
      else if (frameJobOf l path).buffersMeet then .error .bufferOverlap
      else .ok (frameJobOf l path) := by
  have hodd : l.frPk.getLsbD 0 = decide (l.frPk.toNat % 2 = 1) := by rw [BitVec.getLsbD, Nat.testBit_zero]
  simp only [frameJob, hpath, hodd, Job.buffersMeet, Bool.or_eq_true, decide_eq_true_eq]

/-- A buffer runs past the last DMA address (60_exceptions.md R207). -/
theorem Job.tooFar_iff (j : Job) : j.regions.any Region.tooFar = true ↔
    dmaSize < j.src + j.path.channels * j.count ∨ dmaSize < j.dst + 4 * j.count ∨ dmaSize < j.pk + 2 * j.count := by
  simp only [Job.regions, List.any_cons, List.any_nil, Bool.or_false, Bool.or_eq_true, Region.tooFar,
    decide_eq_true_eq]
  rfl

/-- Two of the three buffers share an address (60_exceptions.md R209). -/
theorem Job.buffersMeet_iff (j : Job) : j.buffersMeet = true ↔
    ∃ a, (j.srcRegion.has a = true ∧ j.dstRegion.has a = true) ∨ (j.srcRegion.has a = true ∧ j.pkRegion.has a = true) ∨
      (j.dstRegion.has a = true ∧ j.pkRegion.has a = true) := by
  simp only [Job.buffersMeet, Bool.or_eq_true, Region.meets_iff, exists_or, or_assoc]

/-- A buffer shares an address with memory that has read side effects (20_memory.md R67). -/
theorem Job.touchesDevice_iff (j : Job) (p : Platform) : j.touchesDevice p = true ↔
    ∃ d ∈ p.devices, ∃ a, d.base ≤ a ∧ a < d.base + d.size ∧
      (j.srcRegion.has a = true ∨ j.dstRegion.has a = true ∨ j.pkRegion.has a = true) := by
  have hregions (a : Nat) : (∃ g ∈ j.regions, g.has a = true) ↔
      j.srcRegion.has a = true ∨ j.dstRegion.has a = true ∨ j.pkRegion.has a = true := by
    simp [Job.regions]
  simp only [Job.touchesDevice, List.any_eq_true, Region.meets_iff, ← hregions]
  constructor
  · rintro ⟨g, hg, d, hd, a, hga, hda⟩
    obtain ⟨hlow, hhigh⟩ := (Region.has_iff d a).1 hda
    exact ⟨d, hd, a, hlow, hhigh, g, hg, hga⟩
  · rintro ⟨d, hd, a, hlow, hhigh, g, hg, hga⟩
    exact ⟨g, hg, d, hd, a, hga, (Region.has_iff d a).2 ⟨hlow, hhigh⟩⟩

/-! ### The frame that the latched registers describe, in numbers (10_state.md R40, R41) -/

theorem frameJobOf_width (l : Latch) (path : FramePath) : (frameJobOf l path).width = l.frDim.toNat % 65536 :=
  extractLsb'_zero_toNat l.frDim 16

theorem frameJobOf_height (l : Latch) (path : FramePath) : (frameJobOf l path).height = l.frDim.toNat / 65536 :=
  (extractLsb'_toNat_div l.frDim 16 16).trans (Nat.mod_eq_of_lt (by omega))

theorem frameJobOf_count (l : Latch) (path : FramePath) :
    (frameJobOf l path).count = l.frDim.toNat % 65536 * (l.frDim.toNat / 65536) := by
  rw [Job.count, frameJobOf_width, frameJobOf_height]

section
variable {l : Latch} {path : FramePath}

theorem frameJobOf_src_has (hch : path.channels = l.frCh.toNat) (a : Nat) :
    (frameJobOf l path).srcRegion.has a = true ↔ l.frSrc.toNat ≤ a ∧
      a < l.frSrc.toNat + l.frCh.toNat * (l.frDim.toNat % 65536 * (l.frDim.toNat / 65536)) := by
  rw [Job.src_has, frameJobOf_count, ← hch]
  rfl

theorem frameJobOf_dst_has (a : Nat) : (frameJobOf l path).dstRegion.has a = true ↔ l.frDst.toNat ≤ a ∧
    a < l.frDst.toNat + 4 * (l.frDim.toNat % 65536 * (l.frDim.toNat / 65536)) := by
  rw [Job.dst_has, frameJobOf_count]
  rfl

theorem frameJobOf_pk_has (a : Nat) : (frameJobOf l path).pkRegion.has a = true ↔ l.frPk.toNat ≤ a ∧
    a < l.frPk.toNat + 2 * (l.frDim.toNat % 65536 * (l.frDim.toNat / 65536)) := by
  rw [Job.pk_has, frameJobOf_count]
  rfl

theorem frameJobOf_tooFar_iff (hch : path.channels = l.frCh.toNat) :
    (frameJobOf l path).regions.any Region.tooFar = true ↔
      2 ^ 32 < l.frSrc.toNat + l.frCh.toNat * (l.frDim.toNat % 65536 * (l.frDim.toNat / 65536)) ∨
      2 ^ 32 < l.frDst.toNat + 4 * (l.frDim.toNat % 65536 * (l.frDim.toNat / 65536)) ∨
      2 ^ 32 < l.frPk.toNat + 2 * (l.frDim.toNat % 65536 * (l.frDim.toNat / 65536)) := by
  rw [Job.tooFar_iff, frameJobOf_count, ← hch]
  rfl

end

/-- Settles O46: a path exists for 3 and 4 channels only, and then each check in its order is its meaning in
numbers. -/
theorem frameValidationChecksInOrder : Obligations.FrameValidationChecksInOrder := by
  refine ⟨by decide, rfl, rfl, rfl, rfl, rfl, fun s r hr hp => ?_⟩
  intro ch w h src dst pk inS inD inP fails
  have hfails {e : ErrorCode} (he : frameJob r.latch = .error e) : fails e := execFrame_rejected hr he
  refine ⟨fun h3 h4 => hfails (frameJob_of_noPath (framePath_none h3 h4)), fun hch hdim => ?dimension,
    fun hch hw hh => ?_⟩
  all_goals
    obtain ⟨path, hpath, hchannels⟩ := framePath_some hch
    have hchecks := frameJob_of_path hpath
    rw [frameJobOf_width, frameJobOf_height] at hchecks
  case dimension => exact hfails (hchecks.trans (if_pos hdim))
  rw [if_neg (not_or.2 ⟨hw, hh⟩)] at hchecks
  have hfar := frameJobOf_tooFar_iff hchannels
  refine ⟨fun hpast => hfails (hchecks.trans (if_pos (hfar.2 hpast))), fun hsrc hdst hpk => ?_⟩
  rw [if_neg (hfar.not.2 (by simp only [not_or, Nat.not_lt]; exact ⟨hsrc, hdst, hpk⟩))] at hchecks
  refine ⟨fun hodd => hfails (hchecks.trans (if_pos hodd)), fun heven hshared => ?overlap, fun heven hapart => ?pass⟩
  all_goals
    have hmeet := (frameJobOf r.latch path).buffersMeet_iff
    simp only [frameJobOf_src_has hchannels, frameJobOf_dst_has, frameJobOf_pk_has] at hmeet
    rw [if_neg (show ¬ pk % 2 = 1 by omega)] at hchecks
  case overlap => exact hfails (hchecks.trans (if_pos (hmeet.2 hshared)))
  case pass =>
    rw [if_neg (hmeet.not.2 (not_exists.2 fun a => by simpa only [not_or] using hapart a))] at hchecks
    have hstep : exec .frame s = frameValidate (frameJobOf r.latch path) r s := execFrame_validate hr hchecks hp
    have hdevice := (frameJobOf r.latch path).touchesDevice_iff s.platform
    simp only [frameJobOf_src_has hchannels, frameJobOf_dst_has, frameJobOf_pk_has] at hdevice
    refine ⟨fun hdev => hstep.trans (if_pos (hdevice.2 hdev)), fun hclear => hstep.trans (if_neg fun hdev => ?_)⟩
    obtain ⟨d, hd, a, hlow, hhigh, hin⟩ := hdevice.1 hdev
    exact hclear d hd a hlow hhigh hin

/-! ### The end -/

/-- The address of a byte outside both output buffers is no output address of a pixel. -/
theorem Job.not_mem_outAddrs {j : Job} {a : Nat} (hdst : j.dstRegion.has a = false) (hpk : j.pkRegion.has a = false)
    (i : Nat) (hi : i < j.count) : a ∉ j.outAddrs i := by
  intro ha
  rcases Job.outAddrs_region hi ha with h | h
  · exact Bool.false_ne_true (hpk.symm.trans h)
  · exact Bool.false_ne_true (hdst.symm.trans h)

/-- A list that holds every index below n is at least that long. -/
theorem le_length_of_forall_mem {n : Nat} {d : List Nat} (h : ∀ i, i < n → i ∈ d) : n ≤ d.length := by
  have hsub : List.range n ⊆ d := fun i hi => h i (List.mem_range.1 hi)
  simpa using (List.nodup_range.subperm hsub).length_le

/-- A pixel step with an access that is not performed ends the command with BUS_FAULT, its buffers abandoned
(60_exceptions.md R210). -/
theorem framePixel_faults {j : Job} {r : Running} {p : Progress} {i : Nat} {s : State}
    (hfault : (j.readsOk s.platform i && j.writesOk s.platform i) = false) :
    framePixel j r p i s = (j.abandon r.disturbed p.done s).endError .busFault :=
  if_neg (Bool.eq_false_iff.1 hfault)

/-- A pixel step that ends the command met an access that is not performed. -/
theorem framePixel_idle {j : Job} {r : Running} {p : Progress} {i : Nat} {s : State}
    (hidle : (framePixel j r p i s).phase = .idle) :
    framePixel j r p i s = (j.abandon r.disturbed p.done s).endError .busFault := by
  rcases framePixel_cases j r p i s with ⟨_, _, hstored⟩ | ⟨_, hfault⟩
  · rw [hstored] at hidle
    exact nomatch hidle
  · exact hfault

/-- Settles O48: the completion step, or the pixel step of the picked index, on a scrambled memory when the host
disturbed the buffers. -/
theorem frameEndsAlsoWhenDisturbed : Obligations.FrameEndsAlsoWhenDisturbed := by
  refine ⟨fun s r j p hr hj hp hall _ hd => ?undisturbed, fun s r j p hinv hr hj hp hd => ?disturbed⟩
  case undisturbed =>
    refine (execFrame_complete hr hj hp (le_length_of_forall_mem hall)).trans ?_
    rw [frameComplete, hd]
    rfl
  case disturbed =>
    have hwf : s.mem.wf := ((State.inv_iff s).1 hinv).1
    have valid : j.Valid := (frameJob_ok (Running.frame_some hj).2).1
    obtain ⟨hsorted, -⟩ := State.inv_progress hinv hr hj hp
    refine ⟨fun hall => ?complete, fun hleft => ⟨fun hfaulty => ?faulty, fun t ht hidle => ?fault⟩⟩
    case complete =>
      obtain ⟨hcount, hfree, hkeep⟩ := valid.scramble_spec s hwf
      refine ⟨_, execFrame_complete hr hj hp (le_length_of_forall_mem hall), ?_⟩
      rw [frameComplete, hd, if_pos rfl, State.endOk_mem]
      refine ⟨?_, hfree, fun a hdst hpk => hkeep a (Job.not_mem_outAddrs hdst hpk)⟩
      rw [← hcount]
      rfl
    case faulty =>
      obtain ⟨hi, hnew⟩ := Job.pick_spec j p.done s.freeCount hsorted hleft
      refine ⟨_, execFrame_pixel hr hj hp hleft, ?_⟩
      rw [framePixel_faults (s := { s with freeCount := s.freeCount + 1 }) (hfaulty _ hi hnew)]
      rfl
    case fault =>
      cases (execFrame_pixel hr hj hp hleft).symm.trans ht
      obtain ⟨hcount, hfree, hkeep⟩ := valid.scramble_spec { s with freeCount := s.freeCount + 1 } hwf
      rw [framePixel_idle hidle, hd, Job.abandon, if_pos rfl, State.endError_mem]
      refine ⟨?_, hfree, fun a hdst hpk => hkeep a (Job.not_mem_outAddrs hdst hpk)⟩
      rw [← hcount]
      rfl

end Sys2Proof.Machine
end

section
/-! The exceptions of 60_exceptions.md: the commands that never start (R202, R203), and a bus error in FRAME (R210). -/

namespace Sys2Proof.Machine

/-! ### Commands that never start -/

/-- On the engine's turn a command that the decoder rejects ends with its error (60_exceptions.md R200). -/
theorem step_of_decode_reject {s u : State} {r : Running} {e : DecodeError} (hturn : s.engineMovesFrom u)
    (hr : s.phase = .busy r) (hd : decode r.latch.word = .reject e) :
    step s = .next { u with phase := .idle, error := some (s.error.getD (decodeErrorCode e)) } := by
  obtain ⟨-, hsame, -⟩ := State.engineMovesFrom_spec hturn
  have herror : u.error = s.error := by rw [hsame]
  rw [State.engineMovesFrom_step hturn, State.fetch_reject hr hd, ← herror]
  rfl

/-- Settles O6: the decoder rejects an opcode outside the map. -/
theorem illegalOpcodeEndsCommand : Obligations.IllegalOpcodeEndsCommand :=
  ⟨rfl, fun _ _ _ hturn hr hillegal => step_of_decode_reject hturn hr (decode_illegal hillegal)⟩

/-- Settles O7: with a legal opcode, the decoder rejects a word with a reserved or unused field set. -/
theorem reservedFieldEndsCommand : Obligations.ReservedFieldEndsCommand := by
  refine ⟨rfl, fun s u r hturn hr => ?_⟩
  intro w hlegal hreserved
  obtain ⟨i, hi⟩ := Option.isSome_iff_exists.1 (instrOfOpc_isSome hlegal)
  exact step_of_decode_reject hturn hr ((decode_legal hi).trans (if_pos hreserved))

/-! ### A bus error in FRAME -/

/-- Abandoning a valid frame leaves its input alone. -/
theorem Job.Valid.abandon_input {j : Job} (v : j.Valid) (b : Bool) (d : List Nat) (s : State) (h : s.mem.wf) {a : Nat}
    (ha : j.srcRegion.has a = true) : (j.abandon b d s).mem.read a = s.mem.read a :=
  Job.abandon_read b d s h a fun _ hi hout =>
    Bool.false_ne_true ((v.outAddrs_not_src hi hout).symm.trans ha)

/-- With exact memory, abandoning an undisturbed frame leaves each output byte at its value from before the command or
at the one that the command computes for it (60_exceptions.md R210). -/
theorem State.frameExact.abandon_output {s : State} {r : Running} {j : Job} {p : Progress} (hexact : s.frameExact)
    (hwf : s.mem.wf) (hr : s.phase = .busy r) (hj : r.frame = some j) (hp : r.progress = some p)
    (hd : r.disturbed = false) {i : Nat} (hi : i < j.count) {c : Host.Cell} (hc : c ∈ j.cells p.before i) :
    (j.abandon false p.done s).mem.read c.1 = c.2 ∨
      (j.abandon false p.done s).mem.read c.1 = p.before.read c.1 := by
  have valid : j.Valid := (frameJob_ok (Running.frame_some hj).2).1
  obtain ⟨hnew, hold, hinput⟩ := hexact r p j hr hp hj hd
  have hcells : c ∈ j.cells s.mem i := by rwa [Job.cells_congr hi hinput]
  rcases valid.abandon_output p.done s hwf hi hcells with hcomputed | hkept
  · exact .inl hcomputed
  · by_cases hdone : i ∈ p.done
    · exact .inl (hkept.trans (hnew i hdone c hc))
    · exact .inr (hkept.trans (hold i hi hdone c.1 (Job.cell_addr hc)))

/-- With exact memory, what an undisturbed frame that is abandoned leaves in memory: the bytes of its completed pixels,
each output byte old or new, the input and every byte outside the output buffers as they were (60_exceptions.md
R210). -/
theorem State.frameExact.abandon_memory {s : State} {r : Running} {j : Job} {p : Progress} (hexact : s.frameExact)
    (hinv : s.inv = true) (hr : s.phase = .busy r) (hj : r.frame = some j) (hp : r.progress = some p)
    (hd : r.disturbed = false) :
    (∀ i ∈ p.done, ∀ c ∈ j.cells p.before i, (j.abandon false p.done s).mem.read c.1 = c.2) ∧
    (∀ i, i < j.count → ∀ c ∈ j.cells p.before i, (j.abandon false p.done s).mem.read c.1 = c.2 ∨
      (j.abandon false p.done s).mem.read c.1 = p.before.read c.1) ∧
    (∀ a, j.srcRegion.has a = true → (j.abandon false p.done s).mem.read a = p.before.read a) ∧
    (∀ a, j.dstRegion.has a = false → j.pkRegion.has a = false →
      (j.abandon false p.done s).mem.read a = s.mem.read a) := by
  have hwf : s.mem.wf := ((State.inv_iff s).1 hinv).1
  have valid : j.Valid := (frameJob_ok (Running.frame_some hj).2).1
  obtain ⟨-, hbelow, -⟩ := State.inv_progress hinv hr hj hp
  obtain ⟨hnew, -, hinput⟩ := hexact r p j hr hp hj hd
  refine ⟨fun i hdone c hc => ?_, fun i hi c hc => hexact.abandon_output hwf hr hj hp hd hi hc,
    fun a ha => (valid.abandon_input false p.done s hwf ha).trans (hinput a ha),
    fun a hdst hpk => Job.abandon_read false p.done s hwf a (Job.not_mem_outAddrs hdst hpk)⟩
  exact (valid.abandon_completed p.done s hwf (hbelow i hdone) hdone (Job.cell_addr hc)).trans (hnew i hdone c hc)

/-- Settles O51: the step is the pixel step of the picked index, which ends the command only by abandoning the frame. -/
theorem busFaultLeavesOldOrNewBytes : Obligations.BusFaultLeavesOldOrNewBytes := by
  refine ⟨rfl, fun s r j p hinv hexact hr hj hp hd hleft => ?_⟩
  obtain ⟨hsorted, -⟩ := State.inv_progress hinv hr hj hp
  obtain ⟨hi, hnew⟩ := Job.pick_spec j p.done s.freeCount hsorted hleft
  refine ⟨fun hfaulty => ⟨_, execFrame_pixel hr hj hp hleft, ?faulty⟩, fun t ht hidle => ?fault⟩
  case faulty =>
    rw [framePixel_faults (s := { s with freeCount := s.freeCount + 1 }) (hfaulty _ hi hnew), State.endError_phase]
  case fault =>
    cases (execFrame_pixel hr hj hp hleft).symm.trans ht
    rw [framePixel_idle hidle, hd, State.endError_mem]
    refine ⟨?_, State.frameExact.abandon_memory (s := { s with freeCount := s.freeCount + 1 })
      (State.frameExact_congr rfl rfl hexact) (State.inv_congr rfl rfl id rfl hinv) hr hj hp hd⟩
    rw [Job.abandon_eq]
    rfl

end Sys2Proof.Machine
end

section
/-! The reset input (70_reset_and_hazards.md R230 to R232): what it makes of memory in each phase. -/

namespace Sys2Proof.Machine

/-! ### The abort by phase -/

theorem State.abort_idle {s : State} (hidle : s.phase = .idle) : s.abort = s := by
  simp only [State.abort, hidle]

/-- An abort of a command with no frame, a FRAME that fails validation among them, changes nothing. -/
theorem State.abort_noFrame {s : State} {r : Running} (hr : s.phase = .busy r) (hj : r.frame = none) :
    s.abort = s := by
  simp only [State.abort, hr, hj]

/-- An abort before the validation step abandons the frame with no pixel completed. -/
theorem State.abort_unvalidated {s : State} {r : Running} {j : Job} (hr : s.phase = .busy r) (hj : r.frame = some j)
    (hp : r.progress = none) : s.abort = j.abandon r.disturbed [] s := by
  simp only [State.abort, hr, hj, hp]

/-- An abort after the validation step abandons the frame with its completed pixels. -/
theorem State.abort_validated {s : State} {r : Running} {j : Job} {p : Progress} (hr : s.phase = .busy r)
    (hj : r.frame = some j) (hp : r.progress = some p) : s.abort = j.abandon r.disturbed p.done s := by
  simp only [State.abort, hr, hj, hp]

/-- The memory that an abandoned frame leaves depends on memory, the platform and the free values only. -/
theorem Job.abandon_mem_congr (j : Job) (b : Bool) (d : List Nat) {s t : State} (hm : t.mem = s.mem)
    (hpl : t.platform = s.platform) (hf : t.freeCount = s.freeCount) :
    (j.abandon b d t).mem = (j.abandon b d s).mem := by
  cases b <;> simp [Job.abandon, Job.scramble, hm, hpl, hf]

/-- The memory that an abort leaves depends on the phase, memory, the platform and the free values only. -/
theorem State.abort_mem_congr {s t : State} (hphase : t.phase = s.phase) (hm : t.mem = s.mem)
    (hpl : t.platform = s.platform) (hf : t.freeCount = s.freeCount) : t.abort.mem = s.abort.mem := by
  cases hr : s.phase with
  | idle => rw [State.abort_idle hr, State.abort_idle (hphase.trans hr), hm]
  | busy r =>
    cases hj : r.frame with
    | none => rw [State.abort_noFrame hr hj, State.abort_noFrame (hphase.trans hr) hj, hm]
    | some j =>
      cases hp : r.progress with
      | none =>
        rw [State.abort_unvalidated hr hj hp, State.abort_unvalidated (hphase.trans hr) hj hp]
        exact Job.abandon_mem_congr j r.disturbed [] hm hpl hf
      | some p =>
        rw [State.abort_validated hr hj hp, State.abort_validated (hphase.trans hr) hj hp]
        exact Job.abandon_mem_congr j r.disturbed p.done hm hpl hf

/-! ### The output bytes of an aborted FRAME -/

/-- Before the validation step, an abort of an undisturbed FRAME leaves each output byte as it was or makes it the
computed one. -/
theorem State.abort_unvalidated_output {s : State} {r : Running} {j : Job} (hwf : s.mem.wf) (hr : s.phase = .busy r)
    (hj : r.frame = some j) (hp : r.progress = none) (hd : r.disturbed = false) {i : Nat} (hi : i < j.count)
    {c : Host.Cell} (hc : c ∈ j.cells s.mem i) :
    s.abort.mem.read c.1 = c.2 ∨ s.abort.mem.read c.1 = s.mem.read c.1 := by
  have valid : j.Valid := (frameJob_ok (Running.frame_some hj).2).1
  rw [State.abort_unvalidated hr hj hp, hd]
  exact valid.abandon_output [] s hwf hi hc

/-- After the validation step and with exact memory, an abort of an undisturbed FRAME leaves the computed bytes of the
completed pixels, and every output byte computed or as it was before the command. -/
theorem State.frameExact.abort_output {s : State} {r : Running} {j : Job} {p : Progress} (hexact : s.frameExact)
    (hinv : s.inv = true) (hr : s.phase = .busy r) (hj : r.frame = some j) (hp : r.progress = some p)
    (hd : r.disturbed = false) :
    (∀ i ∈ p.done, ∀ c ∈ j.cells p.before i, s.abort.mem.read c.1 = c.2) ∧
    ∀ i, i < j.count → ∀ c ∈ j.cells p.before i,
      s.abort.mem.read c.1 = c.2 ∨ s.abort.mem.read c.1 = p.before.read c.1 := by
  rw [State.abort_validated hr hj hp, hd]
  obtain ⟨hcompleted, houtput, -, -⟩ := hexact.abandon_memory hinv hr hj hp hd
  exact ⟨hcompleted, houtput⟩

/-! ### The reset input -/

/-- Settles O55: the step is the reset input, whose memory is that of an abort, and the abort goes by the phase. -/
theorem resetInputAborts : Obligations.ResetInputAborts := by
  intro s rest hinv hexact hagenda
  have hwf : s.mem.wf := ((State.inv_iff s).1 hinv).1
  have hmem : (State.resetInput { s with agenda := rest }).mem = s.abort.mem :=
    State.abort_mem_congr rfl rfl rfl rfl
  refine ⟨_, step_reset hagenda, rfl, rfl, ?_⟩
  rw [hmem]
  refine ⟨fun hidle => ?idle, fun r hr hj => ?noFrame, fun r j hr hj =>
    ⟨fun a hdst hpk => ?outside, fun hp hd i hi c hc => ?unvalidated, fun p hp hd => ?validated⟩⟩
  case idle => rw [State.abort_idle hidle]
  case noFrame => rw [State.abort_noFrame hr hj]
  case outside => exact State.abort_read hr hj hwf a (Job.not_mem_outAddrs hdst hpk)
  case unvalidated => exact State.abort_unvalidated_output hwf hr hj hp hd hi hc
  case validated => exact hexact.abort_output hinv hr hj hp hd

end Sys2Proof.Machine
end

section
/-! Command words (30_encoding.md): the decoder and the encoder are inverse to each other. -/

namespace Sys2Proof

/-- A command word as a number, by its fields (30_encoding.md R81). -/
theorem toNat_commandWord (nsel : Bool) (step : BitVec 2) (flip : Bool) (opc : BitVec 8) :
    (commandWord nsel step flip opc).toNat =
      2048 * nsel.toNat + 512 * step.toNat + 256 * flip.toNat + opc.toNat := by
  simp only [commandWord, Machine.toNat_append_eq_add, BitVec.toNat_ofBool, BitVec.toNat_ofNat]
  omega

/-- The word of a well-formed command decodes to it. -/
theorem decode_encode {i : Instr} (hwf : i.wellFormed = true) : decode (encode i) = .instr i := by
  cases i with
  | bayer n => cases n <;> rfl
  | qord n => cases n <;> rfl
  | qnoise flip step => revert flip step; decide
  | nop | noise | pack565 | unpack565 | pack4444 | unpack4444 | expand | dpix4444 | dpix565 | frame => rfl

/-- A word that decodes to a command passes the checks of 30_encoding.md R87, and the command is read from it. -/
theorem readFrom_of_decode {w : Word} {i : Instr} (h : decode w = .instr i) :
    i.ReadFrom w.toNat ∧ ¬ ReservedSet w.toNat := by
  cases hopc : instrOfOpc w with
  | none => simp [decode, hopc] at h
  | some i' =>
    rw [decode_legal hopc] at h
    split at h
    case isTrue => cases h
    case isFalse hgood =>
      cases h
      exact ⟨instrOfOpc_readFrom hopc, hgood⟩

theorem toNat_decide_odd (n : Nat) : (decide (n % 2 = 1)).toNat = n % 2 := by
  rcases Nat.mod_two_eq_zero_or_one n with h | h <;> simp [h]

theorem MatrixSize.toNat_bit_ite_odd (n : Nat) :
    (if n % 2 = 1 then MatrixSize.n8 else MatrixSize.n4).bit.toNat = n % 2 := by
  rcases Nat.mod_two_eq_zero_or_one n with h | h <;> simp [h, MatrixSize.bit]

/-- A command read from a word with no reserved bit set is that word's: its fields are all the bits there are. -/
theorem encode_of_readFrom {w : Word} {i : Instr} (hread : i.ReadFrom w.toNat) (hgood : ¬ ReservedSet w.toNat) :
    i.wellFormed = true ∧ encode i = w := by
  obtain ⟨hopc, hflipStep, hnsel⟩ := hread
  simp only [ReservedSet, not_or] at hgood
  cases i with
  | bayer n | qord n =>
    have hbit := MatrixSize.toNat_bit_ite_odd (w.toNat / 2048)
    rw [← hnsel n (by simp)] at hbit
    refine ⟨rfl, BitVec.eq_of_toNat_eq ((toNat_commandWord ..).trans ?_)⟩
    simp only [Instr.opcode, BitVec.toNat_ofNat, Bool.toNat_false] at hopc ⊢
    omega
  | qnoise flip step =>
    obtain ⟨rfl, hstep⟩ := hflipStep flip step rfl
    have hbit := toNat_decide_odd (w.toNat / 256)
    refine ⟨?_, BitVec.eq_of_toNat_eq ((toNat_commandWord ..).trans ?_)⟩
    · have hne : step.toNat ≠ 3 := by
        simp only [Instr.opcode, BitVec.toNat_ofNat] at hopc
        omega
      exact bne_iff_ne.2 fun h => hne (congrArg BitVec.toNat h)
    · simp only [Instr.opcode, BitVec.toNat_ofNat, Bool.toNat_false] at hopc ⊢
      omega
  | nop | noise | pack565 | unpack565 | pack4444 | unpack4444 | expand | dpix4444 | dpix565 | frame =>
    refine ⟨rfl, BitVec.eq_of_toNat_eq ((toNat_commandWord ..).trans ?_)⟩
    simp only [Instr.opcode, BitVec.toNat_ofNat, Bool.toNat_false] at hopc ⊢
    omega

/-- Settles O1: the fields that the decoder reads are all the bits of a word that passes its checks. -/
theorem decodeExactlyInvertsEncode : Obligations.DecodeExactlyInvertsEncode := by
  refine fun w i => ⟨fun h => ?_, ?_⟩
  · obtain ⟨hread, hgood⟩ := readFrom_of_decode h
    exact encode_of_readFrom hread hgood
  · rintro ⟨hwf, rfl⟩
    exact decode_encode hwf

/-- Settles O4: the eight words are evaluated. -/
theorem sampleWordsDecode : Obligations.SampleWordsDecode := by
  unfold Obligations.SampleWordsDecode
  decide

end Sys2Proof
end

section
/-! What one step can do, said once: for each agent (the engine, the host, the reset input) the effects that a step can have
when it answers a next state. The invariants and the frames are case analyses over these effects. -/

namespace Sys2Proof.Machine

/-! ### The engine -/

/-- What an engine step of a FRAME with the frame `j` can answer (43_pipeline.md R165 to R167). -/
inductive FrameEffect (j : Job) (r : Running) (s : State) : State → Prop
  /-- The validation step. -/
  | validated (hp : r.progress = none) (hdevice : j.touchesDevice s.platform = false) :
      FrameEffect j r s { s with phase := .busy { r with progress := some { done := [], before := s.mem } } }
  /-- A pixel step that stores the picked index. -/
  | stored (p : Progress) (i : Nat) (hp : r.progress = some p) (hleft : p.done.length < j.count)
      (hi : i = j.pick p.done s.freeCount) :
      FrameEffect j r s { s with
        mem := s.mem.writeCells (j.cells s.mem i)
        freeCount := s.freeCount + 1
        phase := .busy { r with progress := some { p with done := insertIndex i p.done } } }
  /-- A pixel step that meets a bus error. -/
  | faulted (p : Progress) (hp : r.progress = some p) (hleft : p.done.length < j.count) :
      FrameEffect j r s
        ((j.abandon r.disturbed p.done { s with freeCount := s.freeCount + 1 }).endError .busFault)
  /-- The completion step of an undisturbed FRAME. -/
  | completed (p : Progress) (hp : r.progress = some p) (hfull : j.count ≤ p.done.length)
      (hd : r.disturbed = false) : FrameEffect j r s (s.endOk Results.none)
  /-- The completion step of a FRAME whose buffers the host wrote (20_memory.md R74). -/
  | scrambled (p : Progress) (hp : r.progress = some p) (hfull : j.count ≤ p.done.length)
      (hd : r.disturbed = true) : FrameEffect j r s ((j.abandon true [] s).endOk Results.none)

/-- What one engine step of a command can answer (30_encoding.md R97 to R99). -/
inductive ExecEffect (i : Instr) (s : State) : State → Prop
  /-- An IDLE engine changes nothing. -/
  | idle (hidle : s.phase = .idle) : ExecEffect i s s
  /-- The command ends with an error that its operands or its registers give. -/
  | failed (r : Running) (e : ErrorCode) (hr : s.phase = .busy r)
      (hframe : i = .frame → ∃ e', frameJob r.latch = .error e') : ExecEffect i s (s.endError e)
  /-- A command other than FRAME ends with its results. -/
  | ended (r : Running) (res : Results) (hr : s.phase = .busy r) (hi : i ≠ .frame)
      (hnop : i = .nop → res = Results.none) : ExecEffect i s (s.endOk res)
  /-- A FRAME that passes validation takes one of its steps. -/
  | frame (r : Running) (j : Job) (t : State) (hi : i = .frame) (hr : s.phase = .busy r)
      (hj : frameJob r.latch = .ok j) (h : FrameEffect j r s t) : ExecEffect i s t

theorem frameComplete_effect {j : Job} {r : Running} {p : Progress} {s : State} (hp : r.progress = some p)
    (hfull : j.count ≤ p.done.length) : FrameEffect j r s (frameComplete j r s) := by
  unfold frameComplete
  split
  case isTrue hd => exact .scrambled p hp hfull hd
  case isFalse hd => exact .completed p hp hfull (Bool.not_eq_true _ ▸ hd)

theorem framePixel_effect {j : Job} {r : Running} {p : Progress} {s : State} (hp : r.progress = some p)
    (hleft : p.done.length < j.count) : FrameEffect j r s
      (framePixel j r p (j.pick p.done s.freeCount) { s with freeCount := s.freeCount + 1 }) := by
  rcases framePixel_cases j r p (j.pick p.done s.freeCount) { s with freeCount := s.freeCount + 1 } with
    ⟨_, _, hstored⟩ | ⟨_, hfault⟩
  · rw [hstored]
    exact .stored p _ hp hleft rfl
  · rw [hfault]
    exact .faulted p hp hleft

/-- NOP has no result to write (43_pipeline.md R170). -/
theorem execNop_effect {s t : State} (h : exec .nop s = .next t) :
    ExecEffect .nop s t := by
  rcases runCommand_cases ((execNop.eq_def s).symm.trans h) with
    ⟨hidle, rfl⟩ | ⟨r, hr, ⟨e, he, _⟩ | ⟨res, hres, rfl⟩⟩
  · exact .idle hidle
  · cases he
  · cases hres
    exact .ended r _ hr nofun fun _ => rfl

/-- An engine step has one of the effects listed. -/
theorem exec_effect {i : Instr} {s t : State} (h : exec i s = .next t) : ExecEffect i s t := by
  by_cases hframe : i = .frame
  case pos =>
    subst hframe
    rcases execFrame_cases h with ⟨hidle, rfl⟩ | ⟨r, hr, ⟨e, he, rfl⟩ | ⟨j, hj, hstep⟩⟩
    · exact .idle hidle
    · exact .failed r e hr fun _ => ⟨e, he⟩
    · refine .frame r j t rfl hr hj ?_
      rcases hstep with ⟨hp, hdevice, rfl⟩ | ⟨p, hp, ⟨hleft, rfl⟩ | ⟨hfull, rfl⟩⟩
      · exact .validated hp hdevice
      · exact framePixel_effect hp hleft
      · exact frameComplete_effect hp hfull
  case neg =>
    by_cases hnop : i = .nop
    case pos =>
      subst hnop
      exact execNop_effect h
    case neg =>
      obtain ⟨f, hf⟩ := exec_single hframe
      rcases runCommand_cases ((hf s).symm.trans h) with ⟨hidle, rfl⟩ | ⟨r, hr, ⟨e, _, rfl⟩ | ⟨res, _, rfl⟩⟩
      · exact .idle hidle
      · exact .failed r e hr fun hi => absurd hi hframe
      · exact .ended r res hr hframe fun hi => absurd hi hnop

/-! ### The host -/

/-- What a host access can answer (10_state.md R22 to R42; 20_memory.md R72 to R74). -/
inductive HostEffect (a : HostAction) (s : State) : State → Prop
  /-- Every access that leaves the engine, its flags and memory alone: the reads, the accesses outside the window, and
  the writes of the data, read-only and reserved offsets. -/
  | quiet (t : State) (hphase : t.phase = s.phase) (hdone : t.done = s.done) (herror : t.error = s.error)
      (hmem : t.mem = s.mem) (hplatform : t.platform = s.platform) (hagenda : t.agenda = s.agenda) : HostEffect a s t
  /-- A write of STATUS. -/
  | status (w : Word) (ha : a = .regWrite (s.platform.regBase + 0x008) 4 w) : HostEffect a s (s.writeStatus w)
  /-- A write of CMD that is accepted. -/
  | accepted (w : Word) (ha : a = .regWrite (s.platform.regBase + 0x00C) 4 w) (hidle : s.phase = .idle) :
      HostEffect a s (s.accept w)
  /-- A write of CMD while BUSY. -/
  | rejected (r : Running) (hr : s.phase = .busy r) : HostEffect a s (s.recordError .busyReject)
  /-- A store. -/
  | stored (x : Nat) (v : Byte) (ha : a = .memWrite x v) (hx : x < dmaSize) : HostEffect a s (s.hostWrite x v)

/-- An aligned 32-bit write of the window has one of the effects listed. -/
theorem State.writeReg_effect (s : State) (off : Nat) (w : Word) :
    HostEffect (.regWrite (s.platform.regBase + off) 4 w) s (s.writeReg off w) := by
  unfold State.writeReg
  split
  case h_2 => exact .status w rfl
  case h_3 =>
    cases hphase : s.phase with
    | idle =>
      rw [State.writeCmd_of_idle hphase]
      exact .accepted w rfl hphase
    | busy r =>
      rw [State.writeCmd_of_running hphase]
      exact .rejected r hphase
  all_goals exact .quiet _ rfl rfl rfl rfl rfl rfl

/-- A host access has one of the effects listed. -/
theorem hostStep_effect {a : HostAction} {s t : State} (h : hostStep a s = .next t) : HostEffect a s t := by
  unfold hostStep at h
  split at h
  case h_1 =>
    split at h
    · split at h <;> cases h
      exact .quiet _ rfl rfl rfl rfl rfl rfl
    · cases h
      exact .quiet _ rfl rfl rfl rfl rfl rfl
  case h_2 addr width w =>
    split at h
    case isTrue hin =>
      split at h
      case isTrue hlegal =>
        cases h
        obtain ⟨rfl, _⟩ := (accessLegal_iff _ _).1 hlegal
        have haddr : s.platform.regBase + (addr - s.platform.regBase) = addr := by
          simp only [Platform.inWindow, Bool.and_eq_true, decide_eq_true_eq] at hin
          omega
        have heffect := s.writeReg_effect (addr - s.platform.regBase) w
        rwa [haddr] at heffect
      case isFalse => cases h
    case isFalse =>
      cases h
      exact .quiet _ rfl rfl rfl rfl rfl rfl
  case h_3 addr =>
    split at h <;> cases h
    rw [State.hostRead_eq]
    exact .quiet _ rfl rfl rfl rfl rfl rfl
  case h_4 addr v =>
    split at h
    · next hx =>
      cases h
      exact .stored addr v rfl hx
    · cases h

/-! ### The whole machine -/

/-- What one step can answer (30_encoding.md R97; 70_reset_and_hazards.md R243). -/
inductive StepEffect (s : State) : State → Prop
  /-- The engine's turn, with the engine IDLE. -/
  | idled (u : State) (hturn : s.engineMovesFrom u) (hidle : u.phase = .idle) : StepEffect s u
  /-- The engine's turn, with a latched word that the decoder rejects. -/
  | refused (u : State) (r : Running) (e : DecodeError) (hturn : s.engineMovesFrom u) (hr : u.phase = .busy r)
      (hd : decode r.latch.word = .reject e) : StepEffect s (u.endError (decodeErrorCode e))
  /-- The engine's turn, with a latched command. -/
  | executed (u : State) (r : Running) (i : Instr) (t : State) (hturn : s.engineMovesFrom u) (hr : u.phase = .busy r)
      (hd : decode r.latch.word = .instr i) (h : ExecEffect i u t) : StepEffect s t
  /-- A host access. -/
  | host (a : HostAction) (rest : List Event) (t : State) (hagenda : s.agenda = .host a :: rest)
      (h : HostEffect a { s with agenda := rest } t) : StepEffect s t
  /-- The last poll of a wait. -/
  | waited (rest : List Event) (hagenda : s.agenda = .wait :: rest) : StepEffect s { s.poll with agenda := rest }
  /-- The reset input. -/
  | reset (rest : List Event) (hagenda : s.agenda = .reset :: rest) :
      StepEffect s (State.resetInput { s with agenda := rest })

/-- When the next move is the engine's, it is the engine's turn. -/
theorem engineMovesFrom_of_nextMove {s u : State} (h : nextMove s = .engine u) : s.engineMovesFrom u := by
  unfold nextMove at h
  split at h
  case h_1 hagenda =>
    cases h
    exact .inl ⟨hagenda, rfl⟩
  case h_2 rest hagenda =>
    cases h
    exact .inr (.inl ⟨rest, hagenda, rfl⟩)
  case h_3 => cases h
  case h_4 rest hagenda =>
    split at h
    case isTrue hbusy =>
      cases h
      exact .inr (.inr ⟨rest, hagenda, hbusy, rfl⟩)
    case isFalse => cases h
  case h_5 => cases h

/-- A move of another agent than the engine has one of the effects listed. -/
theorem nextMove_other_effect {s t : State} (h : nextMove s = .other (.next t)) : StepEffect s t := by
  unfold nextMove at h
  split at h
  case h_1 => cases h
  case h_2 => cases h
  case h_3 a rest hagenda =>
    injection h with h
    exact .host a rest t hagenda (hostStep_effect h)
  case h_4 rest hagenda =>
    split at h <;> cases h
    exact .waited rest hagenda
  case h_5 rest hagenda =>
    cases h
    exact .reset rest hagenda

/-- A step has one of the effects listed. -/
theorem step_effect {s t : State} (h : step s = .next t) : StepEffect s t := by
  cases hmove : nextMove s with
  | other o =>
    simp only [step, hmove] at h
    exact nextMove_other_effect (hmove.trans (congrArg Move.other h))
  | engine u =>
    have hturn := engineMovesFrom_of_nextMove hmove
    cases hphase : u.phase with
    | idle =>
      have hfetch : u.fetch = .idle := by simp only [State.fetch, hphase]
      simp only [step, hmove, hfetch] at h
      cases h
      exact .idled t hturn hphase
    | busy r =>
      cases hd : decode r.latch.word with
      | reject e =>
        simp only [step, hmove, State.fetch_reject hphase hd] at h
        cases h
        exact .refused u r e hturn hphase hd
      | instr i =>
        simp only [step, hmove, State.fetch_instr hphase hd] at h
        exact .executed u r i t hturn hphase hd (exec_effect h)

end Sys2Proof.Machine
end

section
/-! The frames of a step: what an engine step leaves alone (10_state.md R25 to R45), when BUSY and DONE change (R33,
R34), and that a command reads its latch only (R44). -/

namespace Sys2Proof.Machine

/-! ### The frame of an engine step -/

/-- A step of FRAME changes the phase, DONE, the error record, memory and the counter only. -/
theorem FrameEffect.unchanged {j : Job} {r : Running} {s t : State} (h : FrameEffect j r s t) :
    t = { s with phase := t.phase, done := t.done, error := t.error, mem := t.mem, freeCount := t.freeCount } := by
  cases h with
  | validated | stored | completed => rfl
  | faulted | scrambled =>
    rw [Job.abandon_eq]
    rfl

/-- An engine step changes the engine's own registers and memory only. -/
theorem ExecEffect.unchanged {i : Instr} {s t : State} (h : ExecEffect i s t) :
    t = { s with phase := t.phase, done := t.done, error := t.error, res0 := t.res0, res1 := t.res1, res2 := t.res2,
                 mem := t.mem, freeCount := t.freeCount } := by
  cases h with
  | idle | failed | ended => rfl
  | frame r j _ _ _ _ hstep =>
    rw [hstep.unchanged]

/-- Settles O18: an engine step changes the engine's own registers, and only FRAME goes beyond the ends of a command. -/
theorem engineStepFrame : Obligations.EngineStepFrame := by
  intro i s t h
  have heffect := exec_effect h
  rw [heffect.unchanged]
  refine ⟨rfl, rfl, rfl, rfl, rfl, rfl, rfl, rfl, rfl, rfl, rfl, rfl, fun hi => ?_⟩
  cases heffect with
  | idle | failed | ended => exact ⟨rfl, rfl⟩
  | frame _ _ _ hframe => exact absurd hframe hi

/-- Settles O19: FRAME and an error end leave the result registers alone, and NOP ends without a result. -/
theorem resultsChangeOnlyOnSuccess : Obligations.ResultsChangeOnlyOnSuccess := by
  intro i s t h
  cases exec_effect h with
  | idle | failed => exact .inl ⟨rfl, rfl, rfl⟩
  | frame _ _ _ _ _ _ hstep =>
    rw [hstep.unchanged]
    exact .inl ⟨rfl, rfl, rfl⟩
  | ended r res hr hframe hnop =>
    by_cases hi : i = .nop
    · rw [hnop hi]
      exact .inl ⟨rfl, rfl, rfl⟩
    · exact .inr ⟨State.busy_of_running hr, rfl, rfl, rfl, hframe, hi⟩

/-! ### The host's side does not matter to a command -/

/-- A state with the host's registers, data and agenda of another. -/
def State.withHostOf (s u : State) : State :=
  { s with
    ctrl := u.ctrl, arg0 := u.arg0, arg1 := u.arg1, arg2 := u.arg2, frSrc := u.frSrc, frDst := u.frDst,
    frPk := u.frPk, frDim := u.frDim, frCh := u.frCh, agenda := u.agenda, hostData := u.hostData }

theorem Job.abandon_withHostOf (j : Job) (b : Bool) (d : List Nat) (s u : State) :
    j.abandon b d (s.withHostOf u) = (j.abandon b d s).withHostOf u := by
  cases b <;> rfl

theorem framePixel_withHostOf (j : Job) (r : Running) (p : Progress) (i : Nat) (s u : State) :
    framePixel j r p i (s.withHostOf u) = (framePixel j r p i s).withHostOf u := by
  unfold framePixel
  rw [Job.abandon_withHostOf]
  show (if (j.readsOk s.platform i && j.writesOk s.platform i) = true then _ else _) = _
  split <;> rfl

theorem frameComplete_withHostOf (j : Job) (r : Running) (s u : State) :
    frameComplete j r (s.withHostOf u) = (frameComplete j r s).withHostOf u := by
  unfold frameComplete
  cases r.disturbed <;> rfl

/-- While an index is left, the engine step of a frame that passes validation is the pixel step of the picked index. -/
theorem execFrame_pixelStep {s : State} {r : Running} {j : Job} {p : Progress} (hr : s.phase = .busy r)
    (hj : frameJob r.latch = .ok j) (hp : r.progress = some p) (hleft : p.done.length < j.count) :
    execFrame s = .next (framePixel j r p (j.pick p.done s.freeCount) { s with freeCount := s.freeCount + 1 }) := by
  unfold execFrame
  rw [hr]
  simp only [hj, hp, if_pos hleft]

/-- With no index left, the engine step of a frame that passes validation is the completion step. -/
theorem execFrame_completionStep {s : State} {r : Running} {j : Job} {p : Progress} (hr : s.phase = .busy r)
    (hj : frameJob r.latch = .ok j) (hp : r.progress = some p) (hfull : j.count ≤ p.done.length) :
    execFrame s = .next (frameComplete j r s) := by
  unfold execFrame
  rw [hr]
  simp only [hj, hp, if_neg (Nat.not_lt.2 hfull)]

/-- A FRAME's engine step reads nothing of the host's side. -/
theorem execFrame_withHostOf {s t : State} (u : State) (h : execFrame s = .next t) :
    execFrame (s.withHostOf u) = .next (t.withHostOf u) := by
  rcases execFrame_cases h with ⟨hidle, rfl⟩ | ⟨r, hr, hbusy⟩
  case inl => simp only [execFrame, State.withHostOf, hidle]
  case inr =>
    have hr' : (s.withHostOf u).phase = .busy r := hr
    rcases hbusy with ⟨e, he, rfl⟩ | ⟨j, hj, ⟨hp, hdevice, rfl⟩ | ⟨p, hp, ⟨hleft, rfl⟩ | ⟨hfull, rfl⟩⟩⟩
    · exact execFrame_rejected hr' he
    · exact (execFrame_validate hr' hj hp).trans (if_neg (Bool.eq_false_iff.1 hdevice))
    · rw [← framePixel_withHostOf]
      exact execFrame_pixelStep hr' hj hp hleft
    · rw [← frameComplete_withHostOf]
      exact execFrame_completionStep hr' hj hp hfull

theorem runCommand_withHostOf {s t : State} {f : Latch → Except ErrorCode Results} (u : State)
    (h : runCommand s f = .next t) : runCommand (s.withHostOf u) f = .next (t.withHostOf u) := by
  rcases runCommand_cases h with ⟨hidle, rfl⟩ | ⟨r, hr, ⟨e, he, rfl⟩ | ⟨res, hres, rfl⟩⟩
  · simp only [runCommand, State.withHostOf, hidle]
  · exact runCommand_error (s := s.withHostOf u) hr he
  · exact runCommand_ok (s := s.withHostOf u) hr hres

theorem exec_withHostOf {i : Instr} {s t : State} (u : State) (h : exec i s = .next t) :
    exec i (s.withHostOf u) = .next (t.withHostOf u) := by
  by_cases hi : i = .frame
  case pos =>
    subst hi
    exact execFrame_withHostOf u h
  case neg =>
    obtain ⟨f, hf⟩ := exec_single hi
    rw [hf] at h ⊢
    exact runCommand_withHostOf u h

/-- Settles O17: the second state is the first with the host's side of its own. -/
theorem commandReadsOnlyTheLatch : Obligations.CommandReadsOnlyTheLatch := by
  intro i s u t _ hphase hdone herror hres0 hres1 hres2 hmem hplatform hcount h
  have hu : u = s.withHostOf u := by
    rw [State.withHostOf, ← hphase, ← hdone, ← herror, ← hres0, ← hres1, ← hres2, ← hmem, ← hplatform, ← hcount]
  rw [hu]
  exact exec_withHostOf u h

/-! ### BUSY and DONE -/

/-- What an engine step does to BUSY and DONE: nothing, the end with an error, or the successful end. -/
def State.EngineFlags (s t : State) : Prop :=
  (t.busy = s.busy ∧ t.done = s.done) ∨
  (t.busy = false ∧ t.done = s.done ∧ ∃ e, t.error = some (s.error.getD e)) ∨
  (s.busy = true ∧ t.busy = false ∧ t.done = true ∧ t.error = s.error)

theorem State.busy_congr {s t : State} (h : t.phase = s.phase) : t.busy = s.busy := by
  unfold State.busy
  rw [h]

theorem FrameEffect.flags {j : Job} {r : Running} {s t : State} (hr : s.phase = .busy r) (h : FrameEffect j r s t) :
    s.EngineFlags t := by
  have hbusy := State.busy_of_running hr
  cases h with
  | validated | stored => exact .inl ⟨hbusy.symm, rfl⟩
  | faulted =>
    rw [Job.abandon_eq]
    exact .inr (.inl ⟨rfl, rfl, _, rfl⟩)
  | completed => exact .inr (.inr ⟨hbusy, rfl, rfl, rfl⟩)
  | scrambled =>
    rw [Job.abandon_eq]
    exact .inr (.inr ⟨hbusy, rfl, rfl, rfl⟩)

theorem ExecEffect.flags {i : Instr} {s t : State} (h : ExecEffect i s t) : s.EngineFlags t := by
  cases h with
  | idle => exact .inl ⟨rfl, rfl⟩
  | failed => exact .inr (.inl ⟨rfl, rfl, _, rfl⟩)
  | ended _ _ hr => exact .inr (.inr ⟨State.busy_of_running hr, rfl, rfl, rfl⟩)
  | frame _ _ _ _ hr _ hstep => exact hstep.flags hr

/-- The state from which the engine moves differs in the agenda and the host's data only. -/
theorem State.engineMovesFrom_same {s u : State} (h : s.engineMovesFrom u) :
    u = { s with agenda := u.agenda, hostData := u.hostData } := (State.engineMovesFrom_spec h).2.1

/-- The causes of 10_state.md R33 and R34 for the changes of BUSY and DONE from `s` to `t`. -/
def State.FlagsFollow (s t : State) : Prop :=
  (s.busy = false → t.busy = true → t.done = false ∧ ∃ rest w,
    s.agenda = .host (.regWrite (s.platform.regBase + 0x00C) 4 w) :: rest) ∧
  (s.done = false → t.done = true → s.busy = true ∧ t.busy = false ∧ t.error = s.error) ∧
  (s.busy = true → t.busy = false → (∃ rest, s.agenda = .reset :: rest) ∨ t.done = true ∨
    ∃ e, t.error = some (s.error.getD e)) ∧
  (s.done = true → t.done = false → (∃ rest, s.agenda = .reset :: rest) ∨ t.busy = true ∨ ∃ rest w,
    w.getLsbD 1 = true ∧ s.agenda = .host (.regWrite (s.platform.regBase + 0x008) 4 w) :: rest)

/-- The three effects of an engine step: in each, a clause either names the effect or supposes a change that is not
made. -/
theorem State.FlagsFollow.of_engineFlags {s t : State} (h : s.EngineFlags t) : s.FlagsFollow t := by
  rcases h with ⟨hbusy, hdone⟩ | ⟨hbusy, hdone, herror⟩ | ⟨hstart, hbusy, hdone, herror⟩
  · simp_all [State.FlagsFollow]
  · refine ⟨fun _ h => absurd (hbusy.symm.trans h) Bool.false_ne_true, fun h0 h1 => ?_, fun _ _ => .inr (.inr herror),
      fun h1 h0 => ?_⟩
    · exact absurd (h0.symm.trans (hdone.symm.trans h1)) Bool.false_ne_true
    · exact absurd (h0.symm.trans (hdone.trans h1)) Bool.false_ne_true
  · exact ⟨fun _ h => absurd (hbusy.symm.trans h) Bool.false_ne_true, fun _ _ => ⟨hstart, hbusy, herror⟩,
      fun _ _ => .inr (.inl hdone), fun _ h => absurd (h.symm.trans hdone) Bool.false_ne_true⟩

theorem State.FlagsFollow.of_same {s t : State} (hphase : t.phase = s.phase) (hdone : t.done = s.done) :
    s.FlagsFollow t :=
  .of_engineFlags (.inl ⟨State.busy_congr hphase, hdone⟩)

theorem State.busy_hostWrite (s : State) (a : Nat) (v : Byte) : (s.hostWrite a v).busy = s.busy := by
  cases hphase : s.phase with
  | idle => rw [State.busy_of_idle hphase, State.busy_of_idle (State.hostWrite_phase_idle hphase a v)]
  | busy r => rw [State.busy_of_running hphase, State.busy_of_running (State.hostWrite_phase_busy hphase a v)]

theorem HostEffect.flags {a : HostAction} {s t : State} {rest : List Event} (hagenda : s.agenda = .host a :: rest)
    (h : HostEffect a { s with agenda := rest } t) : s.FlagsFollow t := by
  cases h with
  | quiet _ hphase hdone => exact .of_same hphase hdone
  | rejected => exact .of_same rfl rfl
  | stored x v => exact .of_engineFlags (.inl ⟨State.busy_hostWrite _ x v, rfl⟩)
  | status w ha =>
    subst ha
    have hbit : s.done = true → (s.done && !w.getLsbD 1) = false → w.getLsbD 1 = true := by
      cases w.getLsbD 1 <;> simp
    exact ⟨fun hidle hbusy => absurd (hidle.symm.trans hbusy) Bool.false_ne_true,
      fun hzero hone => by simp [hzero] at hone,
      fun hbusy hidle => absurd (hidle.symm.trans hbusy) Bool.false_ne_true,
      fun hone hzero => .inr (.inr ⟨rest, w, hbit hone hzero, hagenda⟩)⟩
  | accepted w ha =>
    subst ha
    exact ⟨fun _ _ => ⟨rfl, rest, w, hagenda⟩, nofun, nofun, fun _ _ => .inr (.inl rfl)⟩

/-- Settles O14: an engine step does to BUSY and DONE what `State.EngineFlags` says, and of the other agents' steps only
acceptance, a write of STATUS and the reset input touch them. -/
theorem busyAndDoneFollowTheCommand : Obligations.BusyAndDoneFollowTheCommand := by
  intro s t h
  show s.FlagsFollow t
  cases step_effect h with
  | idled u hturn =>
    rw [State.engineMovesFrom_same hturn]
    exact .of_same rfl rfl
  | refused u r e hturn =>
    rw [State.engineMovesFrom_same hturn]
    exact .of_engineFlags (.inr (.inl ⟨rfl, rfl, _, rfl⟩))
  | executed u r i _ hturn hr hd heffect =>
    rw [State.engineMovesFrom_same hturn] at heffect
    exact .of_engineFlags heffect.flags
  | host a rest _ hagenda heffect => exact heffect.flags hagenda
  | waited => exact .of_same rfl rfl
  | reset rest hagenda => exact ⟨nofun, nofun, fun _ _ => .inl ⟨rest, hagenda⟩, fun _ _ => .inl ⟨rest, hagenda⟩⟩

/-! ### The running command -/

/-- Settles O16: of the host's register accesses only an accepted CMD write changes the phase, and that needs an IDLE
engine. -/
theorem hostAccessLeavesRunningCommand : Obligations.HostAccessLeavesRunningCommand := by
  intro s t r a rest hr hagenda _ hnoStore h
  rw [step_host hagenda] at h
  cases hostStep_effect h with
  | quiet _ hphase => exact hphase.trans hr
  | status | rejected => exact hr
  | accepted w ha hidle => exact nomatch hidle.symm.trans hr
  | stored x v ha => exact absurd ha (hnoStore x v)

/-! ### The engine's turn -/

/-- Settles O5: the engine's turn by `State.engineMovesFrom_step`, and the last poll of a wait. -/
theorem stepRunsDecodedCommand : Obligations.StepRunsDecodedCommand := by
  refine ⟨fun s u i hturn hf => by rw [State.engineMovesFrom_step hturn, hf], fun s u hturn hidle => ?_,
    fun s rest hagenda hidle => ?_, fun s hagenda => .inl ⟨hagenda, rfl⟩,
    fun s rest hagenda => .inr (.inl ⟨rest, hagenda, rfl⟩),
    fun s rest r hagenda hr => .inr (.inr ⟨rest, hagenda, State.busy_of_running hr, rfl⟩)⟩
  · have hfetch : s.fetch = .idle := by simp only [State.fetch, hidle]
    rw [State.engineMovesFrom_step hturn, hfetch]
  · have hbusy : ¬ s.busy = true := by rw [State.busy_of_idle hidle]; exact Bool.false_ne_true
    simp only [step, nextMove, hagenda, if_neg hbusy]
    rfl

/-! ### The register map -/

/-- Settles O54: the constant registers and the flags are evaluated; every other offset reads a register that is 0 after
reset, or nothing. -/
theorem resetValues : Obligations.ResetValues := by
  refine ⟨rfl, by decide, by decide, rfl, fun off hid hctrl => ?_, rfl, rfl⟩
  unfold State.readReg
  split
  case h_1 => exact absurd rfl hid
  case h_2 => exact absurd rfl hctrl
  case h_3 => decide
  all_goals rfl

/-- The register map of 10_state.md R21 as a table of offsets. -/
theorem State.readReg_eq_table (s : State) (off : Nat) : s.readReg off =
    if off = 0x000 then 0x44540007#32
    else if off = 0x004 then s.ctrl.word
    else if off = 0x008 then s.status
    else if off = 0x010 then s.arg0
    else if off = 0x014 then s.arg1
    else if off = 0x018 then s.arg2
    else if off = 0x020 then s.res0
    else if off = 0x024 then s.res1
    else if off = 0x028 then s.res2
    else if off = 0x030 then s.frSrc
    else if off = 0x034 then s.frDst
    else if off = 0x038 then s.frPk
    else if off = 0x03C then s.frDim
    else if off = 0x040 then BitVec.ofNat 32 s.frCh.toNat
    else 0#32 := by
  unfold State.readReg
  split
  case h_16 => grind
  all_goals simp [pId]

/-- What a host write of a data, read-only or reserved offset changes (10_state.md R38 to R42). -/
theorem State.writeReg_eq_table (s : State) (off : Nat) (w : Word) (hctrl : off ≠ 0x004) (hstatus : off ≠ 0x008)
    (hcmd : off ≠ 0x00C) : s.writeReg off w = { s with
      arg0 := if off = 0x010 then w else s.arg0
      arg1 := if off = 0x014 then w else s.arg1
      arg2 := if off = 0x018 then w else s.arg2
      frSrc := if off = 0x030 then w else s.frSrc
      frDst := if off = 0x034 then w else s.frDst
      frPk := if off = 0x038 then w else s.frPk
      frDim := if off = 0x03C then w else s.frDim
      frCh := if off = 0x040 then BitVec.ofNat 8 (w.toNat % 256) else s.frCh } := by
  unfold State.writeReg
  split
  case h_1 => exact absurd rfl hctrl
  case h_2 => exact absurd rfl hstatus
  case h_3 => exact absurd rfl hcmd
  case h_12 =>
    cases s
    rw [State.mk.injEq]
    grind
  case h_11 =>
    have hbyte : w.extractLsb' 0 8 = BitVec.ofNat 8 (w.toNat % 256) := by
      rw [show w.toNat % 256 = (w.extractLsb' 0 8).toNat from (extractLsb'_zero_toNat w 8).symm, BitVec.ofNat_toNat,
        BitVec.setWidth_eq]
    rw [hbyte]
    rfl
  all_goals rfl

/-- Settles O9: the tables of reads and writes, at an aligned offset of the window. -/
theorem registerMapReadsAndWrites : Obligations.RegisterMapReadsAndWrites := by
  refine ⟨fun s off rest halign ho hagenda => ?_, fun s off w rest halign ho hctrl hstatus hcmd hagenda => ?_⟩
  all_goals have hlegal : accessLegal off 4 = true := (accessLegal_iff off 4).2 ⟨rfl, halign⟩
  · rw [step_regRead ho hagenda, if_pos hlegal, State.readReg_eq_table]
  · rw [step_regWrite ho hagenda, if_pos hlegal, State.writeReg_eq_table _ off w hctrl hstatus hcmd]

end Sys2Proof.Machine
end

section
/-! The invariant of the machine and the exactness of memory during a FRAME: every step keeps both (10_state.md R45;
20_memory.md R60, R67, R71, R74; 43_pipeline.md R166, R169), and a FRAME writes its output buffers only. -/

namespace Sys2Proof.Machine

/-! ### The invariant by phase -/

theorem State.inv_of_idle {s : State} (hwf : s.mem.wf) (hspace : s.mem.inSpace) (hidle : s.phase = .idle) :
    s.inv = true :=
  (State.inv_iff s).2 ⟨hwf, hspace, State.phaseOk_idle hidle⟩

theorem State.inv_of_noProgress {s : State} {r : Running} (hwf : s.mem.wf) (hspace : s.mem.inSpace)
    (hr : s.phase = .busy r) (hdone : s.done = false) (hp : r.progress = none) : s.inv = true :=
  (State.inv_iff s).2 ⟨hwf, hspace, (State.phaseOk_busy hr).2 ⟨hdone, fun _ h => nomatch hp.symm.trans h⟩⟩

theorem State.inv_of_progress {s : State} {r : Running} {j : Job} {p : Progress} (hwf : s.mem.wf)
    (hspace : s.mem.inSpace) (hr : s.phase = .busy r) (hdone : s.done = false) (hp : r.progress = some p)
    (hj : r.frame = some j) (hdevice : j.touchesDevice s.platform = false) (hok : p.ok j = true) : s.inv = true := by
  refine (State.inv_iff s).2 ⟨hwf, hspace, (State.phaseOk_busy hr).2 ⟨hdone, fun q hq => ?_⟩⟩
  cases hp.symm.trans hq
  exact ⟨j, hj, hdevice, hok⟩

/-- DONE is 0 while BUSY (10_state.md R37). -/
theorem State.done_of_inv {s : State} {r : Running} (hinv : s.inv = true) (hr : s.phase = .busy r) :
    s.done = false := by
  obtain ⟨-, -, hphase⟩ := (State.inv_iff s).1 hinv
  exact ((State.phaseOk_busy hr).1 hphase).1

/-- The buffers of a FRAME with progress are ordinary memory (20_memory.md R67). -/
theorem State.device_of_inv {s : State} {r : Running} {j : Job} {p : Progress} (hinv : s.inv = true)
    (hr : s.phase = .busy r) (hj : r.frame = some j) (hp : r.progress = some p) :
    j.touchesDevice s.platform = false := by
  obtain ⟨-, -, hphase⟩ := (State.inv_iff s).1 hinv
  obtain ⟨j', hj', hdevice, -⟩ := ((State.phaseOk_busy hr).1 hphase).2 p hp
  cases hj.symm.trans hj'
  exact hdevice

theorem Running.frame_valid {r : Running} {j : Job} (hj : r.frame = some j) : j.Valid :=
  (frameJob_ok (Running.frame_some hj).2).1

/-! ### Every step keeps the invariant -/

theorem FrameEffect.inv {j : Job} {r : Running} {s t : State} (hinv : s.inv = true) (hr : s.phase = .busy r)
    (hj : r.frame = some j) (h : FrameEffect j r s t) : t.inv = true := by
  obtain ⟨hwf, hspace, -⟩ := (State.inv_iff s).1 hinv
  have hdone := State.done_of_inv hinv hr
  have valid := Running.frame_valid hj
  cases h with
  | validated hp hdevice =>
    have hok : Progress.ok { done := [], before := s.mem } j = true :=
      (Progress.ok_iff _ _).2 ⟨.nil, nofun, hwf, hspace⟩
    exact State.inv_of_progress hwf hspace rfl hdone rfl hj hdevice hok
  | stored p i hp hleft hi =>
    obtain ⟨hsorted, hbelow, hbefore⟩ := State.inv_progress hinv hr hj hp
    have hpick := (Job.pick_spec j p.done s.freeCount hsorted hleft).1
    rw [← hi] at hpick
    have hok : Progress.ok { p with done := insertIndex i p.done } j = true := by
      refine (Progress.ok_iff _ _).2 ⟨insertIndex_sorted i p.done hsorted, fun k hk => ?_, hbefore⟩
      rcases (mem_insertIndex i k p.done).1 hk with rfl | hk
      · exact hpick
      · exact hbelow k hk
    have hcells := Memory.writeCells_inSpace (j.cells s.mem i)
      (fun c hc => valid.outAddrs_lt hpick (Job.cell_addr hc)) s.mem hspace
    have hdevice := State.device_of_inv hinv hr hj hp
    exact State.inv_of_progress (Memory.writeCells_wf _ s.mem hwf) hcells rfl hdone rfl hj hdevice hok
  | faulted =>
    exact State.inv_of_idle (Job.abandon_wf j _ _ _ hwf) (Job.abandon_inSpace valid _ _ _ hspace) rfl
  | completed => exact State.inv_of_idle hwf hspace rfl
  | scrambled => exact State.inv_of_idle (Job.abandon_wf j _ _ _ hwf) (Job.abandon_inSpace valid _ _ _ hspace) rfl

theorem ExecEffect.inv {i : Instr} {s t : State} (hinv : s.inv = true)
    (hd : ∀ r, s.phase = .busy r → decode r.latch.word = .instr i) (h : ExecEffect i s t) : t.inv = true := by
  obtain ⟨hwf, hspace, -⟩ := (State.inv_iff s).1 hinv
  cases h with
  | idle => exact hinv
  | failed | ended => exact State.inv_of_idle hwf hspace rfl
  | frame r j _ hi hr hj hstep => exact hstep.inv hinv hr (Running.frame_of (hi ▸ hd r hr) hj)

theorem State.hostWrite_inv {s : State} {x : Nat} (v : Byte) (hinv : s.inv = true) (hx : x < dmaSize) :
    (s.hostWrite x v).inv = true := by
  obtain ⟨hwf, hspace, -⟩ := (State.inv_iff s).1 hinv
  have hwf' := Memory.write_wf s.mem x v hwf
  have hspace' := Memory.write_inSpace s.mem x v hspace hx
  cases hr : s.phase with
  | idle => exact State.inv_of_idle hwf' hspace' (State.hostWrite_phase_idle hr x v)
  | busy r =>
    have hr' := State.hostWrite_phase_busy hr x v
    have hdone := State.done_of_inv hinv hr
    rw [Running.disturb_eq] at hr'
    cases hp : r.progress with
    | none => exact State.inv_of_noProgress hwf' hspace' hr' hdone hp
    | some p =>
      obtain ⟨-, -, hphase⟩ := (State.inv_iff s).1 hinv
      obtain ⟨j, hj, hdevice, hok⟩ := ((State.phaseOk_busy hr).1 hphase).2 p hp
      exact State.inv_of_progress hwf' hspace' hr' hdone hp hj hdevice hok

theorem HostEffect.inv {a : HostAction} {s t : State} (hinv : s.inv = true) (h : HostEffect a s t) :
    t.inv = true := by
  obtain ⟨hwf, hspace, -⟩ := (State.inv_iff s).1 hinv
  cases h with
  | quiet _ hphase hdone _ hmem hplatform => exact State.inv_congr hmem hphase (hdone ▸ id) hplatform hinv
  | status => exact State.inv_congr (s := s) rfl rfl (fun hdone => (Bool.and_eq_true_iff.1 hdone).1) rfl hinv
  | accepted => exact State.inv_of_noProgress hwf hspace rfl rfl rfl
  | rejected => exact State.inv_congr rfl rfl id rfl hinv
  | stored x v _ hx => exact State.hostWrite_inv v hinv hx

theorem State.resetInput_inv {s : State} (hinv : s.inv = true) : s.resetInput.inv = true := by
  obtain ⟨hwf, hspace, -⟩ := (State.inv_iff s).1 hinv
  obtain ⟨hwf', hspace'⟩ := State.abort_mem s hwf hspace
  exact State.inv_of_idle hwf' hspace' rfl

/-- The invariant at the state from which the engine moves. -/
theorem State.engineMovesFrom_inv {s u : State} (hinv : s.inv = true) (h : s.engineMovesFrom u) : u.inv = true := by
  rw [State.engineMovesFrom_same h]
  exact State.inv_congr rfl rfl id rfl hinv

theorem StepEffect.inv {s t : State} (hinv : s.inv = true) (h : StepEffect s t) : t.inv = true := by
  have hrest (rest : List Event) : State.inv { s with agenda := rest } = true := State.inv_congr rfl rfl id rfl hinv
  cases h with
  | idled _ hturn => exact State.engineMovesFrom_inv hinv hturn
  | refused u r e hturn =>
    obtain ⟨hwf, hspace, -⟩ := (State.inv_iff u).1 (State.engineMovesFrom_inv hinv hturn)
    exact State.inv_of_idle hwf hspace rfl
  | executed u r i _ hturn hr hd heffect =>
    refine heffect.inv (State.engineMovesFrom_inv hinv hturn) fun r' hr' => ?_
    cases hr.symm.trans hr'
    exact hd
  | host a rest _ _ heffect => exact heffect.inv (hrest rest)
  | waited => exact State.inv_congr rfl rfl id rfl hinv
  | reset rest => exact State.resetInput_inv (hrest rest)

theorem HostEffect.platform_eq {a : HostAction} {s t : State} (h : HostEffect a s t) : t.platform = s.platform := by
  cases h with
  | quiet _ _ _ _ _ hplatform => exact hplatform
  | status | accepted | rejected | stored => rfl

theorem HostEffect.agenda_eq {a : HostAction} {s t : State} (h : HostEffect a s t) : t.agenda = s.agenda := by
  cases h with
  | quiet _ _ _ _ _ _ hagenda => exact hagenda
  | status | accepted | rejected | stored => rfl

theorem State.engineMovesFrom_platform {s u : State} (h : s.engineMovesFrom u) : u.platform = s.platform := by
  rw [State.engineMovesFrom_same h]

/-- No step changes the platform (log 3). -/
theorem StepEffect.platform_eq {s t : State} (h : StepEffect s t) : t.platform = s.platform := by
  cases h with
  | idled _ hturn => exact State.engineMovesFrom_platform hturn
  | refused u _ _ hturn => exact State.engineMovesFrom_platform (u := u) hturn
  | executed u _ _ _ hturn _ _ heffect =>
    rw [heffect.unchanged]
    exact State.engineMovesFrom_platform (u := u) hturn
  | host _ _ _ _ heffect => exact heffect.platform_eq
  | waited | reset => rfl

/-- Settles O56: each effect of a step keeps the invariant, and none touches the platform. -/
theorem everyStepKeepsInvariant : Obligations.EveryStepKeepsInvariant :=
  fun _ _ hinv h => ⟨(step_effect h).inv hinv, (step_effect h).platform_eq⟩

/-! ### Every step keeps memory exact -/

/-- The pixel step of an undisturbed FRAME: its bytes are those of the memory from before the command, as the input is
unchanged, and no other output byte and no input byte is touched. -/
theorem frameExact_stored {j : Job} {r : Running} {p : Progress} {i : Nat} {s : State} (hinv : s.inv = true)
    (hexact : s.frameExact) (hr : s.phase = .busy r) (hj : r.frame = some j) (hp : r.progress = some p)
    (hi : i < j.count) : State.frameExact { s with
      mem := s.mem.writeCells (j.cells s.mem i)
      freeCount := s.freeCount + 1
      phase := .busy { r with progress := some { p with done := insertIndex i p.done } } } := by
  intro r' p' j' hr' hp' hj' hd
  cases hr'
  cases hp'
  cases hj.symm.trans hj'
  obtain ⟨hwf, -, -⟩ := (State.inv_iff s).1 hinv
  obtain ⟨-, hbelow, -⟩ := State.inv_progress hinv hr hj hp
  obtain ⟨hnew, hold, hinput⟩ := hexact r p j hr hp hj hd
  have valid := Running.frame_valid hj
  have hkeep {a : Nat} (ha : a ∉ j.outAddrs i) : (s.mem.writeCells (j.cells s.mem i)).read a = s.mem.read a :=
    Job.read_writeCells_of_not_outAddr hwf ha
  refine ⟨fun k hk c hc => ?_, fun k hk hnot a ha => ?_, fun a ha => ?_⟩
  · by_cases hki : k = i
    · subst hki
      rw [← Job.cells_congr hi hinput] at hc
      exact Memory.read_writeCells_of_mem _ (valid.cells_distinct _ hi) c hc _ hwf
    · have hkd : k ∈ p.done := ((mem_insertIndex i k p.done).1 hk).resolve_left hki
      rw [hkeep (valid.outAddrs_disjoint (hbelow k hkd) hi hki (Job.cell_addr hc))]
      exact hnew k hkd c hc
  · rw [mem_insertIndex, not_or] at hnot
    obtain ⟨hki, hkd⟩ := hnot
    rw [hkeep (valid.outAddrs_disjoint hk hi hki ha)]
    exact hold k hk hkd a ha
  · rw [hkeep fun hout => Bool.false_ne_true ((valid.outAddrs_not_src hi hout).symm.trans ha)]
    exact hinput a ha

theorem FrameEffect.frameExact {j : Job} {r : Running} {s t : State} (hinv : s.inv = true) (hexact : s.frameExact)
    (hr : s.phase = .busy r) (hj : r.frame = some j) (h : FrameEffect j r s t) : t.frameExact := by
  cases h with
  | validated =>
    refine State.frameExact_of_fresh _ fun r' p' hr' hp' => ?_
    cases hr'
    cases hp'
    exact ⟨rfl, rfl⟩
  | stored p i hp hleft hi =>
    obtain ⟨hsorted, -⟩ := State.inv_progress hinv hr hj hp
    exact frameExact_stored hinv hexact hr hj hp (hi ▸ (Job.pick_spec j p.done s.freeCount hsorted hleft).1)
  | faulted | completed | scrambled => exact State.frameExact_idle rfl

theorem ExecEffect.frameExact {i : Instr} {s t : State} (hinv : s.inv = true) (hexact : s.frameExact)
    (hd : ∀ r, s.phase = .busy r → decode r.latch.word = .instr i) (h : ExecEffect i s t) : t.frameExact := by
  cases h with
  | idle => exact hexact
  | failed | ended => exact State.frameExact_idle rfl
  | frame r j _ hi hr hj hstep => exact hstep.frameExact hinv hexact hr (Running.frame_of (hi ▸ hd r hr) hj)

/-- A host store into a buffer of a running FRAME marks it as disturbed; one elsewhere touches none of the bytes that
exactness speaks of. -/
theorem State.hostWrite_frameExact {s : State} (x : Nat) (v : Byte) (hinv : s.inv = true) (hexact : s.frameExact) :
    (s.hostWrite x v).frameExact := by
  intro r' p j hr' hp hj hd
  obtain ⟨hwf, -, -⟩ := (State.inv_iff s).1 hinv
  cases hphase : s.phase with
  | idle => exact nomatch (State.hostWrite_phase_idle hphase x v).symm.trans hr'
  | busy r =>
    cases (State.hostWrite_phase_busy hphase x v).symm.trans hr'
    have hlatch : (r.disturb x).latch = r.latch := by rw [Running.disturb_eq]
    rw [Running.frame_latch hlatch] at hj
    rw [Running.disturb_frame hj x] at hp hd
    split at hd
    case isTrue => exact nomatch hd
    case isFalse hout =>
      rw [if_neg hout] at hp
      simp only [Bool.or_eq_true, not_or] at hout
      obtain ⟨⟨hsrc, hdst⟩, hpk⟩ := hout
      obtain ⟨-, hbelow, -⟩ := State.inv_progress hinv hphase hj hp
      obtain ⟨hnew, hold, hinput⟩ := hexact r p j hphase hp hj hd
      have hkeep {a : Nat} (ha : a ≠ x) : (s.mem.write x v).read a = s.mem.read a := by
        rw [Memory.read_write s.mem x a v hwf, if_neg ha]
      have hne {k a : Nat} (hk : k < j.count) (ha : a ∈ j.outAddrs k) : a ≠ x := by
        rintro rfl
        exact (Job.outAddrs_region hk ha).elim hpk hdst
      refine ⟨fun k hk c hc => ?_, fun k hk hnot a ha => ?_, fun a ha => ?_⟩
      · exact (hkeep (hne (hbelow k hk) (Job.cell_addr hc))).trans (hnew k hk c hc)
      · exact (hkeep (hne hk ha)).trans (hold k hk hnot a ha)
      · exact (hkeep fun h => hsrc (h ▸ ha)).trans (hinput a ha)

theorem HostEffect.frameExact {a : HostAction} {s t : State} (hinv : s.inv = true) (hexact : s.frameExact)
    (h : HostEffect a s t) : t.frameExact := by
  cases h with
  | quiet _ hphase _ _ hmem => exact State.frameExact_congr hmem hphase hexact
  | status | rejected => exact State.frameExact_congr rfl rfl hexact
  | accepted =>
    refine State.frameExact_of_fresh _ fun r p hr hp => ?_
    cases hr
    exact nomatch hp
  | stored x v => exact State.hostWrite_frameExact x v hinv hexact

/-- Settles O58: only the pixel step and a host store change memory while a validated FRAME runs. -/
theorem everyStepKeepsFrameExact : Obligations.EveryStepKeepsFrameExact := by
  intro s t hinv hexact h
  cases step_effect h with
  | idled _ hturn =>
    rw [State.engineMovesFrom_same hturn]
    exact State.frameExact_congr rfl rfl hexact
  | refused | reset => exact State.frameExact_idle rfl
  | executed u r i _ hturn hr hd heffect =>
    have hexact' : u.frameExact := by
      rw [State.engineMovesFrom_same hturn]
      exact State.frameExact_congr rfl rfl hexact
    refine heffect.frameExact (State.engineMovesFrom_inv hinv hturn) hexact' fun r' hr' => ?_
    cases hr.symm.trans hr'
    exact hd
  | host a rest _ _ heffect =>
    have hinv' : State.inv { s with agenda := rest } = true := State.inv_congr rfl rfl id rfl hinv
    exact heffect.frameExact hinv' (State.frameExact_congr rfl rfl hexact)
  | waited => exact State.frameExact_congr rfl rfl hexact

/-- Settles O57: memory is empty after reset, and the engine IDLE. -/
theorem resetMeetsInvariant : Obligations.ResetMeetsInvariant :=
  ⟨State.inv_of_idle ⟨.nil, nofun⟩ nofun rfl, State.frameExact_idle rfl⟩

/-! ### FRAME writes its output buffers only -/

/-- A step of FRAME leaves every byte that is no output byte of the frame alone. -/
theorem FrameEffect.read_eq {j : Job} {r : Running} {s t : State} (hinv : s.inv = true) (hr : s.phase = .busy r)
    (hj : frameJob r.latch = .ok j) (h : FrameEffect j r s t) {a : Nat} (ha : ∀ i, i < j.count → a ∉ j.outAddrs i) :
    t.mem.read a = s.mem.read a := by
  obtain ⟨hwf, -, hphase⟩ := (State.inv_iff s).1 hinv
  cases h with
  | validated | completed => rfl
  | stored p i hp hleft hi =>
    obtain ⟨j', hj', -, hok⟩ := ((State.phaseOk_busy hr).1 hphase).2 p hp
    cases hj.symm.trans (Running.frame_some hj').2
    obtain ⟨hsorted, -⟩ := (Progress.ok_iff p j).1 hok
    exact Job.read_writeCells_of_not_outAddr hwf (ha i (hi ▸ (Job.pick_spec j p.done s.freeCount hsorted hleft).1))
  | faulted => exact Job.abandon_read _ _ { s with freeCount := s.freeCount + 1 } hwf a ha
  | scrambled => exact Job.abandon_read _ _ _ hwf a ha

/-- Settles O50: an engine step of FRAME that is none of the frame's steps writes no memory. -/
theorem frameWritesOnlyItsOutputs : Obligations.FrameWritesOnlyItsOutputs := by
  intro s t r hinv hr h a hout
  cases exec_effect h with
  | idle | failed => rfl
  | ended _ _ _ hi => exact absurd rfl hi
  | frame r' j _ _ hr' hj hstep =>
    cases hr.symm.trans hr'
    obtain ⟨hdst, hpk⟩ := hout j hj
    exact hstep.read_eq hinv hr hj (Job.not_mem_outAddrs hdst hpk)

end Sys2Proof.Machine
end

section
/-! Runs: with meaningful accesses and no device memory a run never stops (60_exceptions.md R213), a BUSY engine ends
its command (70_reset_and_hazards.md R243), and a FRAME that meets no error stores the image (43_pipeline.md R167). -/

namespace Sys2Proof.Machine

/-! ### Steps that answer a next state -/

theorem Job.touchesDevice_of_noDevices {p : Platform} (h : p.devices = []) (j : Job) : j.touchesDevice p = false := by
  simp [Job.touchesDevice, h]

/-- A FRAME that passes validation and touches no device starts its progress (43_pipeline.md R165). -/
theorem execFrame_validates {s : State} {r : Running} {j : Job} (hr : s.phase = .busy r)
    (hj : frameJob r.latch = .ok j) (hp : r.progress = none) (hdevice : j.touchesDevice s.platform = false) :
    execFrame s = .next { s with phase := .busy { r with progress := some { done := [], before := s.mem } } } :=
  (execFrame_validate hr hj hp).trans (if_neg (Bool.eq_false_iff.1 hdevice))

theorem execFrame_next {s : State} (hdevices : s.platform.devices = []) : ∃ t, execFrame s = .next t := by
  cases hr : s.phase with
  | idle => exact ⟨s, by simp only [execFrame, hr]⟩
  | busy r =>
    cases hj : frameJob r.latch with
    | error e => exact ⟨_, execFrame_rejected hr hj⟩
    | ok j =>
      cases hp : r.progress with
      | none => exact ⟨_, execFrame_validates hr hj hp (Job.touchesDevice_of_noDevices hdevices j)⟩
      | some p =>
        rcases Nat.lt_or_ge p.done.length j.count with hleft | hfull
        · exact ⟨_, execFrame_pixelStep hr hj hp hleft⟩
        · exact ⟨_, execFrame_completionStep hr hj hp hfull⟩

/-- Without device memory an engine step has a meaning. -/
theorem exec_next (i : Instr) {s : State} (hdevices : s.platform.devices = []) : ∃ t, exec i s = .next t := by
  by_cases hi : i = .frame
  · subst hi
    exact execFrame_next hdevices
  · obtain ⟨f, hf⟩ := exec_single hi
    rw [hf]
    exact runCommand_next s f

/-- A legal host access has a meaning. -/
theorem hostStep_next {a : HostAction} {s : State} (h : Event.legal s.platform (.host a) = true) :
    ∃ t, hostStep a s = .next t := by
  cases a with
  | regRead addr width | regWrite addr width =>
    simp only [Event.legal, Bool.or_eq_true, Bool.not_eq_true'] at h
    unfold hostStep
    by_cases hin : s.platform.inWindow addr = true
    · have hlegal := h.resolve_left (by rw [hin]; exact Bool.noConfusion)
      simp only [hin, hlegal, if_true]
      exact ⟨_, rfl⟩
    · simp only [hin]
      exact ⟨_, rfl⟩
  | memRead addr | memWrite addr => exact ⟨_, if_pos (of_decide_eq_true h)⟩

theorem State.legal_iff (s : State) : s.legal = true ↔
    (∀ e ∈ s.agenda, Event.legal s.platform e = true) ∧ s.platform.devices = [] := by
  simp [State.legal]

/-- A step from a legal state has a meaning. -/
theorem step_next {s : State} (h : s.legal = true) : ∃ t, step s = .next t := by
  obtain ⟨hevents, hdevices⟩ := (State.legal_iff s).1 h
  rcases step_cases s with ⟨o, hmove, hstep⟩ | ⟨u, hmove, ⟨_, hstep⟩ | ⟨e, _, hstep⟩ | ⟨i, _, hstep⟩⟩
  · rw [hstep]
    unfold nextMove at hmove
    split at hmove
    case h_1 | h_2 => cases hmove
    case h_3 a rest hagenda =>
      cases hmove
      exact hostStep_next (s := { s with agenda := rest }) (hevents _ (hagenda ▸ List.mem_cons_self))
    case h_4 =>
      split at hmove <;> cases hmove
      exact ⟨_, rfl⟩
    case h_5 =>
      cases hmove
      exact ⟨_, rfl⟩
  · exact ⟨_, hstep⟩
  · exact ⟨_, hstep⟩
  · rw [hstep]
    refine exec_next i ?_
    rw [State.engineMovesFrom_platform (engineMovesFrom_of_nextMove hmove)]
    exact hdevices

/-! ### The agenda is used up in its order -/

theorem State.engineMovesFrom_agenda {s u : State} (h : s.engineMovesFrom u) : u.agenda ⊆ s.agenda := by
  rcases h with ⟨_, rfl⟩ | ⟨rest, hagenda, rfl⟩ | ⟨_, _, _, rfl⟩
  · exact List.Subset.refl _
  · rw [hagenda]
    exact List.subset_cons_self _ _
  · exact List.Subset.refl _

/-- No step puts an event on the agenda. -/
theorem StepEffect.agenda_subset {s t : State} (h : StepEffect s t) : t.agenda ⊆ s.agenda := by
  cases h with
  | idled _ hturn => exact State.engineMovesFrom_agenda hturn
  | refused u _ _ hturn => exact State.engineMovesFrom_agenda (u := u) hturn
  | executed u _ _ _ hturn _ _ heffect =>
    rw [heffect.unchanged]
    exact State.engineMovesFrom_agenda (u := u) hturn
  | host _ rest _ hagenda heffect =>
    rw [heffect.agenda_eq, hagenda]
    exact List.subset_cons_self _ _
  | waited rest hagenda | reset rest hagenda =>
    rw [hagenda]
    exact List.subset_cons_self _ _

theorem StepEffect.legal {s t : State} (hlegal : s.legal = true) (h : StepEffect s t) : t.legal = true := by
  obtain ⟨hevents, hdevices⟩ := (State.legal_iff s).1 hlegal
  rw [State.legal_iff, h.platform_eq]
  exact ⟨fun e he => hevents e (h.agenda_subset he), hdevices⟩

/-- A run begins with its first step. -/
theorem run_succ {s u : State} (h : step s = .next u) (k : Nat) :
    Host.Core.run Sys2Proof.core (k + 1) s = Host.Core.run Sys2Proof.core k u := by
  have hstep : Sys2Proof.core.step s = .next u := h
  simp only [Host.Core.run, hstep]

/-- Settles O59: a step from a legal state has a meaning and answers a legal state. -/
theorem legalRunsNeverStop : Obligations.LegalRunsNeverStop := by
  intro s k hlegal
  induction k generalizing s with
  | zero => exact ⟨s, rfl⟩
  | succ k ih =>
    obtain ⟨u, hstep⟩ := step_next hlegal
    rw [run_succ hstep]
    exact ih u ((step_effect hstep).legal hlegal)

/-! ### The engine steps of a validated FRAME -/

/-- A validated FRAME runs, with no other agent to move. -/
structure State.RunsFrame (s : State) (r : Running) (j : Job) (p : Progress) : Prop where
  inv : s.inv = true
  agenda : s.agenda = []
  phase : s.phase = .busy r
  frame : r.frame = some j
  progress : r.progress = some p

/-- The progress of a FRAME after it stored the pixel `i`. -/
def Progress.add (p : Progress) (i : Nat) : Progress := { p with done := insertIndex i p.done }

/-- A running FRAME after it stored the pixel `i`. -/
def Running.add (r : Running) (p : Progress) (i : Nat) : Running := { r with progress := some (p.add i) }

/-- The state after the pixel step that stored the pixel `i`. -/
def State.storePixel (s : State) (r : Running) (j : Job) (p : Progress) (i : Nat) : State :=
  { s with
    mem := s.mem.writeCells (j.cells s.mem i)
    freeCount := s.freeCount + 1
    phase := .busy (r.add p i) }

/-- With an empty agenda, a BUSY engine with a command in its latch takes that command's engine step. -/
theorem step_of_decode_instr {s : State} {r : Running} {i : Instr} (hagenda : s.agenda = []) (hr : s.phase = .busy r)
    (hd : decode r.latch.word = .instr i) : step s = exec i s := by
  rw [State.engineMovesFrom_step (.inl ⟨hagenda, rfl⟩), State.fetch_instr hr hd]

section
variable {s : State} {r : Running} {j : Job} {p : Progress}

theorem State.RunsFrame.step_eq (h : s.RunsFrame r j p) : step s = execFrame s :=
  step_of_decode_instr h.agenda h.phase (Running.frame_some h.frame).1

theorem State.RunsFrame.step_complete (h : s.RunsFrame r j p) (hfull : j.count ≤ p.done.length) :
    step s = .next (frameComplete j r s) :=
  h.step_eq.trans (execFrame_complete h.phase h.frame h.progress hfull)

/-- A pixel step stores an index that was not completed, or ends the command with BUS_FAULT. -/
theorem State.RunsFrame.step_pixel (h : s.RunsFrame r j p) (hleft : p.done.length < j.count) :
    (∃ i, i < j.count ∧ i ∉ p.done ∧ step s = .next (s.storePixel r j p i)) ∨
    (j.busClear s.platform = false ∧ ∃ t, step s = .next t ∧ t.phase = .idle ∧
      t.error = some (s.error.getD .busFault)) := by
  obtain ⟨hsorted, -⟩ := State.inv_progress h.inv h.phase h.frame h.progress
  obtain ⟨hi, hnew⟩ := Job.pick_spec j p.done s.freeCount hsorted hleft
  have hstep := h.step_eq.trans (execFrame_pixel h.phase h.frame h.progress hleft)
  rcases framePixel_cases j r p (j.pick p.done s.freeCount) { s with freeCount := s.freeCount + 1 } with
    ⟨_, _, hstored⟩ | ⟨hfaulty, hfault⟩
  · rw [hstored] at hstep
    exact .inl ⟨_, hi, hnew, hstep⟩
  · rw [hfault, Job.abandon_eq] at hstep
    refine .inr ⟨Bool.eq_false_iff.2 fun hclear => ?_, _, hstep, rfl, rfl⟩
    obtain ⟨hreads, hwrites⟩ := Job.busClear_at hclear hi
    rcases hfaulty with hbad | hbad
    · exact Bool.false_ne_true (hbad.symm.trans hreads)
    · exact Bool.false_ne_true (hbad.symm.trans hwrites)

/-- A stored pixel leaves a validated FRAME running, with one index less to store. -/
theorem State.RunsFrame.storePixel {i : Nat} (h : s.RunsFrame r j p) (hstep : step s = .next (s.storePixel r j p i)) :
    (s.storePixel r j p i).RunsFrame (r.add p i) j (p.add i) where
  inv := (step_effect hstep).inv h.inv
  agenda := h.agenda
  phase := rfl
  frame := h.frame
  progress := rfl

theorem Progress.length_add {i : Nat} (hnew : i ∉ p.done) : (p.add i).done.length = p.done.length + 1 :=
  insertIndex_length i p.done hnew

/-- The validation step of a FRAME that passes its checks. -/
theorem step_validates (hagenda : s.agenda = []) (hr : s.phase = .busy r) (hj : r.frame = some j)
    (hp : r.progress = none) (hdevice : j.touchesDevice s.platform = false) :
    step s = .next { s with phase := .busy { r with progress := some { done := [], before := s.mem } } } := by
  obtain ⟨hd, hjob⟩ := Running.frame_some hj
  exact (step_of_decode_instr hagenda hr hd).trans (execFrame_validates hr hjob hp hdevice)

/-! ### Every command ends -/

/-- A successful end, or an error in the record, the first one kept. -/
def State.EndsFrom (t s : State) : Prop := t.phase = .idle ∧ (t.done = true ∨ ∃ e, t.error = some (s.error.getD e))

theorem frameComplete_ends (j : Job) (r : Running) (s : State) : (frameComplete j r s).EndsFrom s := ⟨rfl, .inl rfl⟩

/-- A validated FRAME ends after at most one step for each index left and a last one. -/
theorem State.RunsFrame.ends {n : Nat} (h : s.RunsFrame r j p) (hn : j.count - p.done.length = n) :
    ∃ k ≤ n + 1, ∃ t, Host.Core.run Sys2Proof.core k s = .next t ∧ t.EndsFrom s := by
  induction n generalizing s r p with
  | zero =>
    exact ⟨1, Nat.le_refl 1, _, run_succ (h.step_complete (by omega)) 0, frameComplete_ends j r s⟩
  | succ n ih =>
    rcases h.step_pixel (by omega) with ⟨i, _, hnew, hstep⟩ | ⟨_, t, hstep, hidle, herror⟩
    · have hlen := Progress.length_add hnew
      obtain ⟨k, hk, t, hrun, hend⟩ := ih (h.storePixel hstep) (by omega)
      exact ⟨k + 1, by omega, t, (run_succ hstep k).trans hrun, hend⟩
    · exact ⟨1, by omega, t, run_succ hstep 0, hidle, .inr ⟨_, herror⟩⟩

/-- A command that is no FRAME with a frame ends after one step. -/
theorem ends_of_noFrame (hagenda : s.agenda = []) (hdevices : s.platform.devices = []) (hr : s.phase = .busy r)
    (hframe : r.frame = none) : ∃ t, step s = .next t ∧ t.EndsFrom s := by
  cases hd : decode r.latch.word with
  | reject e => exact ⟨_, step_of_decode_reject (.inl ⟨hagenda, rfl⟩) hr hd, rfl, .inr ⟨_, rfl⟩⟩
  | instr i =>
    obtain ⟨t, ht⟩ := exec_next i hdevices
    refine ⟨t, (step_of_decode_instr hagenda hr hd).trans ht, ?_⟩
    cases exec_effect ht with
    | idle hidle => exact nomatch hr.symm.trans hidle
    | failed => exact ⟨rfl, .inr ⟨_, rfl⟩⟩
    | ended => exact ⟨rfl, .inl rfl⟩
    | frame r' j _ hi hr' hj =>
      cases hr.symm.trans hr'
      exact nomatch hframe.symm.trans (Running.frame_of (hi ▸ hd) hj)

end

/-- Settles O60: a command without a frame ends in its one step; a FRAME is validated, if it is not yet, and then has at
most N indices left. -/
theorem everyCommandEnds : Obligations.EveryCommandEnds := by
  intro s r hinv hagenda hdevices hr
  cases hj : r.frame with
  | none =>
    obtain ⟨t, hstep, hidle, hend⟩ := ends_of_noFrame hagenda hdevices hr hj
    exact ⟨1, t, run_succ hstep 0, hidle, fun _ => rfl, nofun, hend⟩
  | some j =>
    have hbound : ∃ k ≤ j.count + 2, ∃ t, Host.Core.run Sys2Proof.core k s = .next t ∧ t.EndsFrom s := by
      cases hp : r.progress with
      | some p =>
        have hruns : s.RunsFrame r j p := ⟨hinv, hagenda, hr, hj, hp⟩
        obtain ⟨k, hk, hend⟩ := hruns.ends rfl
        exact ⟨k, by omega, hend⟩
      | none =>
        have hstep := step_validates hagenda hr hj hp (Job.touchesDevice_of_noDevices hdevices j)
        have hruns : State.RunsFrame { s with phase := _ } _ j _ :=
          ⟨(step_effect hstep).inv hinv, hagenda, rfl, hj, rfl⟩
        obtain ⟨k, hk, t, hrun, hend⟩ := hruns.ends (n := j.count) rfl
        exact ⟨k + 1, by omega, t, (run_succ hstep k).trans hrun, hend⟩
    obtain ⟨k, hk, t, hrun, hidle, hend⟩ := hbound
    refine ⟨k, t, hrun, hidle, nofun, fun j' hj' => ?_, hend⟩
    cases hj'
    exact hk

/-! ### A FRAME without errors stores the image -/

/-- What a FRAME that began with memory `before` has made of `s` when it ends in `t`: the registers as they were but for
the phase and DONE, every pixel stored, and every byte outside the output buffers as it was. -/
def Job.ImageStored (j : Job) (before : Memory) (s t : State) : Prop :=
  t = { s with phase := .idle, done := true, mem := t.mem, freeCount := t.freeCount } ∧
  (∀ i, i < j.count → j.pixelStored before t.mem i) ∧
  (∀ a, j.dstRegion.has a = false → j.pkRegion.has a = false → t.mem.read a = s.mem.read a)

/-- An undisturbed FRAME on a clear bus takes one step for each index left, and a last one. -/
theorem State.RunsFrame.stores_image {s : State} {r : Running} {j : Job} {p : Progress} {n : Nat}
    (h : s.RunsFrame r j p) (hexact : s.frameExact) (hd : r.disturbed = false)
    (hclear : j.busClear s.platform = true) (hn : j.count - p.done.length = n) :
    ∃ t, Host.Core.run Sys2Proof.core (n + 1) s = .next t ∧ j.ImageStored p.before s t := by
  induction n generalizing s r p with
  | zero =>
    obtain ⟨hsorted, hbelow, -⟩ := State.inv_progress h.inv h.phase h.frame h.progress
    obtain ⟨hnew, -⟩ := hexact r p j h.phase h.progress h.frame hd
    have hend : frameComplete j r s = s.endOk Results.none := by
      rw [frameComplete, hd]
      rfl
    refine ⟨_, run_succ (h.step_complete (by omega)) 0, ?_⟩
    rw [hend]
    exact ⟨rfl, fun i hi => hnew i (sorted_full p.done j.count hsorted hbelow (by omega) i hi), fun _ _ _ => rfl⟩
  | succ n ih =>
    rcases h.step_pixel (by omega) with ⟨i, hi, hnew, hstep⟩ | ⟨hbad, _⟩
    · have hlen := Progress.length_add hnew
      have hexact' := everyStepKeepsFrameExact s _ h.inv hexact hstep
      obtain ⟨t, hrun, ht, hstored, hkeep⟩ := ih (h.storePixel hstep) hexact' hd hclear (by omega)
      obtain ⟨hwf, -, -⟩ := (State.inv_iff s).1 h.inv
      refine ⟨t, (run_succ hstep _).trans hrun, ht, hstored, fun a hdst hpk => (hkeep a hdst hpk).trans ?_⟩
      exact Job.read_writeCells_of_not_outAddr hwf (Job.not_mem_outAddrs hdst hpk i hi)
    · exact absurd hclear (Bool.eq_false_iff.1 hbad)

/-- Settles O49: the validation step, and then the steps of the N indices and the last one. -/
theorem frameRunStoresTheImage : Obligations.FrameRunStoresTheImage := by
  intro s r j hinv hagenda hr hj hp hd hdevice hclear
  have hstep := step_validates hagenda hr hj hp hdevice
  have hruns : State.RunsFrame { s with phase := _ } _ j _ :=
    ⟨(step_effect hstep).inv hinv, hagenda, rfl, hj, rfl⟩
  have hexact := everyStepKeepsFrameExact s _ hinv (State.frameExact_of_fresh s fun r' p hr' hp' => by
    cases hr.symm.trans hr'
    exact nomatch hp.symm.trans hp') hstep
  obtain ⟨t, hrun, hstored⟩ := hruns.stores_image (n := j.count) hexact hd hclear rfl
  exact ⟨t, (run_succ hstep _).trans hrun, hstored⟩

end Sys2Proof.Machine
end

section
/-! Correct rounding (00_scope.md R9): no finite binary32 is nearer to the exact sum, product or quotient than the
result, and of two equally near ones the result is the even one. -/

namespace Sys2Proof.Machine

/-! ### The rounded significand is nearest -/

/-- No integer multiple of the divisor is nearer to the dividend than the rounded quotient's, and where another one is
equally near, the rounded quotient is even. -/
theorem roundEven_nearest (n d k : Nat) (hd : 0 < d) :
    ((roundEven n d * d : Nat) - n : Int).natAbs ≤ ((k * d : Nat) - n : Int).natAbs ∧
    (((roundEven n d * d : Nat) - n : Int).natAbs = ((k * d : Nat) - n : Int).natAbs → k ≠ roundEven n d →
      roundEven n d % 2 = 0) := by
  obtain ⟨hlow, hhigh⟩ := roundEven_bounds n d hd
  have htie := roundEven_tie n d hd
  rcases Nat.lt_trichotomy k (roundEven n d) with hlt | rfl | hgt
  · have hstep : (k + 1) * d ≤ roundEven n d * d := Nat.mul_le_mul_right d hlt
    rw [Nat.add_mul, Nat.one_mul] at hstep
    exact ⟨by omega, fun heq _ => htie (by omega)⟩
  · exact ⟨Nat.le_refl _, fun _ hne => absurd rfl hne⟩
  · have hstep : (roundEven n d + 1) * d ≤ k * d := Nat.mul_le_mul_right d hgt
    rw [Nat.add_mul, Nat.one_mul] at hstep
    exact ⟨by omega, fun heq _ => htie (by omega)⟩

/-- No value m * 2^k with a significand below 2^24 is nearer to num / den than the significand that `F32.ofRatio` rounds
to, at its exponent: at that exponent or above, m * 2^k is a multiple of its unit; below it, m * 2^k lies under the least
significand, and so does not reach up to num / den. -/
theorem ratioSig_nearest (num den m k : Nat) (hd : 0 < den) (hm : m < 2 ^ 24) :
    ((ratioSig num den * 2 ^ ratioExp num den * den : Nat) - num : Int).natAbs ≤
      ((m * 2 ^ k * den : Nat) - num : Int).natAbs ∧
    (((ratioSig num den * 2 ^ ratioExp num den * den : Nat) - num : Int).natAbs =
        ((m * 2 ^ k * den : Nat) - num : Int).natAbs →
      m * 2 ^ k ≠ ratioSig num den * 2 ^ ratioExp num den → ratioSig num den % 2 = 0) := by
  obtain ⟨_, hnormal⟩ := ratioExp_bounds num den hd
  have hunit : 0 < den * 2 ^ ratioExp num den := Nat.mul_pos hd (Nat.two_pow_pos _)
  have hnearest := roundEven_nearest num (den * 2 ^ ratioExp num den)
  rw [← ratioSig] at hnearest
  generalize ratioSig num den = sig at *
  generalize ratioExp num den = e at *
  have hsig : sig * 2 ^ e * den = sig * (den * 2 ^ e) := by ring
  rw [hsig]
  rcases Nat.lt_or_ge k e with hlow | hhigh
  · have hunder : m * 2 ^ k * den < 2 ^ 23 * (den * 2 ^ e) := by
      calc m * 2 ^ k * den < 2 ^ 24 * 2 ^ k * den :=
            Nat.mul_lt_mul_of_pos_right (Nat.mul_lt_mul_of_pos_right hm (Nat.two_pow_pos _)) hd
        _ = 2 ^ 23 * (den * 2 ^ (k + 1)) := by ring
        _ ≤ 2 ^ 23 * (den * 2 ^ e) :=
            Nat.mul_le_mul_left _ (Nat.mul_le_mul_left _ (Nat.pow_le_pow_right (by decide) hlow))
    have hleast := (hnearest (2 ^ 23) hunit).1
    omega
  · obtain ⟨i, rfl⟩ := Nat.exists_eq_add_of_le hhigh
    have hmultiple : m * 2 ^ (e + i) * den = m * 2 ^ i * (den * 2 ^ e) := by ring
    obtain ⟨hle, htie⟩ := hnearest (m * 2 ^ i) hunit
    rw [hmultiple]
    refine ⟨hle, fun heq hne => htie heq ?_⟩
    rintro rfl
    exact hne (by ring)

/-! ### Signs -/

/-- A sign bit as a factor. -/
def signFactor (neg : Bool) : Int := if neg then -1 else 1

theorem F32.scaled_eq (f : F32) : F32.scaled f = signFactor (F32.sign f) * F32.magnitude f := by
  unfold F32.scaled signFactor
  split <;> ring

theorem abs_signFactor (neg : Bool) : |signFactor neg| = 1 := by cases neg <;> rfl

theorem signFactor_bne (a b : Bool) : signFactor (a != b) = signFactor a * signFactor b := by
  cases a <;> cases b <;> rfl

theorem signFactor_mul_self (a : Bool) : signFactor a * signFactor a = 1 := by cases a <;> rfl

theorem eq_signFactor_mul_natAbs (x : Int) : x = signFactor (decide (x < 0)) * x.natAbs := by
  unfold signFactor
  by_cases h : x < 0
  · rw [if_pos (decide_eq_true h)]
    omega
  · rw [if_neg (by simpa using h)]
    omega

/-! ### The rounded ratio is nearest -/

/-- `r * d` is a value nearest to `x` among the finite patterns times `d`, and the even one where another is equally
near (00_scope.md R9). -/
def F32.Nearest (r : F32) (d x : Int) : Prop :=
  ∀ c : F32, F32.isFinite c = true →
    |F32.scaled r * d - x| ≤ |F32.scaled c * d - x| ∧
    (|F32.scaled r * d - x| = |F32.scaled c * d - x| → F32.scaled c ≠ F32.scaled r → r.getLsbD 0 = false)

/-- An exact value is nearest, and no other value is equally near. -/
theorem F32.nearest_of_exact {r : F32} {d x : Int} (hd : d ≠ 0) (h : F32.scaled r * d = x) : F32.Nearest r d x := by
  intro c _
  rw [h, sub_self, abs_zero]
  refine ⟨abs_nonneg _, fun heq hne => absurd ?_ hne⟩
  have hc : F32.scaled c * d = x := sub_eq_zero.1 (abs_eq_zero.1 heq.symm)
  exact mul_right_cancel₀ hd (hc.trans h.symm)

theorem F32.getLsbD_zero_ofRatio {neg : Bool} {num den : Nat}
    (hf : F32.isFinite (F32.ofRatio neg num den) = true) (heven : ratioSig num den % 2 = 0) :
    (F32.ofRatio neg num den).getLsbD 0 = false := by
  rw [F32.ofRatio_eq] at hf ⊢
  rw [F32.isFinite_pack] at hf
  rw [BitVec.getLsbD, F32.pack_toNat, Nat.testBit_zero, decide_eq_false_iff_not]
  omega

/-- The magnitude of `F32.ofRatio` is nearest among the finite magnitudes. -/
theorem F32.magnitude_ofRatio_nearest {neg : Bool} {num den : Nat} (hd : 0 < den)
    (hf : F32.isFinite (F32.ofRatio neg num den) = true) {c : F32} (hc : F32.isFinite c = true) :
    |(F32.magnitude (F32.ofRatio neg num den) * den - num : Int)| ≤ |(F32.magnitude c * den - num : Int)| ∧
    (|(F32.magnitude (F32.ofRatio neg num den) * den - num : Int)| = |(F32.magnitude c * den - num : Int)| →
      F32.magnitude c ≠ F32.magnitude (F32.ofRatio neg num den) → (F32.ofRatio neg num den).getLsbD 0 = false) := by
  obtain ⟨e, m, hform, hm, -⟩ := F32.magnitude_form c hc
  obtain ⟨hle, htie⟩ := ratioSig_nearest num den m e hd hm
  rw [F32.magnitude_ofRatio neg num den hd hf, hform, Int.abs_eq_natAbs, Int.abs_eq_natAbs]
  rw [Nat.cast_mul _ den, Nat.cast_mul _ den] at hle htie
  exact ⟨Int.ofNat_le.2 hle, fun heq hne => F32.getLsbD_zero_ofRatio hf (htie (Int.ofNat_inj.1 heq) hne)⟩

/-- Where `ofRatio` times `d` and `x` have the same sign, the rounded ratio is nearest to `x`: a value of the other sign
is no nearer than its magnitude, and is equally near only at zero. -/
theorem F32.ofRatio_nearest {neg sgn : Bool} {num den : Nat} {d x : Int} (hden : 0 < den)
    (hf : F32.isFinite (F32.ofRatio neg num den) = true) (hd : |d| = den) (hx : x = signFactor sgn * num)
    (hr : F32.scaled (F32.ofRatio neg num den) * d =
      signFactor sgn * (F32.magnitude (F32.ofRatio neg num den) * den)) :
    F32.Nearest (F32.ofRatio neg num den) d x := by
  intro c hc
  obtain ⟨hle, htie⟩ := F32.magnitude_ofRatio_nearest hden hf hc
  obtain ⟨hzero, -⟩ := F32.magnitude_ofRatio_nearest (c := 0#32) hden hf (by decide)
  generalize F32.ofRatio neg num den = r at *
  have hdist : |F32.scaled r * d - x| = |(F32.magnitude r * den - num : Int)| := by
    rw [hr, hx, ← mul_sub, abs_mul, abs_signFactor, one_mul]
  have hcd : |F32.scaled c * d| = F32.magnitude c * den := by
    rw [abs_mul, hd, Int.abs_eq_natAbs, F32.natAbs_scaled]
  have hxabs : |x| = num := by rw [hx, abs_mul, abs_signFactor, one_mul, Nat.abs_cast]
  have hreverse : |(F32.magnitude c * den - num : Int)| ≤ |F32.scaled c * d - x| := by
    rw [← hcd, ← hxabs]
    exact abs_abs_sub_abs_le _ _
  rw [hdist]
  refine ⟨hle.trans hreverse, fun heq hne => ?_⟩
  by_cases hmag : F32.magnitude c = F32.magnitude r
  · have hopposite : F32.scaled c = - F32.scaled r := by
      rw [← F32.natAbs_scaled, ← F32.natAbs_scaled, Int.natAbs_eq_natAbs_iff] at hmag
      exact hmag.resolve_left hne
    have hsum : |F32.scaled c * d - x| = (F32.magnitude r * den + num : Int) := by
      rw [hopposite, neg_mul, hr, hx, ← neg_add', ← mul_add, abs_neg, abs_mul, abs_signFactor, one_mul]
      exact abs_of_nonneg (by positivity)
    have hprod : F32.magnitude r * den = 0 := by
      rw [heq, hsum, show F32.magnitude 0#32 = 0 from rfl, Nat.cast_zero, zero_mul, zero_sub, abs_neg, Nat.abs_cast,
        ← Nat.cast_mul] at hzero
      omega
    have hr0 : F32.magnitude r = 0 := (Nat.mul_eq_zero.1 hprod).resolve_right hden.ne'
    rw [← F32.natAbs_scaled, Int.natAbs_eq_zero] at hr0
    exact absurd (by rw [hopposite, hr0, neg_zero]) hne
  · exact htie (le_antisymm hle (heq ▸ hreverse)) hmag

/-! ### The three operations -/

/-- A finite sum that is not zero is a rounded ratio. -/
theorem fadd_eq_ofRatio {a b : F32} (ha : F32.isFinite a = true) (hb : F32.isFinite b = true)
    (h0 : F32.scaled a + F32.scaled b ≠ 0) :
    fadd a b = F32.ofRatio (decide (F32.scaled a + F32.scaled b < 0)) (F32.scaled a + F32.scaled b).natAbs 1 := by
  simp only [fadd, ha, hb, Bool.and_self, if_true, if_neg h0]

theorem fadd_nearest {a b : F32} (ha : F32.isFinite a = true) (hb : F32.isFinite b = true)
    (hf : F32.isFinite (fadd a b) = true) : F32.Nearest (fadd a b) 1 (F32.scaled a + F32.scaled b) := by
  by_cases h0 : F32.scaled a + F32.scaled b = 0
  · have hexact := (fadd_exact a b ha hb 0 0 (by decide) (by decide) (by rw [h0]; rfl)).2
    exact F32.nearest_of_exact one_ne_zero (by rw [hexact, mul_one])
  · rw [fadd_eq_ofRatio ha hb h0] at hf ⊢
    refine F32.ofRatio_nearest (by decide) hf (by simp) (eq_signFactor_mul_natAbs _) ?_
    rw [F32.scaled_eq, F32.sign_ofRatio]
    push_cast
    ring

theorem fmul_eq_ofRatio {a b : F32} (ha : F32.isFinite a = true) (hb : F32.isFinite b = true) :
    fmul a b = F32.ofRatio (F32.sign a != F32.sign b) (F32.magnitude a * F32.magnitude b) F32.unit := by
  simp only [fmul, ha, hb, Bool.and_self, if_true]

theorem fmul_nearest {a b : F32} (ha : F32.isFinite a = true) (hb : F32.isFinite b = true)
    (hf : F32.isFinite (fmul a b) = true) : F32.Nearest (fmul a b) F32.unit (F32.scaled a * F32.scaled b) := by
  rw [fmul_eq_ofRatio ha hb] at hf ⊢
  refine F32.ofRatio_nearest (sgn := F32.sign a != F32.sign b) F32.unit_pos hf (Nat.abs_cast _) ?_ ?_
  · rw [F32.scaled_eq a, F32.scaled_eq b, signFactor_bne]
    push_cast
    ring
  · rw [F32.scaled_eq, F32.sign_ofRatio]
    ring

theorem fdiv_eq_ofRatio {a b : F32} (ha : F32.isFinite a = true) (hb : F32.isFinite b = true)
    (h0 : F32.magnitude b ≠ 0) :
    fdiv a b = F32.ofRatio (F32.sign a != F32.sign b) (F32.magnitude a * F32.unit) (F32.magnitude b) := by
  simp only [fdiv, ha, hb, bne_iff_ne.2 h0, Bool.and_self, if_true]

/-- The quotient times the divisor is nearest to the dividend: the divisor's sign cancels. -/
theorem fdiv_nearest {a b : F32} (ha : F32.isFinite a = true) (hb : F32.isFinite b = true) (h0 : F32.scaled b ≠ 0)
    (hf : F32.isFinite (fdiv a b) = true) : F32.Nearest (fdiv a b) (F32.scaled b) (F32.scaled a * F32.unit) := by
  have hb0 : F32.magnitude b ≠ 0 := by rwa [← F32.natAbs_scaled, Int.natAbs_ne_zero]
  rw [fdiv_eq_ofRatio ha hb hb0] at hf ⊢
  refine F32.ofRatio_nearest (sgn := F32.sign a) (Nat.pos_of_ne_zero hb0) hf ?_ ?_ ?_
  · rw [Int.abs_eq_natAbs, F32.natAbs_scaled]
  · rw [F32.scaled_eq a]
    push_cast
    ring
  · rw [F32.scaled_eq b, F32.scaled_eq (F32.ofRatio ..), F32.sign_ofRatio, signFactor_bne]
    linear_combination (signFactor (F32.sign a) * F32.magnitude (F32.ofRatio (F32.sign a != F32.sign b)
      (F32.magnitude a * F32.unit) (F32.magnitude b)) * F32.magnitude b) * signFactor_mul_self (F32.sign b)

/-- Settles O20: a sum that is not zero is a rounded ratio over 1, and a zero sum is exact. -/
theorem additionIsCorrectlyRounded : Obligations.AdditionIsCorrectlyRounded := by
  intro a b c ha hb hc hf
  have hnearest := fadd_nearest ha hb hf c hc
  rwa [mul_one, mul_one] at hnearest

/-- Settles O21: a product is a rounded ratio over 2^149. -/
theorem multiplicationIsCorrectlyRounded : Obligations.MultiplicationIsCorrectlyRounded :=
  fun _ _ c ha hb hc hf => fmul_nearest ha hb hf c hc

/-- Settles O22: a quotient is a rounded ratio over the magnitude of the divisor. -/
theorem divisionIsCorrectlyRounded : Obligations.DivisionIsCorrectlyRounded :=
  fun _ _ c ha hb hc h0 hf => fdiv_nearest ha hb h0 hf c hc

end Sys2Proof.Machine
end

section
/-! The bias of the noise-dither variant (41_quantizer.md R121), and the commands NOISE (40_lookup.md R101) and DPIX4444
(43_pipeline.md R163). -/

namespace Sys2Proof.Machine

/-! ### The range of the bias -/

/-- The bias of a value in [0, 1] is within half a step (41_quantizer.md R121). -/
theorem qnoiseBias_bound (tie : TieRule) {m : F32} {p : Nat} (h : F32.InUnit m) (hp : p < 23) :
    -(2 ^ p) ≤ qnoiseBias tie m (2 ^ (p + 1)) false ∧ qnoiseBias tie m (2 ^ (p + 1)) false ≤ 2 ^ p := by
  obtain ⟨hfin, hmag⟩ := qnoiseU_bound h hp
  zify at hmag
  obtain ⟨hlow, hhigh⟩ := abs_le.1 hmag
  exact ⟨le_roundTie hfin (by rwa [neg_mul]), roundTie_le hfin hhigh⟩

/-- Noise 0 gives exactly minus half a step before rounding. -/
theorem scaled_qnoiseU_zero {p : Nat} (hp : p < 23) :
    F32.scaled (qnoiseU 0#32 (2 ^ (p + 1)) false) = -(2 ^ p) * (F32.unit : Int) := by
  have hzero : F32.InUnit 0#32 := noiseValid_inUnit (by decide)
  have hhalf : (2 : Nat) ^ p < 2 ^ 24 := Nat.pow_lt_pow_right (by decide) (by omega)
  have hmul := (fmul_f32_two_pow hzero.1 hzero.magnitude_le (by omega : p + 1 < 24)).1
  have hneg := (isFinite_fneg _).trans (f32_exact (2 ^ p) hhalf).1
  have hsum := qnoiseU_sum hzero hp
  rw [show F32.scaled 0#32 = 0 from rfl, mul_zero, zero_sub, mul_neg, ← neg_mul] at hsum
  rw [qnoiseU_two_pow, fsub, ← hsum]
  refine (fadd_exact _ _ hmul hneg (2 ^ p) 149 hhalf (by decide) ?_).2
  rw [hsum, Int.natAbs_mul, Int.natAbs_neg, Int.natAbs_pow]
  rfl

/-- Noise 0 gives minus half a step, and half a step when it is flipped (41_quantizer.md R121). -/
theorem qnoiseBias_zero_two_pow (tie : TieRule) {p : Nat} (hp : p < 23) :
    qnoiseBias tie 0#32 (2 ^ (p + 1)) false = -(2 ^ p) ∧ qnoiseBias tie 0#32 (2 ^ (p + 1)) true = 2 ^ p := by
  have hzero : F32.InUnit 0#32 := noiseValid_inUnit (by decide)
  have hlow : qnoiseBias tie 0#32 (2 ^ (p + 1)) false = -(2 ^ p) :=
    le_antisymm (roundTie_le (qnoiseU_bound hzero hp).1 (scaled_qnoiseU_zero hp).le) (qnoiseBias_bound tie hzero hp).1
  refine ⟨hlow, ?_⟩
  have hcompl : F32.scaled (fsub (f32 1) 0#32) = F32.unit - F32.scaled 0#32 := by decide
  rw [qnoiseBias, qnoiseU_flip]
  exact (qnoiseBias_complement tie hzero (fsub_one_inUnit hzero) hp hcompl).trans (by rw [hlow, neg_neg])

/-- Settles O28: the steps are powers of two, and the flipped variant is the unflipped one of 1 - noise. -/
theorem noiseBiasIsSymmetric : Obligations.NoiseBiasIsSymmetric := by
  have hhalf (p : Nat) : (((2 ^ (p + 1) : Nat) : Int) / 2) = 2 ^ p := by
    rw [Nat.cast_pow, pow_succ]
    exact Int.mul_ediv_cancel _ (by decide)
  refine ⟨fun tie noise code step flip hvalid hstep => ?_, fun tie code step hstep => ?_⟩
  all_goals
    obtain ⟨p, hp, rfl⟩ := stepOfCode_two_pow hstep
    rw [hhalf]
  · have hnoise := noiseValid_inUnit hvalid
    cases flip with
    | false => exact qnoiseBias_bound tie hnoise hp
    | true => exact qnoiseBias_bound tie (fsub_one_inUnit hnoise) hp
  · exact qnoiseBias_zero_two_pow tie hp

/-! ### NOISE -/

/-- Settles O33: the check of the coordinates selects the end, and the two noises of the rule are evaluated. -/
theorem noiseCommandResult : Obligations.NoiseCommandResult := by
  refine ⟨by decide, fun s r hr => ⟨fun h0 h1 => ?_, fun h => ?_⟩, fun _ _ => rfl, by decide, by decide⟩
  · rw [← State.endOk_one]
    exact (execNoise.eq_def s).trans (runCommand_coordsValid _ hr h0 h1)
  · exact (execNoise.eq_def s).trans (runCommand_coordsInvalid _ hr h)

/-! ### DPIX4444 -/

/-- Settles O44: the check of the coordinates selects the end, and G is the channel that is flipped. -/
theorem dpix4444CommandResult : Obligations.Dpix4444CommandResult := by
  refine ⟨by decide, fun s r hr => ⟨fun hx hy => ?valid, fun hrange => ?invalid⟩⟩
  case valid =>
    rw [execDpix4444_eq hr, if_pos ((coordsValid_iff _ _).2 ⟨hx, hy⟩), State.endOk_pixelResults, packedWord_eq_ofNat]
    rfl
  case invalid =>
    rw [execDpix4444_eq hr, if_neg (by rw [coordsValid_iff]; omega), State.endError_eq]

end Sys2Proof.Machine
end
